-- ==== Sys2Proof/Word.lean ====
section
/-! DEFINITION. The word types of CFE (spec/00_scope.md R8, R9, R11): unsigned bit vectors, bit 0 least significant. -/

namespace Sys2Proof

/-- One byte of buffer memory or of a command's immediate. -/
abbrev Byte := BitVec 8

/-- The width `W = 32` of the CRC register and of a command word (R8, R9). -/
abbrev Word32 := BitVec 32

/-- The width of `PTR`, `LEN`, `TOTAL` and of host-port data (R9). -/
abbrev Word64 := BitVec 64

/-- The width of an accumulator and of a block (R8). -/
abbrev Vec128 := BitVec 128

end Sys2Proof
end

