-- ==== Sys2Proof/Syntax.lean ====
section
/-! DEFINITION. The seven commands of CFE command set v1 (spec/30_encoding.md R97): one constructor per opcode-table row. -/

namespace Sys2Proof

/-- A command (R97). The operands `PTR`, `LEN`, `CRC` of the update commands are registers, not fields of the word (R96). -/
inductive Instr where
  /-- `NOP`, opcode 0x00 (R204). -/
  | nop
  /-- `INIT`, opcode 0x01 (R205). -/
  | init
  /-- `INJB imm8`, opcode 0x02 (R206): the immediate is an unsigned byte, used as is (R96). -/
  | injb (imm8 : Byte)
  /-- `UPDATE`, opcode 0x03 (R207). -/
  | update
  /-- `UPD_TABLE`, opcode 0x04 (R208). -/
  | updTable
  /-- `UPD_FOLD`, opcode 0x05 (R209). -/
  | updFold
  /-- `FINAL`, opcode 0x06 (R210). -/
  | finalize
  deriving DecidableEq, Repr

end Sys2Proof
end

