-- ==== Sys2Proof/WellFormed.lean ====
section
/-! DEFINITION. Format C (spec/30_encoding.md R95) and what makes its fields a legal command (R97, R98). -/

namespace Sys2Proof

/-- The three fields of the one command format C (R95). -/
structure CommandWord where
  opcode : BitVec 8
  imm8 : BitVec 8
  zero : BitVec 16
  deriving DecidableEq, Repr

namespace CommandWord

/-- The opcode is one of 0x00 to 0x06 (R97). -/
def opcodeDefined (c : CommandWord) : Bool := decide (c.opcode.toNat ≤ 6)

/-- `imm8` "must be zero for every other command" than `INJB`, opcode 0x02 (R95). -/
def imm8Allowed (c : CommandWord) : Bool := decide (c.imm8 = 0) || decide (c.opcode = 2)

/-- The field `zero` "must be zero" (R95). -/
def zeroIsZero (c : CommandWord) : Bool := decide (c.zero = 0)

/-- A legal command word (R98): the three checks together. -/
def legal (c : CommandWord) : Bool := c.opcodeDefined && c.imm8Allowed && c.zeroIsZero

end CommandWord

namespace Instr

/-- The format-C fields of a command: its opcode (R97), its immediate where it has one, zero elsewhere (R95). -/
def fields : Instr → CommandWord
  | .nop => ⟨0x00, 0, 0⟩
  | .init => ⟨0x01, 0, 0⟩
  | .injb imm8 => ⟨0x02, imm8, 0⟩
  | .update => ⟨0x03, 0, 0⟩
  | .updTable => ⟨0x04, 0, 0⟩
  | .updFold => ⟨0x05, 0, 0⟩
  | .finalize => ⟨0x06, 0, 0⟩

/-- A command is well formed when its fields are a legal word. -/
def wellFormed (i : Instr) : Bool := i.fields.legal

end Instr

end Sys2Proof
end

