-- ==== Sys2Proof/Decode.lean ====
section
/-! DEFINITION. The decoder, total on all `2^32` words (spec/30_encoding.md R95 to R99), and the encoder. -/

namespace Sys2Proof

/-- Why a word is no command (R98). CFE reports every one of them as `ILLCMD`; the three names are the model's. -/
inductive Illegal where
  /-- Opcode 0x07 to 0xFF. -/
  | opcode
  /-- Non-zero `imm8` with an opcode other than 0x02. -/
  | imm8
  /-- Non-zero bits 31:16. -/
  | zeroField
  deriving DecidableEq, Repr

/-- One row of the opcode map (R97): a word `w` selects it when `w &&& mask = value`. -/
structure OpRow where
  mask : Word32
  value : Word32
  build : Byte → Instr

/-- The opcode map, row by row as R97 prints it. -/
def opTable : List OpRow :=
  [ ⟨0xFFFFFFFF, 0x00000000, fun _ => .nop⟩,
    ⟨0xFFFFFFFF, 0x00000001, fun _ => .init⟩,
    ⟨0xFFFF00FF, 0x00000002, fun b => .injb b⟩,
    ⟨0xFFFFFFFF, 0x00000003, fun _ => .update⟩,
    ⟨0xFFFFFFFF, 0x00000004, fun _ => .updTable⟩,
    ⟨0xFFFFFFFF, 0x00000005, fun _ => .updFold⟩,
    ⟨0xFFFFFFFF, 0x00000006, fun _ => .finalize⟩ ]

/-- Does the word select this row? -/
def OpRow.selects (r : OpRow) (w : Word32) : Bool := decide (w &&& r.mask = r.value)

/-- The fields of a word (R95): `opcode` 7:0, `imm8` 15:8, `zero` 31:16. -/
def CommandWord.ofWord (w : Word32) : CommandWord :=
  ⟨w.extractLsb' 0 8, w.extractLsb' 8 8, w.extractLsb' 16 16⟩

/-- The word of the fields (R95). -/
def CommandWord.toWord (c : CommandWord) : Word32 := c.zero ++ c.imm8 ++ c.opcode

/-- The name of a word's illegality: the first of the three checks it fails, in the order `zero`, `opcode`, `imm8`. -/
def illegalReason (c : CommandWord) : Illegal :=
  if ¬ c.zeroIsZero then .zeroField else if ¬ c.opcodeDefined then .opcode else .imm8

/-- Decode a command word (R97, R98). -/
def decode (w : Word32) : Except Illegal Instr :=
  match opTable.find? (fun r => r.selects w) with
  | some r => .ok (r.build (CommandWord.ofWord w).imm8)
  | none => .error (illegalReason (CommandWord.ofWord w))

/-- Encode a command (R95, R97, R101: `INJB b` is `(b << 8) | 0x02`, every other mnemonic its opcode alone). -/
def encode (i : Instr) : Word32 := i.fields.toWord

/-- The host's reading of the decoder: the command whose `nbits` bits are `w`, every bit above them zero. A command is one
32-bit number written to `CMD` (R95), so no byte order enters. -/
def tableWord (nbits w : Nat) : Word32 := BitVec.ofNat 32 (w % 2 ^ nbits)

/-- What the decoder reads from a row's word. -/
def decodeTableWord (nbits w : Nat) : Option Instr :=
  match decode (tableWord nbits w) with
  | .ok i => some i
  | .error _ => none

end Sys2Proof
end

