-- ==== Sys2Proof/Config.lean ====
section
/-! DEFINITION. What the hardware fixes (spec/00_scope.md R8, R9) and its two open capability straps (R10). -/

namespace Sys2Proof

/-- GeneratorPolynomial, the pair `(width, polyNoTop)` (R120). -/
structure Generator where
  width : Nat
  polyNoTop : Nat
  deriving DecidableEq, Repr

namespace Generator

/-- The domain of the constant derivation (R128): `3 ≤ width ≤ 64` and `polyNoTop` fits in `width` bits. -/
def inDomain (g : Generator) : Bool :=
  decide (3 ≤ g.width) && decide (g.width ≤ 64) && decide (g.polyNoTop < 2 ^ g.width)

/-- The polynomial itself, `P = x^width + polyNoTop`, an integer of `width + 1` bits (R120). -/
def poly (g : Generator) : Nat := 2 ^ g.width ^^^ g.polyNoTop

end Generator

namespace Config

/-- CFE's one generator: `W = 32`, `polyNoTop = 0x04C11DB7` (R8). -/
def crc32 : Generator := ⟨32, 0x04C11DB7⟩

/-- Bytes in a block of 128 bits (R8). -/
def blockBytes : Nat := 16

/-- Bytes that must remain for folding to engage: 2 blocks (R8, R173). -/
def engageBytes : Nat := 32

/-- Bytes that must remain for the 4-way phase: 8 blocks (R8, R173). -/
def fourWayBytes : Nat := 128

/-- The size of the buffer address space and one past the largest byte count, `2^64` (R9). -/
def top64 : Nat := 2 ^ 64

end Config

/-- The capability straps `CAP_CLMUL` and `CAP_VEC` as the platform drives them (R10, R34). -/
structure Straps where
  clmul : Bool
  vec : Bool
  deriving DecidableEq, Repr

end Sys2Proof
end

