-- ==== Sys2Proof/Machine/State.lean ====
section
/-! DEFINITION. The machine's state as plain data (spec/10_state.md), its reset value (spec/70_reset_and_hazards.md R281), and
the reasons a step can stop. -/

namespace Sys2Proof.Machine

/-- `STATUS.STREAM`, the StreamAccumulator's state (R31). -/
inductive Stream where
  | start
  | running
  | finalized
  | failed
  deriving DecidableEq, Repr

/-- `STATUS.SEL`, the CapabilityDispatcher's state (R32). -/
inductive Sel where
  | unresolved
  | fold
  | table
  deriving DecidableEq, Repr

/-- The causes of `Fail(code)`, codes 1 to 6 (R33, R241). `NONE`, code 0, is the absence of a cause. -/
inductive FailCode where
  | illcmd
  | badstate
  | nocap
  | overflow
  | range
  | buserr
  deriving DecidableEq, Repr

/-- `PHASE`, the sequencer's position inside an update command (R45). -/
inductive Phase where
  | idle
  | head
  | load0
  | loadK
  | fold4
  | collapse
  | fold1
  | reduce
  | tail8
  | tail1
  deriving DecidableEq, Repr

/-- The path an update command runs (glossary, "Mode"). -/
inductive Mode where
  | fold
  | table
  deriving DecidableEq, Repr

/-- The micro-operations the sequencer issues (R100). The ninth, `uLENB`, works on a local of `FINAL` (R211), not on State. -/
inductive MicroOp where
  | inj
  | step8
  | load0
  | loadK
  | fold4
  | collapse
  | fold1
  | reduce
  deriving DecidableEq, Repr

/-- The fourteen registers of the register map (R92). -/
inductive Reg where
  | cmd
  | status
  | crc
  | ptr
  | len
  | total
  | result
  | cap
  | k1lo
  | k1hi
  | k4lo
  | k4hi
  | mu
  | poly
  deriving DecidableEq, Repr

/-- One 128-bit accumulator (R40). `written` is the model's own mark: the running command has written it (U8, R178). -/
structure Acc where
  value : Vec128
  written : Bool
  deriving DecidableEq, Repr

/-- The buffer memory as CFE's bus port sees it (R61): the addresses that answer, with their bytes, in rising order. An
address that is not listed reports a read failure. -/
abbrev Memory := List Host.Cell

/-- One event from outside CFE. Transactions are R90's; `size` is the access size in bytes (R91). -/
inductive HostEvent where
  /-- `HostWrite(off, v)`. -/
  | write (off size : Nat) (v : Word64)
  /-- `HostRead(off)`. -/
  | read (off size : Nat)
  /-- The external reset, with the levels of the two straps it samples (R280, R281). -/
  | reset (straps : Straps)
  /-- Something outside CFE changes what one address answers (R74, R77); `none` makes it a read failure. -/
  | store (addr : Word64) (b : Option Byte)
  deriving DecidableEq, Repr

/-- The response of a transaction (R90). -/
inductive Reply where
  /-- `OK`, to a write. -/
  | ok
  /-- `OK(v)`, to a read. -/
  | data (v : Word64)
  /-- `ERROR`. -/
  | error
  deriving DecidableEq, Repr

/-- Why the machine stops. No step from a state whose `PHASE` is `IDLE` stops; every constructor is safe. -/
inductive Fault where
  /-- A micro-operation reads accumulator `k`, which its command has not written (R281, U8). Raised by `uFOLD4`,
  `uCOLLAPSE`, `uFOLD1`, `uREDUCE`. Safe: the spec gives such a read the outcome fault (D21 too). -/
  | accNotWritten (k : Nat)
  /-- A 16-, 48- or 64-byte read at a `PTR` that is no multiple of 16, "no defined behaviour to specify" (R66). Raised by
  `uLOAD0`, `uLOADK`, `uFOLD4`, `uFOLD1`. Safe: the machine stops. -/
  | misaligned (u : MicroOp)
  /-- A reading micro-operation issued with `LEN` below its rule's precondition (R144, R146, R168 to R172, R202). Raised by
  every reading micro-operation. Safe: the machine stops. -/
  | shortBuffer (u : MicroOp)
  /-- The sequencer has not reached `IDLE` in more rows than it can take (R176 says it terminates). Raised by running an
  update. Safe: the machine stops. -/
  | sequencerRunaway
  deriving DecidableEq, Repr

/-- Why an instruction has no meaning. -/
inductive Refusal where
  /-- The arm of exec that still rejects an instruction by name; no arm does. Safe: the machine stops. -/
  | notModelled (mnemonic : String)
  deriving DecidableEq, Repr

/-- The whole machine: every register of 10_state.md, the hidden state of R45 and R46, the capability register, the buffer
memory, and the model's view of the host port. -/
structure State where
  /-- `CRC` (R20). -/
  crc : Word32
  /-- `PTR` (R22). -/
  ptr : Word64
  /-- `LEN` (R23). -/
  len : Word64
  /-- `TOTAL` (R24). -/
  total : Word64
  /-- `RESULT` (R25). -/
  result : Word32
  /-- `STATUS.STREAM` (R31). -/
  stream : Stream
  /-- `STATUS.SEL` (R32). -/
  sel : Sel
  /-- `STATUS.ERR` (R33); `none` is `NONE`. -/
  err : Option FailCode
  /-- `CAP`, the straps sampled at reset (R34). -/
  cap : Straps
  /-- `ACC[0]` (R40). -/
  acc0 : Acc
  /-- `ACC[1]` (R40). -/
  acc1 : Acc
  /-- `ACC[2]` (R40). -/
  acc2 : Acc
  /-- `ACC[3]` (R40). -/
  acc3 : Acc
  /-- `FOUR` (R46). -/
  four : Bool
  /-- `PHASE` (R45). -/
  phase : Phase
  /-- `Mem` (R61). -/
  mem : Memory
  /-- The model's own: events the host has issued and CFE has not taken, oldest first. -/
  inbox : List HostEvent
  /-- The model's own: the response of the latest transaction, none before the first. -/
  reply : Option Reply
  deriving DecidableEq, Repr

/-- The state right after a reset that samples the given straps (R281). Memory and the host's queue are outside CFE and are
kept. DESIGN CHOICE (log 4): `ACC` and `FOUR`, which R281 leaves without a value, are 0 and not written. -/
def State.resetWith (straps : Straps) (mem : Memory) (inbox : List HostEvent) : State where
  crc := 0
  ptr := 0
  len := 0
  total := 0
  result := 0
  stream := .start
  sel := .unresolved
  err := none
  cap := straps
  acc0 := ⟨0, false⟩
  acc1 := ⟨0, false⟩
  acc2 := ⟨0, false⟩
  acc3 := ⟨0, false⟩
  four := false
  phase := .idle
  mem := mem
  inbox := inbox
  reply := none

/-- The machine right after reset (R281): no byte of memory listed, no host event pending. DESIGN CHOICE (log 3): both straps
are high, the setting 95_test_vectors.md part 8 starts from. -/
def State.reset : State := State.resetWith ⟨true, true⟩ [] []

/-- What one micro-operation does: it completes, it raises `Fail(code)` with all its writes discarded (R15, R243), or it
stops the model. -/
inductive Micro where
  | done (s : State)
  | fail (code : FailCode)
  | fault (f : Fault)
  deriving DecidableEq, Repr

end Sys2Proof.Machine
end

