-- ==== Sys2Proof/Machine/Constants.lean ====
section
/-! DEFINITION. PolynomialConstants (spec/40_constants.md): reduction modulo P, XpowMod, mu, the carry-less product of naturals,
and the constant ROM. All arithmetic is on unbounded naturals with explicit narrowing (R130). -/

namespace Sys2Proof.Machine

/-- The number of bits of `a`: `bitlength(a) − 1` is the degree of `a` read as a polynomial (R121). -/
def bitlength (a : Nat) : Nat := if a = 0 then 0 else a.log2 + 1

/-- The loop of `polymod` (R121), at most `n` turns. -/
def polymodLoop (g : Generator) : Nat → Nat → Nat
  | 0, a => a
  | n + 1, a =>
    if g.width < bitlength a then polymodLoop g n (a ^^^ (g.poly <<< (bitlength a - 1 - g.width))) else a

/-- `a mod P` by GF(2) long division (R121). Each turn lowers the degree, so `bitlength a` turns are enough. -/
def polymod (g : Generator) (a : Nat) : Nat := polymodLoop g (bitlength a) a

/-- One degree more: the doubling with conditional XOR of R122. -/
def xpowStep (g : Generator) (v : Nat) : Nat :=
  if v.testBit (g.width - 1) then ((v <<< 1) % 2 ^ g.width) ^^^ g.polyNoTop else (v <<< 1) % 2 ^ g.width

/-- `n` more degrees (R122). -/
def xpowLoop (g : Generator) : Nat → Nat → Nat
  | 0, v => v
  | n + 1, v => xpowLoop g n (xpowStep g v)

/-- `XpowMod(e)`, the remainder of `x^e` modulo `P` (R122). -/
def xpowMod (g : Generator) (e : Nat) : Nat :=
  if e < g.width then 1 <<< e else xpowLoop g (e - g.width) g.polyNoTop

/-- The loop of `Mu` (R126) on the pair of remainder and quotient, at most `n` turns. -/
def muLoop (g : Generator) : Nat → Nat → Nat → Nat × Nat
  | 0, rem, q => (rem, q)
  | n + 1, rem, q =>
    if g.width < bitlength rem then
      muLoop g n (rem ^^^ (g.poly <<< (bitlength rem - 1 - g.width))) (q ||| (1 <<< (bitlength rem - 1 - g.width)))
    else (rem, q)

/-- The division of `x^(2·width)` by `P`: final remainder and quotient (R126, the complete division of conflict C3). -/
def muDivision (g : Generator) : Nat × Nat := muLoop g (2 * g.width + 1) (1 <<< (2 * g.width)) 0

/-- `mu`, the quotient (R126). -/
def mu (g : Generator) : Nat := (muDivision g).2

/-- The derivation outside its domain is undefined and refused (R128, U1): no value. -/
def xpowModChecked (g : Generator) (e : Nat) : Option Nat := if g.inDomain then some (xpowMod g e) else none

/-- `mu` with the same refusal (R128, U1). -/
def muChecked (g : Generator) : Option Nat := if g.inDomain then some (mu g) else none

/-- The first `n` terms of the carry-less product: the XOR over `i < n` with `b[i] = 1` of `a << i` (R161). -/
def gfMulTerms (a b : Nat) : Nat → Nat
  | 0 => 0
  | n + 1 => gfMulTerms a b n ^^^ (if b.testBit n then a <<< n else 0)

/-- The carry-less product `a ⊗ b` of naturals of any width (R12, R161). -/
def gfMul (a b : Nat) : Nat := gfMulTerms a b (bitlength b)

/-! The constant ROM of CFE (R35, R36, R37, R42). -/

/-- `K1LO` (R124). -/
def k1lo : Word64 := BitVec.ofNat 64 (xpowMod Config.crc32 128)

/-- `K1HI` (R124). -/
def k1hi : Word64 := BitVec.ofNat 64 (xpowMod Config.crc32 (128 + 64))

/-- `K4LO` (R125). -/
def k4lo : Word64 := BitVec.ofNat 64 (xpowMod Config.crc32 512)

/-- `K4HI` (R125). -/
def k4hi : Word64 := BitVec.ofNat 64 (xpowMod Config.crc32 (512 + 64))

/-- `MU`: read back by the host, used by nothing else (R36, R127). -/
def muWord : Word64 := BitVec.ofNat 64 (mu Config.crc32)

/-- `POLY`: `polyNoTop` in bits 31:0, `W` in bits 39:32 (R37). -/
def polyWord : Word64 := BitVec.ofNat 64 (Config.crc32.polyNoTop + Config.crc32.width * 2 ^ 32)

end Sys2Proof.Machine
end

