-- ==== Sys2Proof/Machine/Ops.lean ====
section
/-! DEFINITION. The named operations over memory and registers: bytes and their two readings (spec/00_scope.md R14), the buffer
memory (spec/20_memory.md R60, R61), the register updates the meanings are built of, and `Fail(code)` with the way out of it
(spec/60_exceptions.md R243, R253). -/

namespace Sys2Proof.Machine

/-! ## Bytes -/

/-- `BE(bytes)`: the most significant byte is element 0 (R14). -/
def be (bs : List Byte) : Nat := bs.foldl (fun v b => v * 256 + b.toNat) 0

/-- `LE(bytes)`: the least significant byte is element 0 (R14). -/
def le : List Byte → Nat
  | [] => 0
  | b :: bs => b.toNat + 256 * le bs

/-! ## Buffer memory -/

namespace Memory

/-- What one address answers; `none` is a bus read failure (R61). No address at or above `2^64` exists (R60). -/
def get : Memory → Nat → Option Byte
  | [], _ => none
  | (a, b) :: m, x => if x = a then some b else get m x

/-- Make one address answer a byte. -/
def put : Memory → Nat → Byte → Memory
  | [], x, v => [(x, v)]
  | (a, b) :: m, x, v =>
    if x < a then (x, v) :: (a, b) :: m else if x = a then (x, v) :: m else (a, b) :: put m x v

/-- Make one address a read failure. -/
def drop : Memory → Nat → Memory
  | [], _ => []
  | (a, b) :: m, x => if x = a then m else (a, b) :: drop m x

/-- Change what one address answers. -/
def set (m : Memory) (x : Nat) : Option Byte → Memory
  | some v => put m x v
  | none => drop m x

/-- Every address of the list lies above `x`. -/
def above (x : Nat) : Memory → Bool
  | [] => true
  | (a, _) :: m => decide (x < a) && above x m

/-- The canonical form: addresses strictly rising, each inside the 64-bit address space (R60). An unlisted address reads as a
failure, which no entry can equal, so equal memories are equal lists. -/
def wf : Memory → Bool
  | [] => true
  | (a, _) :: m => decide (a < Config.top64) && above a m && wf m

end Memory

/-- `MemRead(addr, n)`: the `n` bytes from `addr` up, or `none` if any of them fails (R14). CFE has no `MemWrite` (R62). -/
def memRead (m : Memory) (addr : Nat) : Nat → Option (List Byte)
  | 0 => some []
  | n + 1 =>
    match Memory.get m addr, memRead m (addr + 1) n with
    | some b, some bs => some (b :: bs)
    | _, _ => none

/-! ## Register updates -/

namespace State

/-- `CRC <- v`. -/
def setCrc (s : State) (v : Word32) : State := { s with crc := v }

/-- `PTR <- v` (R22). -/
def setPtr (s : State) (v : Word64) : State := { s with ptr := v }

/-- `LEN <- v` (R23). -/
def setLen (s : State) (v : Word64) : State := { s with len := v }

/-- `PTR <- PTR + k; LEN <- LEN − k`: the post-increment of a read of `k` bytes (R22, R23, D29). -/
def advance (s : State) (k : Word64) : State := { s with ptr := s.ptr + k, len := s.len - k }

/-- `SEL <- v` (R203). -/
def setSel (s : State) (v : Sel) : State := { s with sel := v }

/-- `TOTAL <- TOTAL + k; STREAM <- Running` (R206, R207). -/
def count (s : State) (k : Word64) : State := { s with total := s.total + k, stream := .running }

/-- `RESULT <- v; STREAM <- Finalized` (R210). -/
def finish (s : State) (v : Word32) : State := { s with result := v, stream := .finalized }

/-- `PHASE <- p` (R13). -/
def setPhase (s : State) (p : Phase) : State := { s with phase := p }

/-- `FOUR <- b` (R46). -/
def setFour (s : State) (b : Bool) : State := { s with four := b }

/-- `ACC[0] <- v`. -/
def setAcc0 (s : State) (v : Vec128) : State := { s with acc0 := ⟨v, true⟩ }

/-- `ACC[1] <- v1; ACC[2] <- v2; ACC[3] <- v3`. -/
def setAcc123 (s : State) (v1 v2 v3 : Vec128) : State :=
  { s with acc1 := ⟨v1, true⟩, acc2 := ⟨v2, true⟩, acc3 := ⟨v3, true⟩ }

/-- The model's bookkeeping at the start of an update: its command has written no accumulator yet (R178, U8). The values
stay (R40). -/
def forgetAccs (s : State) : State :=
  { s with acc0 := ⟨s.acc0.value, false⟩, acc1 := ⟨s.acc1.value, false⟩,
           acc2 := ⟨s.acc2.value, false⟩, acc3 := ⟨s.acc3.value, false⟩ }

/-- The response of the host port (R90). -/
def setReply (s : State) (r : Reply) : State := { s with reply := some r }

/-- The queue of pending host events. -/
def setInbox (s : State) (q : List HostEvent) : State := { s with inbox := q }

/-- Something outside CFE changes what an address answers (R74, R77). -/
def storeByte (s : State) (addr : Word64) (b : Option Byte) : State := { s with mem := s.mem.set addr.toNat b }

/-! ## The one exception mechanism, and the way out -/

/-- `Fail(code)` entry (R243) on the state in which the failing step began, so that its writes are discarded: `STREAM` becomes
`Failed`, `ERR` the code, `PHASE` `IDLE`, and nothing else changes. Nothing is saved and control goes nowhere (R240). -/
def fail (s : State) (code : FailCode) : State :=
  { s with stream := .failed, err := some code, phase := .idle }

/-- The start of a stream, which is also the only way out of `Failed` but reset (R205, R253): it restores nothing. -/
def startStream (s : State) : State :=
  { s with crc := 0, total := 0, result := 0, err := none, stream := .start }

/-- The external reset (R280, R281): every register at its reset value; memory and the pending host events are outside CFE. -/
def applyReset (s : State) (straps : Straps) : State := State.resetWith straps s.mem s.inbox

end State

/-- Commands in `Failed` are ignored: no state changes (R200 step 1, R201, R244). -/
def unlessFailed (s : State) (run : Host.Outcome State Fault Refusal) : Host.Outcome State Fault Refusal :=
  match s.stream with
  | .failed => .next s
  | .start => run
  | .running => run
  | .finalized => run

/-- A command check that failed: `Fail(code)` is the command's next state (R243). -/
def raise (s : State) (code : FailCode) : Host.Outcome State Fault Refusal := .next (s.fail code)

end Sys2Proof.Machine
end

