-- ==== Sys2Proof/Machine/Flags.lean ====
section
/-! DEFINITION. `STATUS`, the only place CFE has flags (spec/10_state.md R31 to R33, R38), and `CAP` (R34). -/

namespace Sys2Proof.Machine

/-- The encoding of `STREAM` (R31). -/
def Stream.code : Stream → BitVec 2
  | .start => 0
  | .running => 1
  | .finalized => 2
  | .failed => 3

/-- The encoding of `SEL` (R32). -/
def Sel.code : Sel → BitVec 2
  | .unresolved => 0
  | .fold => 1
  | .table => 2

/-- The code of a cause (R33, R241). -/
def FailCode.code : FailCode → BitVec 4
  | .illcmd => 1
  | .badstate => 2
  | .nocap => 3
  | .overflow => 4
  | .range => 5
  | .buserr => 6

/-- The encoding of `ERR` (R33): 0 is `NONE`. -/
def errCode : Option FailCode → BitVec 4
  | none => 0
  | some c => c.code

/-- `STATUS` as read: `{ERR[3:0], SEL[1:0], STREAM[1:0]}` (R38). -/
def State.status (s : State) : BitVec 8 := errCode s.err ++ s.sel.code ++ s.stream.code

/-- `CAP` as read: bit 0 `CLMUL`, bit 1 `VEC` (R34). -/
def State.capWord (s : State) : BitVec 2 := BitVec.ofBool s.cap.vec ++ BitVec.ofBool s.cap.clmul

/-- Fold capability: `CAP.CLMUL ∧ CAP.VEC` (R34). -/
def State.foldCapable (s : State) : Bool := s.cap.clmul && s.cap.vec

/-- The state of a dispatcher resolved to a mode (R32). -/
def Mode.sel : Mode → Sel
  | .fold => .fold
  | .table => .table

/-- The mode `Resolve()` answers (R203): the memo if there is one, else what the capability flags say. -/
def State.resolvedMode (s : State) : Mode :=
  match s.sel with
  | .unresolved => if s.foldCapable then .fold else .table
  | .fold => .fold
  | .table => .table

/-- The state after `Resolve()` (R203): the first use memoizes, a later use writes what `SEL` already holds. -/
def State.resolve (s : State) : State := s.setSel s.resolvedMode.sel

end Sys2Proof.Machine
end

