-- ==== Sys2Proof/Machine/Operands.lean ====
section
/-! DEFINITION. The operands of commands and micro-operations: the register map's offsets and widths (spec/30_encoding.md R91 to
R93), the checks on `PTR`, `LEN`, `TOTAL` (spec/60_exceptions.md R247, R248), and the read ranges of the micro-operations
(spec/20_memory.md R66, R72). -/

namespace Sys2Proof.Machine

/-! ## The register map -/

/-- The offset of a register (R92). -/
def Reg.offset : Reg → Nat
  | .cmd => 0x00
  | .status => 0x08
  | .crc => 0x10
  | .ptr => 0x18
  | .len => 0x20
  | .total => 0x28
  | .result => 0x30
  | .cap => 0x38
  | .k1lo => 0x40
  | .k1hi => 0x48
  | .k4lo => 0x50
  | .k4hi => 0x58
  | .mu => 0x60
  | .poly => 0x68

/-- The fourteen registers, in the map's order (R92). -/
def Reg.all : List Reg :=
  [.cmd, .status, .crc, .ptr, .len, .total, .result, .cap, .k1lo, .k1hi, .k4lo, .k4hi, .mu, .poly]

/-- The number of implemented low bits (R92). -/
def Reg.width : Reg → Nat
  | .cmd => 32
  | .status => 8
  | .crc => 32
  | .ptr => 64
  | .len => 64
  | .total => 64
  | .result => 32
  | .cap => 2
  | .k1lo => 64
  | .k1hi => 64
  | .k4lo => 64
  | .k4hi => 64
  | .mu => 33
  | .poly => 40

/-- The register an access selects: 8 bytes at one of the fourteen offsets, nothing else (R91). -/
def selectReg (off size : Nat) : Option Reg :=
  if size = 8 then Reg.all.find? (fun r => decide (r.offset = off)) else none

/-! ## Command checks -/

/-- `STREAM = Finalized`, the condition of `BADSTATE` (R246). -/
def State.isFinalized (s : State) : Bool := decide (s.stream = .finalized)

/-- `TOTAL + k > 2^64 − 1` in unbounded naturals (R247). -/
def State.overflows (s : State) (k : Nat) : Bool := decide (Config.top64 - 1 < s.total.toNat + k)

/-- `PTR + LEN > 2^64` in unbounded naturals (R248). -/
def State.outOfRange (s : State) : Bool := decide (Config.top64 < s.ptr.toNat + s.len.toNat)

/-! ## Read ranges of the micro-operations -/

/-- Bytes a micro-operation reads from `PTR` up (R72); `uCOLLAPSE` and `uREDUCE` read none (R171, R175). -/
def MicroOp.readBytes : MicroOp → Nat
  | .inj => 1
  | .step8 => 8
  | .load0 => 16
  | .loadK => 48
  | .fold4 => 64
  | .collapse => 0
  | .fold1 => 16
  | .reduce => 0

/-- The least `LEN` a micro-operation's rule allows (R144, R146, R168 to R172). -/
def MicroOp.minLen : MicroOp → Nat
  | .inj => 1
  | .step8 => 8
  | .load0 => 32
  | .loadK => 112
  | .fold4 => 64
  | .collapse => 0
  | .fold1 => 16
  | .reduce => 0

/-- The reads that are issued at multiples of 16 only (R66). -/
def MicroOp.wide : MicroOp → Bool
  | .inj => false
  | .step8 => false
  | .load0 => true
  | .loadK => true
  | .fold4 => true
  | .collapse => false
  | .fold1 => true
  | .reduce => false

/-- The preconditions of a micro-operation (R66, R202): outside them the spec gives no behaviour, and the model stops. -/
def issue (u : MicroOp) (s : State) (run : Micro) : Micro :=
  if s.len.toNat < u.minLen then .fault (.shortBuffer u)
  else if u.wide ∧ s.ptr.toNat % Config.blockBytes ≠ 0 then .fault (.misaligned u)
  else run

/-- A read that fails makes the whole micro-operation fail with `BUSERR` (R72, R249). -/
def onRead {α : Type} (got : Option α) (run : α → Micro) : Micro :=
  match got with
  | none => .fail .buserr
  | some x => run x

/-- The value of accumulator `k`, if the running command has written it. If it has not, the spec says that the machine stops: "a
model gives a read of them the outcome fault" (R281), "`fault` on read-before-write" (U8), D21. No command comes here (R178). -/
def onAcc (k : Nat) (a : Acc) (run : Vec128 → Micro) : Micro :=
  if a.written then run a.value else .fault (.accNotWritten k)

/-! ## Narrowing of host data -/

/-- The low 32 bits of host data, what `CMD` and `CRC` receive (R93, R95). -/
def low32 (v : Word64) : Word32 := v.setWidth 32

end Sys2Proof.Machine
end

