-- ==== Sys2Proof/Machine/TableEngine.lean ====
section
/-! DEFINITION. ByteTableEngine (spec/41_table_engine.md): the eight tables, the one-byte and eight-byte steps, a block of
bytes, and the micro-operations `uINJ` and `uSTEP8`. -/

namespace Sys2Proof.Machine

/-- `polyNoTop` as a register value (R8). -/
def polyReg : Word32 := BitVec.ofNat 32 Config.crc32.polyNoTop

/-- One turn of R141's loop: shift left one place within 32 bits, and XOR the polynomial if bit 31 left. -/
def crcShift (v : Word32) : Word32 := if v.msb then (v <<< 1) ^^^ polyReg else v <<< 1

/-- `n` turns of it. -/
def crcShifts : Nat → Word32 → Word32
  | 0, v => v
  | n + 1, v => crcShifts n (crcShift v)

/-- `TABLE[0][b]`: the byte at the top of the register, shifted out in 8 turns (R141). -/
def table0 (b : Byte) : Word32 := crcShifts 8 (b.setWidth 32 <<< 24)

/-- `update_one_byte(crc, b)` (R143). -/
def updateOneByte (crc : Word32) (b : Byte) : Word32 := (crc <<< 8) ^^^ table0 (crc.extractLsb' 24 8 ^^^ b)

/-- `TABLE[k][b]`, `k = 0..7`: one zero-byte update per further table (R142). -/
def table : Nat → Byte → Word32
  | 0, b => table0 b
  | k + 1, b => updateOneByte (table k b) 0

/-- The eight lookups of R145 on the combined word `w`. -/
def lookup8 (w : Word64) : Word32 :=
  table 7 (w.extractLsb' 56 8) ^^^ table 6 (w.extractLsb' 48 8) ^^^ table 5 (w.extractLsb' 40 8) ^^^
  table 4 (w.extractLsb' 32 8) ^^^ table 3 (w.extractLsb' 24 8) ^^^ table 2 (w.extractLsb' 16 8) ^^^
  table 1 (w.extractLsb' 8 8) ^^^ table 0 (w.extractLsb' 0 8)

/-- `Step8(crc, [b0..b7])`: the bytes as a big-endian word, the register over its first four bytes (R67, R145). -/
def step8 (crc : Word32) (bs : List Byte) : Word32 :=
  lookup8 (BitVec.ofNat 64 (be bs) ^^^ (crc.setWidth 64 <<< 32))

/-- `update_block(crc, bytes, n)`: eight bytes a step while eight remain, then one at a time (R147). -/
def updateBlock : Word32 → List Byte → Word32
  | crc, b0 :: b1 :: b2 :: b3 :: b4 :: b5 :: b6 :: b7 :: rest =>
    updateBlock (step8 crc [b0, b1, b2, b3, b4, b5, b6, b7]) rest
  | crc, b :: rest => updateBlock (updateOneByte crc b) rest
  | crc, [] => crc

/-- `uINJ`: inject one byte from memory (R144). -/
def uINJ (s : State) : Micro :=
  issue .inj s <|
  onRead (memRead s.mem s.ptr.toNat 1) fun bs =>
  .done ((s.setCrc (updateOneByte s.crc (bs.headD 0))).advance 1)

/-- `uSTEP8`: inject eight bytes from memory (R146). -/
def uSTEP8 (s : State) : Micro :=
  issue .step8 s <|
  onRead (memRead s.mem s.ptr.toNat 8) fun bs =>
  .done ((s.setCrc (step8 s.crc bs)).advance 8)

end Sys2Proof.Machine
end

