-- ==== Sys2Proof/Machine/Stream.lean ====
section
/-! DEFINITION. The commands of the StreamAccumulator that read no memory: `NOP`, `INIT`, `INJB`, `FINAL` and its
micro-operation `uLENB` (spec/43_commands.md R204 to R206, R210, R211). -/

namespace Sys2Proof.Machine

/-- `NOP` (R204): nothing, in every state. -/
def execNop (s : State) : Host.Outcome State Fault Refusal := .next s

/-- `INIT` (R205): accepted in every state, `Failed` included. -/
def execInit (s : State) : Host.Outcome State Fault Refusal := .next s.startStream

/-- `INJB imm8` (R206): `BADSTATE`, then `OVERFLOW`, then one byte through `update_one_byte`, counted. -/
def execInjb (imm8 : Byte) (s : State) : Host.Outcome State Fault Refusal :=
  unlessFailed s <|
  if s.isFinalized then raise s .badstate
  else if s.overflows 1 then raise s .overflow
  else .next ((s.setCrc (updateOneByte s.crc imm8)).count 1)

/-- `uLENB` (R211) on the pair of `FINAL`'s local `L` and `CRC`. -/
def uLENB (p : Word64 × Word32) : Word64 × Word32 := (p.1 >>> 8, updateOneByte p.2 (p.1.extractLsb' 0 8))

/-- `while L ≠ 0: uLENB`, at most `n` turns (R210). -/
def lengthLoop : Nat → Word64 × Word32 → Word64 × Word32
  | 0, p => p
  | n + 1, p => if p.1 = 0 then p else lengthLoop n (uLENB p)

/-- `CRC` with the byte count folded in (R210): `L` has 64 bits, so at most eight turns run. -/
def foldLength (total : Word64) (crc : Word32) : Word32 := (lengthLoop 8 (total, crc)).2

/-- `FINAL` (R210): `BADSTATE`, else the length bytes, then `RESULT <- ~CRC`; `CRC` keeps the uncomplemented value. -/
def execFinal (s : State) : Host.Outcome State Fault Refusal :=
  unlessFailed s <|
  if s.isFinalized then raise s .badstate
  else .next ((s.setCrc (foldLength s.total s.crc)).finish (~~~ foldLength s.total s.crc))

end Sys2Proof.Machine
end

