-- ==== Sys2Proof/Machine/FoldEngine.lean ====
section
/-! DEFINITION. FoldEngine (spec/42_fold_engine.md R160 to R175): the datapath primitives, the fold function, and the
micro-operations `uLOAD0`, `uLOADK`, `uFOLD4`, `uCOLLAPSE`, `uFOLD1`, `uREDUCE`. -/

namespace Sys2Proof.Machine

/-! ## Datapath primitives -/

/-- The first `n` terms of the carry-less product: the XOR over `i < n` with `b[i] = 1` of `a << i` (R161). -/
def clmulTerms (a b : Word64) : Nat → Vec128
  | 0 => 0
  | n + 1 => clmulTerms a b n ^^^ (if b.getLsbD n then a.setWidth 128 <<< n else 0)

/-- `clmul64(a, b)`: 64 × 64 → 128 bits, multiplication without carry propagation (R161). -/
def clmul64 (a b : Word64) : Vec128 := clmulTerms a b 64

/-- The sixteen bytes of a vector in lane order: byte `i` is bits `8i+7:8i` (R163, glossary "Lane order"). -/
def laneBytes (v : Vec128) : List Byte := (List.range 16).map fun i => v.extractLsb' (8 * i) 8

/-- `brev128(v)`: byte `i` of the result is byte `15 − i` of `v` (R164). -/
def brev128 (v : Vec128) : Vec128 := BitVec.ofNat 128 (le (laneBytes v).reverse)

/-- `LaneLoad(a) = LE(MemRead(a, 16))` (R163). -/
def laneLoad (m : Memory) (addr : Nat) : Option Vec128 :=
  (memRead m addr 16).map fun bs => BitVec.ofNat 128 (le bs)

/-- `LoadBlock(a) = brev128(LaneLoad(a))`: the explicit byte reversal on every load (R165, R68, R288). -/
def loadBlock (m : Memory) (addr : Nat) : Option Vec128 := (laneLoad m addr).map brev128

/-- `AccBytes(v)`: the lane-order store of `brev128(v)`, most significant byte first (R165). -/
def accBytes (v : Vec128) : List Byte := laneBytes (brev128 v)

/-! ## The fold function -/

/-- `Fold(A, K_lo, K_hi)`: the more significant half meets `K_hi`, the less significant half `K_lo` (R166, conflict C1). -/
def foldAcc (a : Vec128) (klo khi : Word64) : Vec128 :=
  clmul64 (a.extractLsb' 64 64) khi ^^^ clmul64 (a.extractLsb' 0 64) klo

/-- The fold forward by one block (R124, R167). -/
def foldK1 (a : Vec128) : Vec128 := foldAcc a k1lo k1hi

/-- The fold forward by four blocks (R125, R167). -/
def foldK4 (a : Vec128) : Vec128 := foldAcc a k4lo k4hi

/-! ## Micro-operations -/

/-- `uLOAD0` (R168): block 0 with the register over its first four bytes; `CRC` is cleared, `FOUR` records `LEN ≥ 128`. -/
def uLOAD0 (s : State) : Micro :=
  issue .load0 s <|
  onRead (loadBlock s.mem s.ptr.toNat) fun blk =>
  .done ((((s.setFour (decide (Config.fourWayBytes ≤ s.len.toNat))).setAcc0
    (blk ^^^ (s.crc.setWidth 128 <<< 96))).setCrc 0).advance 16)

/-- `uLOADK` (R169): blocks 1, 2 and 3 into their own accumulators. -/
def uLOADK (s : State) : Micro :=
  issue .loadK s <|
  onRead (loadBlock s.mem s.ptr.toNat) fun b1 =>
  onRead (loadBlock s.mem (s.ptr.toNat + 16)) fun b2 =>
  onRead (loadBlock s.mem (s.ptr.toNat + 32)) fun b3 =>
  .done ((s.setAcc123 b1 b2 b3).advance 48)

/-- `uFOLD4` (R170): each accumulator, on its own, folded by `K4` and XORed with its new block. -/
def uFOLD4 (s : State) : Micro :=
  issue .fold4 s <|
  onAcc 0 s.acc0 fun a0 => onAcc 1 s.acc1 fun a1 => onAcc 2 s.acc2 fun a2 => onAcc 3 s.acc3 fun a3 =>
  onRead (loadBlock s.mem s.ptr.toNat) fun b0 =>
  onRead (loadBlock s.mem (s.ptr.toNat + 16)) fun b1 =>
  onRead (loadBlock s.mem (s.ptr.toNat + 32)) fun b2 =>
  onRead (loadBlock s.mem (s.ptr.toNat + 48)) fun b3 =>
  .done (((s.setAcc0 (foldK4 a0 ^^^ b0)).setAcc123 (foldK4 a1 ^^^ b1) (foldK4 a2 ^^^ b2) (foldK4 a3 ^^^ b3)).advance 64)

/-- `uCOLLAPSE` (R171): three sequential folds by `K1`, each into the next accumulator; the result is copied to `ACC[0]`. -/
def uCOLLAPSE (s : State) : Micro :=
  issue .collapse s <|
  onAcc 0 s.acc0 fun a0 => onAcc 1 s.acc1 fun a1 => onAcc 2 s.acc2 fun a2 => onAcc 3 s.acc3 fun a3 =>
  let c1 := foldK1 a0 ^^^ a1
  let c2 := foldK1 c1 ^^^ a2
  let c3 := foldK1 c2 ^^^ a3
  .done (((s.setAcc123 c1 c2 c3).setAcc0 c3).setFour false)

/-- `uFOLD1` (R172): the single accumulator forward by one block, XORed with the next block. -/
def uFOLD1 (s : State) : Micro :=
  issue .fold1 s <|
  onAcc 0 s.acc0 fun a0 =>
  onRead (loadBlock s.mem s.ptr.toNat) fun blk =>
  .done ((s.setAcc0 (foldK1 a0 ^^^ blk)).advance 16)

/-- `uREDUCE` (R175): the accumulator's sixteen bytes through the table engine, from a zero register. -/
def uREDUCE (s : State) : Micro :=
  issue .reduce s <|
  onAcc 0 s.acc0 fun a0 =>
  .done (s.setCrc (updateBlock 0 (accBytes a0)))

end Sys2Proof.Machine
end

