-- ==== Sys2Proof/Machine/Sequencer.lean ====
section
/-! DEFINITION. The sequencer: the transition table (spec/42_fold_engine.md R176) and the same as a program (R177). -/

namespace Sys2Proof.Machine

/-- One micro-operation (R100). -/
def runMicro : MicroOp → State → Micro
  | .inj, s => uINJ s
  | .step8, s => uSTEP8 s
  | .load0, s => uLOAD0 s
  | .loadK, s => uLOADK s
  | .fold4, s => uFOLD4 s
  | .collapse, s => uCOLLAPSE s
  | .fold1, s => uFOLD1 s
  | .reduce, s => uREDUCE s

/-! ## The transition table -/

/-- One row's answer: the micro-operation it issues, if any, and the next `PHASE` from the state after it. -/
structure SeqRow where
  micro : Option MicroOp
  next : State → Phase

/-- The row of R176 that a state takes: the first of its phase's rows whose condition holds. -/
def seqRow (s : State) : SeqRow :=
  match s.phase with
  | .idle => ⟨none, fun _ => .idle⟩
  | .head =>
    if s.ptr.toNat % Config.blockBytes ≠ 0 ∧ 1 ≤ s.len.toNat then ⟨some .inj, fun _ => .head⟩
    else if Config.engageBytes ≤ s.len.toNat then ⟨none, fun _ => .load0⟩
    else ⟨none, fun _ => .tail8⟩
  | .load0 => ⟨some .load0, fun t => if t.four then .loadK else .fold1⟩
  | .loadK => ⟨some .loadK, fun _ => .fold4⟩
  | .fold4 => if 64 ≤ s.len.toNat then ⟨some .fold4, fun _ => .fold4⟩ else ⟨none, fun _ => .collapse⟩
  | .collapse => ⟨some .collapse, fun _ => .fold1⟩
  | .fold1 => if 16 ≤ s.len.toNat then ⟨some .fold1, fun _ => .fold1⟩ else ⟨none, fun _ => .reduce⟩
  | .reduce => ⟨some .reduce, fun _ => .tail8⟩
  | .tail8 => if 8 ≤ s.len.toNat then ⟨some .step8, fun _ => .tail8⟩ else ⟨none, fun _ => .tail1⟩
  | .tail1 => if 1 ≤ s.len.toNat then ⟨some .inj, fun _ => .tail1⟩ else ⟨none, fun _ => .idle⟩

/-- Take one row: run its micro-operation and move `PHASE`. A `Fail` ends the command with `PHASE <- IDLE` (R243). -/
def seqStep (s : State) : Host.Outcome State Fault Refusal :=
  match (seqRow s).micro with
  | none => .next (s.setPhase ((seqRow s).next s))
  | some u =>
    match runMicro u s with
    | .done t => .next (t.setPhase ((seqRow s).next t))
    | .fail code => raise s code
    | .fault f => .fault f

/-- Rows until `PHASE` is `IDLE`, at most `n` of them. -/
def runSeq : Nat → State → Host.Outcome State Fault Refusal
  | 0, s => if s.phase = .idle then .next s else .fault .sequencerRunaway
  | n + 1, s =>
    if s.phase = .idle then .next s
    else
      match seqStep s with
      | .next t => runSeq n t
      | .fault f => .fault f
      | .refused r => .refused r

/-- The row "start" of R176. -/
def startPhase : Mode → Phase
  | .fold => .head
  | .table => .tail8

/-- `RunUpdate(m)`: the command's rows from the start row until it is complete. Every looping row lowers `LEN` (R176), and at
most nine rows of a command do not loop, so the bound on rows is never the end of a command. -/
def runUpdate (m : Mode) (s : State) : Host.Outcome State Fault Refusal :=
  runSeq (s.len.toNat + 16) ((s.forgetAccs).setPhase (startPhase m))

/-! ## The same as a program -/

/-- Where a run of R177's program stands: still going, ended by a `Fail`, or stopped. -/
inductive Progress where
  | going (s : State)
  | ended (s : State)
  | stopped (f : Fault)
  deriving DecidableEq, Repr

/-- The next statement of the program, if it is still going. -/
def Progress.andThen (p : Progress) (next : State → Progress) : Progress :=
  match p with
  | .going s => next s
  | .ended s => .ended s
  | .stopped f => .stopped f

/-- One micro-operation as a statement. -/
def doMicro (u : MicroOp) (s : State) : Progress :=
  match runMicro u s with
  | .done t => .going t
  | .fail code => .ended (s.fail code)
  | .fault f => .stopped f

/-- `while cond: u`, at most `n` turns. -/
def whileMicro (cond : State → Bool) (u : MicroOp) : Nat → State → Progress
  | 0, s => if cond s then .stopped .sequencerRunaway else .going s
  | n + 1, s => if cond s then (doMicro u s).andThen (whileMicro cond u n) else .going s

/-- `while LEN ≥ k: u`; each turn lowers `LEN`. -/
def whileLen (k : Nat) (u : MicroOp) (s : State) : Progress :=
  whileMicro (fun t => decide (k ≤ t.len.toNat)) u s.len.toNat s

/-- `if FOUR: uLOADK; while LEN ≥ 64: uFOLD4; uCOLLAPSE`. -/
def programFourWay (s : State) : Progress :=
  if s.four then
    ((doMicro .loadK s).andThen (whileLen 64 .fold4)).andThen (doMicro .collapse)
  else .going s

/-- The part of `RunUpdate(Fold)` before the tail. -/
def programFold (s : State) : Progress :=
  (whileMicro (fun t => decide (t.ptr.toNat % Config.blockBytes ≠ 0) && decide (1 ≤ t.len.toNat)) .inj s.len.toNat s).andThen
  fun t =>
    if Config.engageBytes ≤ t.len.toNat then
      (((doMicro .load0 t).andThen programFourWay).andThen (whileLen 16 .fold1)).andThen (doMicro .reduce)
    else .going t

/-- `RunUpdate(m)` as R177 writes it. -/
def programUpdate (m : Mode) (s : State) : Progress :=
  ((match m with
    | .fold => programFold s.forgetAccs
    | .table => .going s.forgetAccs).andThen (whileLen 8 .step8)).andThen (whileLen 1 .inj)

/-- The end of the command: `PHASE` is `IDLE` (R176, R243). -/
def Progress.outcome : Progress → Host.Outcome State Fault Refusal
  | .going s => .next (s.setPhase .idle)
  | .ended s => .next s
  | .stopped f => .fault f

end Sys2Proof.Machine
end

