-- ==== Sys2Proof/Machine/Update.lean ====
section
/-! DEFINITION. The three update commands (spec/43_commands.md R207 to R209). -/

namespace Sys2Proof.Machine

/-- The checks every update command ends with, `OVERFLOW` then `RANGE` (R207, R251), and, when they pass, the accepted
command: the count and `STREAM` first, then the sequencer in mode `m` (R207 steps 2 and 3). -/
def acceptUpdate (m : Mode) (s accepted : State) : Host.Outcome State Fault Refusal :=
  if s.overflows s.len.toNat then raise s .overflow
  else if s.outOfRange then raise s .range
  else runUpdate m (accepted.count s.len)

/-- `UPDATE` (R207): the dispatched engine; `Resolve` runs after the checks and may write `SEL`. -/
def execUpdate (s : State) : Host.Outcome State Fault Refusal :=
  unlessFailed s <|
  if s.isFinalized then raise s .badstate
  else acceptUpdate s.resolvedMode s s.resolve

/-- `UPD_TABLE` (R208): the table engine, whatever `SEL` and `CAP` say; `SEL` is neither read nor written. -/
def execUpdTable (s : State) : Host.Outcome State Fault Refusal :=
  unlessFailed s <|
  if s.isFinalized then raise s .badstate
  else acceptUpdate .table s s

/-- `UPD_FOLD` (R209): the fold engine, or `NOCAP` on a device without both capabilities; `SEL` is neither read nor written. -/
def execUpdFold (s : State) : Host.Outcome State Fault Refusal :=
  unlessFailed s <|
  if s.isFinalized then raise s .badstate
  else if ¬ s.foldCapable then raise s .nocap
  else acceptUpdate .fold s s

end Sys2Proof.Machine
end

