-- ==== Sys2Proof/Machine/Dispatch.lean ====
section
/-! DEFINITION. One arm per command (spec/43_commands.md R200 step 3). -/

namespace Sys2Proof.Machine

def exec (i : Instr) (s : State) : Host.Outcome State Fault Refusal :=
  match i with
  | .nop => Sys2Proof.Machine.execNop s
  | .init => Sys2Proof.Machine.execInit s
  | .injb imm8 => Sys2Proof.Machine.execInjb imm8 s
  | .update => Sys2Proof.Machine.execUpdate s
  | .updTable => Sys2Proof.Machine.execUpdTable s
  | .updFold => Sys2Proof.Machine.execUpdFold s
  | .finalize => Sys2Proof.Machine.execFinal s

end Sys2Proof.Machine
end

