-- ==== Sys2Proof/Machine/HostPort.lean ====
section
/-! DEFINITION. The host port: executing a command word (spec/43_commands.md R200), the register accesses (spec/30_encoding.md
R90 to R93, spec/10_state.md R20 to R38), and the other events from outside. -/

namespace Sys2Proof.Machine

/-- The exact word of `INIT`, the only one with an effect in `Failed` (R200, R244). -/
def initWord : Word32 := 0x00000001

/-- Executing a command word (R200), in its order: the test of `Failed`, legality, dispatch. -/
def executeWord (w : Word32) (s : State) : Host.Outcome State Fault Refusal :=
  match s.stream with
  | .failed => if w = initWord then exec .init s else .next s
  | .start | .running | .finalized =>
    match decode w with
    | .error _ => raise s .illcmd
    | .ok i => exec i s

/-- The value a read of a register answers; `none` is the response `ERROR` (R21, R25, R30, R34 to R38). -/
def readReg (r : Reg) (s : State) : Option Word64 :=
  match r with
  | .cmd => some 0
  | .status => some (s.status.setWidth 64)
  | .crc => if s.stream = .failed then none else some (s.crc.setWidth 64)
  | .ptr => some s.ptr
  | .len => some s.len
  | .total => some s.total
  | .result => if s.stream = .finalized then some (s.result.setWidth 64) else none
  | .cap => some (s.capWord.setWidth 64)
  | .k1lo => some k1lo
  | .k1hi => some k1hi
  | .k4lo => some k4lo
  | .k4hi => some k4hi
  | .mu => some muWord
  | .poly => some polyWord

/-- May the host write `CRC` now (R21)? -/
def crcWritable (s : State) : Bool := decide (s.stream = .start) || decide (s.stream = .running)

/-- The effect of a write to a register (R21, R22, R23, R30); read-only registers ignore it (R93). -/
def writeReg (r : Reg) (v : Word64) (s : State) : Host.Outcome State Fault Refusal :=
  match r with
  | .cmd => executeWord (low32 v) s
  | .crc => .next (if crcWritable s then s.setCrc (low32 v) else s)
  | .ptr => .next (s.setPtr v)
  | .len => .next (s.setLen v)
  | .status | .total | .result | .cap | .k1lo | .k1hi | .k4lo | .k4hi | .mu | .poly => .next s

/-- The response is given when all effects are complete (R90). -/
def thenReply (r : Reply) : Host.Outcome State Fault Refusal → Host.Outcome State Fault Refusal
  | .next s => .next (s.setReply r)
  | .fault f => .fault f
  | .refused f => .refused f

/-- `HostWrite(off, v)` of `size` bytes (R90, R91). -/
def hostWrite (off size : Nat) (v : Word64) (s : State) : Host.Outcome State Fault Refusal :=
  match selectReg off size with
  | none => .next (s.setReply .error)
  | some r => thenReply .ok (writeReg r v s)

/-- `HostRead(off)` of `size` bytes (R90, R91); a read changes nothing but the response. -/
def hostRead (off size : Nat) (s : State) : State :=
  match selectReg off size with
  | none => s.setReply .error
  | some r =>
    match readReg r s with
    | none => s.setReply .error
    | some v => s.setReply (.data v)

/-- One event from outside (R90, R280; log 2). -/
def hostEvent (e : HostEvent) (s : State) : Host.Outcome State Fault Refusal :=
  match e with
  | .write off size v => hostWrite off size v s
  | .read off size => .next (hostRead off size s)
  | .reset straps => .next (s.applyReset straps)
  | .store addr b => .next (s.storeByte addr b)

/-- Take the oldest pending event; with none pending CFE is "idle holding its registers" (R265; log 9). -/
def takeEvent (s : State) : Host.Outcome State Fault Refusal :=
  match s.inbox with
  | [] => .next s
  | e :: rest => hostEvent e (s.setInbox rest)

/-- The transaction that writes a command word to `CMD` (R30, R101). -/
def commandEvent (w : Word32) : HostEvent := .write Reg.cmd.offset 8 (w.setWidth 64)

end Sys2Proof.Machine
end

