-- ==== Sys2Proof/Machine/Step.lean ====
section
/-! DEFINITION. One step: a host event taken whole (spec/30_encoding.md R90), or, in a state inside a command, one row of the
sequencer (spec/42_fold_engine.md R176). -/

namespace Sys2Proof.Machine

/-- CFE between commands (`PHASE = IDLE`, R45) takes the host's next event. Commands run to completion inside their event, so
no step leaves another phase behind. From a state with another phase the running command goes on by one row (log 10). -/
def step (s : State) : Host.Outcome State Fault Refusal :=
  match s.phase with
  | .idle => takeEvent s
  | .head | .load0 | .loadK | .fold4 | .collapse | .fold1 | .reduce | .tail8 | .tail1 => seqStep s

/-- `s` with a command word as the next event of the host, and no command under way (log 11). -/
def State.withFetchWord (s : State) (nbits w : Nat) : State :=
  (s.setInbox (commandEvent (tableWord nbits w) :: s.inbox)).setPhase .idle

end Sys2Proof.Machine
end

