-- ==== Sys2Proof/Machine/Assembler.lean ====
section
/-! DEFINITION. Host programs: one transaction per line, and the pseudo-instructions (spec/30_encoding.md R101, R102); the bytes
a sequence of host events injects (spec/43_commands.md R212, R213). -/

namespace Sys2Proof.Machine

/-- One line of a host program (R101). -/
inductive HostLine where
  /-- `WR <reg>, <value>`. -/
  | wr (r : Reg) (v : Word64)
  /-- `RD <reg>`. -/
  | rd (r : Reg)
  /-- `<MNEMONIC> [<imm8>]`. -/
  | cmd (i : Instr)
  deriving DecidableEq, Repr

/-- The transaction of a line (R101). -/
def HostLine.event : HostLine → HostEvent
  | .wr r v => .write r.offset 8 v
  | .rd r => .read r.offset 8
  | .cmd i => commandEvent (encode i)

/-- The pseudo-instructions (R102). R102 gives the operand of `SEED` no width: 32 bits, zero-extended in the expansion, is the
model's choice (DESIGN CHOICE, safe, log 21). -/
inductive Pseudo where
  | upd (p n : Word64)
  | updt (p n : Word64)
  | updf (p n : Word64)
  | seed (c : Word32)
  | cksum (p n : Word64)
  | injs (bs : List Byte)
  deriving DecidableEq, Repr

/-- The expansion of a pseudo-instruction (R102). -/
def Pseudo.expand : Pseudo → List HostLine
  | .upd p n => [.wr .ptr p, .wr .len n, .cmd .update]
  | .updt p n => [.wr .ptr p, .wr .len n, .cmd .updTable]
  | .updf p n => [.wr .ptr p, .wr .len n, .cmd .updFold]
  | .seed c => [.wr .crc (c.setWidth 64)]
  | .cksum p n => [.cmd .init, .wr .ptr p, .wr .len n, .cmd .update, .cmd .finalize, .rd .result]
  | .injs bs => bs.map fun b => .cmd (.injb b)

/-- The transactions of a program. -/
def eventsOf (lines : List HostLine) : List HostEvent := lines.map HostLine.event

/-- What decides which bytes the next update injects: the straps, `PTR`, `LEN` and the buffer memory. -/
structure Cursor where
  cap : Straps
  ptr : Word64
  len : Word64
  mem : Memory
  deriving DecidableEq, Repr

/-- The cursor of a state. -/
def State.cursor (s : State) : Cursor := ⟨s.cap, s.ptr, s.len, s.mem⟩

/-- The bytes of an update's range, if it ends inside the address space (R248) and every one of them can be read (R249), and the
cursor after the update (R207). -/
def Cursor.update (c : Cursor) : Option (List Byte × Cursor) :=
  if c.ptr.toNat + c.len.toNat ≤ Config.top64 then
    (memRead c.mem c.ptr.toNat c.len.toNat).map fun bs => (bs, { c with ptr := c.ptr + c.len, len := 0 })
  else none

/-- The bytes a command injects into a stream that takes bytes, and the cursor after it: `none` where it fails (R248 to R250),
and for `INIT` and `FINAL`, which end the stream's reckoning. -/
def Cursor.command (i : Instr) (c : Cursor) : Option (List Byte × Cursor) :=
  match i with
  | .nop => some ([], c)
  | .injb b => some ([b], c)
  | .update => c.update
  | .updTable => c.update
  | .updFold => if c.cap.clmul && c.cap.vec then c.update else none
  | .init => none
  | .finalize => none

/-- The same for a command word: an illegal one fails (R245). -/
def Cursor.word (w : Word32) (c : Cursor) : Option (List Byte × Cursor) :=
  match decode w with
  | .ok i => c.command i
  | .error _ => none

/-- The same for a register write (R212: "no host write to `CRC`"). -/
def Cursor.write (r : Reg) (v : Word64) (c : Cursor) : Option (List Byte × Cursor) :=
  match r with
  | .cmd => c.word (low32 v)
  | .crc => none
  | .ptr => some ([], { c with ptr := v })
  | .len => some ([], { c with len := v })
  | .status | .total | .result | .cap | .k1lo | .k1hi | .k4lo | .k4hi | .mu | .poly => some ([], c)

/-- The same for any host event: reads and stores to the buffer inject nothing, and a reset ends the stream. -/
def Cursor.event (e : HostEvent) (c : Cursor) : Option (List Byte × Cursor) :=
  match e with
  | .read _ _ => some ([], c)
  | .reset _ => none
  | .store a b => some ([], { c with mem := c.mem.set a.toNat b })
  | .write off size v =>
    match selectReg off size with
    | some r => c.write r v
    | none => some ([], c)

/-- The bytes a sequence of host events injects, in order, if nothing in it fails or ends the stream: beside updates and `INJB`s,
`NOP`s, reads, other writes and stores to the buffer may stand in it, and an update may go on where the last one left `PTR`
(R212, R213, R283, R286 item 7). -/
def injectedBytes : List HostEvent → Cursor → Option (List Byte)
  | [], _ => some []
  | e :: q, c =>
    match c.event e with
    | some (bs, d) => (injectedBytes q d).map fun cs => bs ++ cs
    | none => none

end Sys2Proof.Machine
end

