-- ==== Sys2Proof/Machine/Checksum.lean ====
section
/-! DEFINITION. What the commands compute together, as functions of the message alone (spec/41_table_engine.md R148,
spec/43_commands.md R212): remainders of GF(2) division, with no table, accumulator or register in them. -/

namespace Sys2Proof.Machine

/-- The remainder of a register value followed by a message: `((crc << 8n) ^ (BE(M) << 32)) mod P` (R148). -/
def messageRemainder (crc : Word32) (m : List Byte) : Word32 :=
  BitVec.ofNat 32 (polymod Config.crc32 ((crc.toNat <<< (8 * m.length)) ^^^ (be m <<< 32)))

/-- `raw(M) = (BE(M) << 32) mod P` (R212). -/
def rawRemainder (m : List Byte) : Word32 := BitVec.ofNat 32 (polymod Config.crc32 (be m <<< 32))

/-- The loop of the minimal little-endian byte string, at most `fuel` bytes. -/
def lengthBytesLoop : Nat → Nat → List Byte
  | 0, _ => []
  | fuel + 1, n => if n = 0 then [] else BitVec.ofNat 8 n :: lengthBytesLoop fuel (n / 256)

/-- `Lb`, the minimal little-endian byte string of `n`, empty for 0 (R212). -/
def lengthBytes (n : Nat) : List Byte := lengthBytesLoop (bitlength n) n

/-- "The POSIX `cksum` 32-bit checksum" of a message: `~ ((BE(M ‖ Lb) << 32) mod P)` (R212). -/
def posixCksum (m : List Byte) : Word32 := ~~~ rawRemainder (m ++ lengthBytes m.length)

end Sys2Proof.Machine
end

