-- ==== Sys2Proof/Safety.lean ====
section
/-! DEFINITION. What claims about the machine are stated in: the invariant of the register file between commands, accepted
updates and how far a failing one gets, the allowed edges of `STREAM`, and what the accumulators stand for. -/

namespace Sys2Proof.Machine

/-- What holds between commands in every state a run from reset reaches. -/
structure State.Coherent (s : State) : Prop where
  /-- `PHASE` "is `IDLE` whenever the host can observe the block" (R45). -/
  idle : s.phase = .idle
  /-- The memory is in its canonical form, inside the 64-bit address space (R60). -/
  memory : s.mem.wf = true
  /-- `ERR` "is 0 whenever `STREAM ≠ Failed` and non-zero whenever `STREAM = Failed`" (R33). -/
  err_iff : s.err = none ↔ s.stream ≠ .failed
  /-- In `Finalized`, `CRC` is the length-folded, not yet complemented value of `RESULT` (R21, R25). -/
  finalized : s.stream = .finalized → s.result = ~~~ s.crc
  /-- `RESULT` is written only by `FINAL` and cleared by `INIT` (R25). -/
  unfinished : s.stream = .start ∨ s.stream = .running → s.result = 0
  /-- In `Start` no byte has been counted (R24, R282). -/
  fresh : s.stream = .start → s.total = 0
  /-- A resolved `SEL` is what the capability flags say (R203). -/
  resolved : s.sel = .unresolved ∨ s.sel = (if s.foldCapable then Sel.fold else Sel.table)

/-- `STREAM ∈ {Start, Running}`: the stream takes bytes (R201). -/
def State.takesBytes (s : State) : Bool := decide (s.stream = .start) || decide (s.stream = .running)

/-- `TOTAL + LEN ≤ 2^64 − 1` and `PTR + LEN ≤ 2^64`: no `OVERFLOW` and no `RANGE` (R247, R248). -/
def State.fits (s : State) : Prop :=
  s.total.toNat + s.len.toNat ≤ 2 ^ 64 - 1 ∧ s.ptr.toNat + s.len.toNat ≤ 2 ^ 64

/-- What an accepted `UPDATE`, `UPD_TABLE` or `UPD_FOLD` whose bytes `bs` can all be read leaves (R207, "End state when no
Fail"), hidden state (`ACC`, `FOUR`) apart (R181): every other field. `sel` is the value `SEL` ends with. -/
structure UpdateEnd (s : State) (bs : List Byte) (sel : Sel) (t : State) : Prop where
  crc : t.crc = updateBlock s.crc bs
  ptr : t.ptr = BitVec.ofNat 64 (s.ptr.toNat + s.len.toNat)
  len : t.len = 0
  total : t.total = BitVec.ofNat 64 (s.total.toNat + s.len.toNat)
  stream : t.stream = .running
  sel_eq : t.sel = sel
  result : t.result = s.result
  err : t.err = s.err
  cap : t.cap = s.cap
  phase : t.phase = .idle
  memory : ∀ a, t.mem.get a = s.mem.get a
  inbox : t.inbox = s.inbox
  reply : t.reply = s.reply

/-- What an accepted update that meets an unreadable byte leaves (R249, R252), hidden state apart: `c` bytes were consumed by
completed micro-operations, and a failing address lies within the next 64 bytes of the range. -/
structure BusErrorEnd (s : State) (sel : Sel) (c : Nat) (t : State) : Prop where
  within : c < s.len.toNat
  consumed : ∃ bs, memRead s.mem s.ptr.toNat c = some bs
  failing : ∃ a, t.ptr.toNat ≤ a ∧ a < t.ptr.toNat + min t.len.toNat 64 ∧ s.mem.get a = none
  ptr : t.ptr.toNat = s.ptr.toNat + c
  len : t.len.toNat = s.len.toNat - c
  total : t.total = BitVec.ofNat 64 (s.total.toNat + s.len.toNat)
  stream : t.stream = .failed
  err : t.err = some .buserr
  sel_eq : t.sel = sel
  result : t.result = s.result
  cap : t.cap = s.cap
  phase : t.phase = .idle
  memory : ∀ a, t.mem.get a = s.mem.get a
  inbox : t.inbox = s.inbox
  reply : t.reply = s.reply

/-- Two states agree on everything but the hidden `ACC` and `FOUR`, which nothing may rely on between commands (R40, R181), and
the buffer memory, which is not CFE state. -/
structure SameButHidden (s t : State) : Prop where
  crc : t.crc = s.crc
  ptr : t.ptr = s.ptr
  len : t.len = s.len
  total : t.total = s.total
  result : t.result = s.result
  stream : t.stream = s.stream
  sel : t.sel = s.sel
  err : t.err = s.err
  cap : t.cap = s.cap
  phase : t.phase = s.phase
  inbox : t.inbox = s.inbox
  reply : t.reply = s.reply

/-! ### How far a command gets before a byte that cannot be read (R177's counts, R252) -/

/-- The bytes each micro-operation of the tail consumes, of `n` bytes: `uSTEP8` while eight remain, then `uINJ`. -/
def tailBytes (n : Nat) : List Nat := List.replicate (n / 8) 8 ++ List.replicate (n % 8) 1

/-- The same from the one-accumulator phase on: `uFOLD1` while a block remains, then the tail. -/
def oneLaneBytes (n : Nat) : List Nat := List.replicate (n / 16) 16 ++ tailBytes (n % 16)

/-- The same from the four-accumulator phase on: `uFOLD4` while four blocks remain. -/
def fourLaneBytes (n : Nat) : List Nat := List.replicate (n / 64) 64 ++ oneLaneBytes (n % 64)

/-- The same from an aligned `PTR` on: `uLOAD0` when two blocks remain, and `uLOADK` when eight do. -/
def alignedBytes (n : Nat) : List Nat :=
  if n < 32 then tailBytes n
  else if n < 128 then 16 :: oneLaneBytes (n - 16)
  else 16 :: 48 :: fourLaneBytes (n - 64)

/-- `h`, the head length of a command in Fold mode (R177). -/
def headLength (p n : Nat) : Nat := min n ((16 - p % 16) % 16)

/-- The bytes each micro-operation of a command consumes, in order, with `PTR = p` and `LEN = n` at its start. -/
def microBytes : Mode → Nat → Nat → List Nat
  | .table, _, n => tailBytes n
  | .fold, p, n => List.replicate (headLength p n) 1 ++ alignedBytes (n - headLength p n)

/-- The bytes consumed by the micro-operations that complete, when byte `k` of the range is the first that cannot be read. -/
def completedBytes : List Nat → Nat → Nat
  | [], _ => 0
  | n :: ns, k => if k < n then 0 else n + completedBytes ns (k - n)

/-- After `c` consumed bytes, does a command in Fold mode stand between `uLOAD0` and `uREDUCE` (R252)? -/
def insideFold (p n c : Nat) : Prop :=
  32 ≤ n - headLength p n ∧ headLength p n < c ∧ c < headLength p n + (n - headLength p n) / 16 * 16

/-- The mode a command runs the sequencer in, if it runs it (R207 to R209). -/
def updateMode (i : Instr) (s : State) : Option Mode :=
  match i with
  | .update => some s.resolvedMode
  | .updTable => some .table
  | .updFold => some .fold
  | .nop | .init | .injb _ | .finalize => none

/-- The value `SEL` holds after an accepted update command (R207 to R209). -/
def selAfter (i : Instr) (s : State) : Sel :=
  match i with
  | .update => s.resolvedMode.sel
  | .updTable | .updFold | .nop | .init | .injb _ | .finalize => s.sel

/-- Does a command raise `BADSTATE` in `Finalized` (R246)? -/
def raisesBadState (i : Instr) : Bool :=
  match i with
  | .nop | .init => false
  | .injb _ | .update | .updTable | .updFold | .finalize => true

/-- A device that has what the command needs (R209, R250): `UPD_FOLD` needs both capabilities. -/
def hasCapability (i : Instr) (s : State) : Prop := i = .updFold → s.cap.clmul = true ∧ s.cap.vec = true

/-- `k` steps of the machine, stopping at the first fault or refusal. -/
def runSteps (k : Nat) (s : State) : Host.Outcome State Fault Refusal := Host.Core.run core k s

/-- The edges of `STREAM` (R201): may command `i` take it from `a` to `b`, its checks and its
reads deciding between an "ok" edge and a `Fail`? -/
def streamEdge (a : Stream) (i : Instr) (b : Stream) : Bool :=
  match i with
  | .nop => decide (b = a)
  | .init => decide (b = .start)
  | .injb _ | .update | .updTable | .updFold =>
    match a with
    | .start | .running => decide (b = .running) || decide (b = .failed)
    | .finalized | .failed => decide (b = .failed)
  | .finalize =>
    match a with
    | .start | .running => decide (b = .finalized)
    | .finalized | .failed => decide (b = .failed)

/-- One accumulator stands for the bytes `m`: `ACC[0] ≡ BE(m) (mod P)`, and `CRC` is zero (R179). -/
def OneLane (s : State) (m : List Byte) : Prop :=
  s.crc = 0 ∧ polymod Config.crc32 s.acc0.value.toNat = polymod Config.crc32 (be m)

/-- Four accumulators stand for the bytes `m` (R179). -/
def FourLane (s : State) (m : List Byte) : Prop :=
  s.crc = 0 ∧
  polymod Config.crc32
    ((s.acc0.value.toNat <<< 384) ^^^ (s.acc1.value.toNat <<< 256) ^^^ (s.acc2.value.toNat <<< 128) ^^^ s.acc3.value.toNat) =
  polymod Config.crc32 (be m)

/-- A message with a register value XORed big-endian into its first four bytes (R148, R179). -/
def seeded (crc : Word32) : List Byte → List Byte
  | b0 :: b1 :: b2 :: b3 :: rest =>
    (b0 ^^^ crc.extractLsb' 24 8) :: (b1 ^^^ crc.extractLsb' 16 8) :: (b2 ^^^ crc.extractLsb' 8 8) ::
      (b3 ^^^ crc.extractLsb' 0 8) :: rest
  | m => m

end Sys2Proof.Machine
end

