-- ==== Sys2Proof/Certificates/Slice0/Obligations.lean ====
section
/-! DEFINITION. The statements for the provers, from the numbered rules of spec/. -/

open Sys2Proof Sys2Proof.Machine

/-! ## Encoding (spec/30_encoding.md) -/

/-- R95, R97, R101: every command is well formed, and the decoder gives it back from its word, every immediate included. -/
def Obligations.DecodeOfEncodeIsTheCommand : Prop :=
  ∀ i : Instr, i.wellFormed = true ∧ decode (encode i) = .ok i

/-- R95, R97: a word that decodes is the encoding of what it decodes to, so each legal word has one meaning. -/
def Obligations.EncodeOfDecodeIsTheWord : Prop :=
  ∀ (w : Word32) (i : Instr), decode w = .ok i → encode i = w

/-- R97: a word selects a row's command exactly when `w & mask = match`. -/
def Obligations.OpcodeMapRowsSelectTheirCommand : Prop :=
  ∀ w : Word32,
    (w &&& 0xFFFFFFFF = 0x00000000 ↔ decode w = .ok .nop) ∧
    (w &&& 0xFFFFFFFF = 0x00000001 ↔ decode w = .ok .init) ∧
    (w &&& 0xFFFF00FF = 0x00000002 ↔ decode w = .ok (.injb (w.extractLsb' 8 8))) ∧
    (w &&& 0xFFFFFFFF = 0x00000003 ↔ decode w = .ok .update) ∧
    (w &&& 0xFFFFFFFF = 0x00000004 ↔ decode w = .ok .updTable) ∧
    (w &&& 0xFFFFFFFF = 0x00000005 ↔ decode w = .ok .updFold) ∧
    (w &&& 0xFFFFFFFF = 0x00000006 ↔ decode w = .ok .finalize)

/-- R98: the words that decode are exactly the legal ones, and there are 7 + 255 = 262 of them. -/
def Obligations.LegalWordsAreExactly262 : Prop :=
  (∀ w : Word32, (∃ i, decode w = .ok i) ↔
    ((w.extractLsb' 0 8).toNat ≤ 6 ∧ (w.extractLsb' 8 8 = 0 ∨ w.extractLsb' 0 8 = 2) ∧ w.extractLsb' 16 16 = 0)) ∧
  ∃ words : List Word32, words.Nodup ∧ words.length = 262 ∧ ∀ w, w ∈ words ↔ ∃ i, decode w = .ok i

/-- R95, R97, R101: words written out from the format and the opcode map (`INJB 0x31` is R101's own example). -/
def Obligations.WrittenOutWordsDecode : Prop :=
  decode 0b00000000000000000000000000000000 = .ok .nop ∧
  decode 0b00000000000000000000000000000001 = .ok .init ∧
  decode 0b00000000000000000011000100000010 = .ok (.injb 0x31) ∧
  decode 0b00000000000000000000000000000011 = .ok .update ∧
  decode 0b00000000000000000000000000000100 = .ok .updTable ∧
  decode 0b00000000000000000000000000000101 = .ok .updFold ∧
  decode 0b00000000000000000000000000000110 = .ok .finalize

/-! ## Steps and the host port (spec/30_encoding.md, spec/43_commands.md R200) -/

/-- R30, R90, R200: between commands, a write to `CMD` whose low 32 bits decode to a command runs exactly that command, on the
state without the event, and then answers `OK`. The high 32 bits of the data are ignored. -/
def Obligations.StepRunsTheDecodedCommand : Prop :=
  ∀ (s : State) (rest : List HostEvent) (v : Word64) (i : Instr),
    s.phase = .idle → s.inbox = .write 0x00 8 v :: rest → decode (v.setWidth 32) = .ok i →
    step s = thenReply .ok (exec i (s.setInbox rest))

/-- R90 and the model's queue (log 1, log 9): events are taken in the order issued, one a step, and without one nothing
changes. -/
def Obligations.HostEventsAreTakenInOrder : Prop :=
  ∀ s : State, s.phase = .idle →
    (s.inbox = [] → step s = .next s) ∧
    (∀ e rest, s.inbox = e :: rest → step s = hostEvent e (s.setInbox rest))

/-- The host's placing of a program word (log 11): the very next step runs it. -/
def Obligations.FetchedWordRunsNext : Prop :=
  ∀ (s : State) (i : Instr),
    decodeTableWord 32 (encode i).toNat = some i ∧
    step (s.withFetchWord 32 (encode i).toNat) = thenReply .ok (exec i (s.setPhase .idle))

/-- R244, R245: in `Failed` every word but the exact word of `INIT` is ignored, `PTR` and `LEN` can still be written, `CRC`
cannot; outside `Failed` an illegal word raises `Fail(ILLCMD)`. Every such write is answered `OK`. -/
def Obligations.CommandWordsInAndOutOfFailed : Prop :=
  ∀ s : State,
    (s.stream = .failed →
      (∀ v : Word64, v.setWidth 32 ≠ (1 : Word32) → hostWrite 0x00 8 v s = .next { s with reply := some .ok }) ∧
      (∀ v : Word64, v.setWidth 32 = (1 : Word32) →
        hostWrite 0x00 8 v s =
          .next { s with crc := 0, total := 0, result := 0, err := none, stream := .start, reply := some .ok }) ∧
      (∀ i, i ≠ .init → exec i s = .next s) ∧
      (∀ v, hostWrite 0x18 8 v s = .next { s with ptr := v, reply := some .ok }) ∧
      (∀ v, hostWrite 0x20 8 v s = .next { s with len := v, reply := some .ok }) ∧
      (∀ v, hostWrite 0x10 8 v s = .next { s with reply := some .ok })) ∧
    (s.stream ≠ .failed → ∀ v : Word64, (CommandWord.ofWord (v.setWidth 32)).legal = false →
      hostWrite 0x00 8 v s =
        .next { s with stream := .failed, err := some .illcmd, phase := .idle, reply := some .ok })

/-- R91, R255: the accesses that are answered `ERROR` are exactly those R91 and R255 list, an `ERROR` changes nothing but the
response, and every write to a defined offset is answered `OK`. -/
def Obligations.UndefinedAccessesAnswerError : Prop :=
  ∀ (s : State) (off size : Nat) (v : Word64),
    ((size ≠ 8 ∨ off % 8 ≠ 0 ∨ 0x70 ≤ off) →
      hostWrite off size v s = .next { s with reply := some .error } ∧
      hostRead off size s = { s with reply := some .error }) ∧
    (size = 8 ∧ off % 8 = 0 ∧ off < 0x70 →
      (∃ t, hostWrite off size v s = .next t ∧ t.reply = some .ok) ∧
      (hostRead off size s = { s with reply := some .error } ↔
        (off = 0x10 ∧ s.stream = .failed) ∨ (off = 0x30 ∧ s.stream ≠ .finalized)) ∧
      (hostRead off size s ≠ { s with reply := some .error } →
        ∃ d, hostRead off size s = { s with reply := some (.data d) }))

/-- R35, R36, R37: the constant registers read their values, those of `XpowMod` and `mu`, in every state, and a write to one
changes nothing. -/
def Obligations.ConstantRegistersReadTheirValues : Prop :=
  ∀ (s : State) (v : Word64),
    hostRead 0x40 8 s = { s with reply := some (.data 0x00000000E8A45605) } ∧
    hostRead 0x48 8 s = { s with reply := some (.data 0x00000000C5B9CD4C) } ∧
    hostRead 0x50 8 s = { s with reply := some (.data 0x00000000E6228B11) } ∧
    hostRead 0x58 8 s = { s with reply := some (.data 0x000000008833794C) } ∧
    hostRead 0x60 8 s = { s with reply := some (.data 0x0000000104D101DF) } ∧
    hostRead 0x68 8 s = { s with reply := some (.data 0x0000002004C11DB7) } ∧
    xpowMod Config.crc32 128 = 0xE8A45605 ∧ xpowMod Config.crc32 192 = 0xC5B9CD4C ∧
    xpowMod Config.crc32 512 = 0xE6228B11 ∧ xpowMod Config.crc32 576 = 0x8833794C ∧ mu Config.crc32 = 0x104D101DF ∧
    (∀ off ∈ [0x40, 0x48, 0x50, 0x58, 0x60, 0x68], hostWrite off 8 v s = .next { s with reply := some .ok })

/-- R31, R32, R33, R38: `STATUS` reads `STREAM` in bits 1:0, `SEL` in bits 3:2, `ERR` in bits 7:4, zero above, and ignores
writes. -/
def Obligations.StatusReadsItsThreeFields : Prop :=
  (∀ s : State, ∃ d : Word64, hostRead 0x08 8 s = { s with reply := some (.data d) } ∧
    d.extractLsb' 0 2 = (match s.stream with | .start => 0 | .running => 1 | .finalized => 2 | .failed => 3) ∧
    d.extractLsb' 2 2 = (match s.sel with | .unresolved => 0 | .fold => 1 | .table => 2) ∧
    d.extractLsb' 4 4 = (match s.err with
      | none => 0 | some .illcmd => 1 | some .badstate => 2 | some .nocap => 3
      | some .overflow => 4 | some .range => 5 | some .buserr => 6) ∧
    d.extractLsb' 8 56 = 0) ∧
  (∀ (s : State) (v : Word64), hostWrite 0x08 8 v s = .next { s with reply := some .ok })

/-- R21: `CRC` reads zero-extended except in `Failed`, where the response is `ERROR`; it takes the low 32 bits of a write in
`Start` and `Running`, and ignores a write otherwise. -/
def Obligations.CrcHostAccess : Prop :=
  ∀ (s : State) (v : Word64),
    (s.stream ≠ .failed → hostRead 0x10 8 s = { s with reply := some (.data (s.crc.setWidth 64)) }) ∧
    (s.stream = .failed → hostRead 0x10 8 s = { s with reply := some .error }) ∧
    (s.takesBytes = true → hostWrite 0x10 8 v s = .next { s with crc := v.extractLsb' 0 32, reply := some .ok }) ∧
    (s.takesBytes = false → hostWrite 0x10 8 v s = .next { s with reply := some .ok })

/-- R22, R23, R24, R25, R30, R34, R93: `PTR` and `LEN` are read and written in any state; `TOTAL` and `CAP` are read in any
state and ignore writes; `RESULT` is read in `Finalized`, answers `ERROR` in every other state, and ignores writes; `CMD` reads
0. -/
def Obligations.PlainRegisterAccess : Prop :=
  ∀ (s : State) (v : Word64),
    hostRead 0x18 8 s = { s with reply := some (.data s.ptr) } ∧
    hostWrite 0x18 8 v s = .next { s with ptr := v, reply := some .ok } ∧
    hostRead 0x20 8 s = { s with reply := some (.data s.len) } ∧
    hostWrite 0x20 8 v s = .next { s with len := v, reply := some .ok } ∧
    hostRead 0x28 8 s = { s with reply := some (.data s.total) } ∧
    hostWrite 0x28 8 v s = .next { s with reply := some .ok } ∧
    (∃ d : Word64, hostRead 0x38 8 s = { s with reply := some (.data d) } ∧
      d.getLsbD 0 = s.cap.clmul ∧ d.getLsbD 1 = s.cap.vec ∧ d.extractLsb' 2 62 = 0) ∧
    hostWrite 0x38 8 v s = .next { s with reply := some .ok } ∧
    (s.stream = .finalized → hostRead 0x30 8 s = { s with reply := some (.data (s.result.setWidth 64)) }) ∧
    (s.stream ≠ .finalized → hostRead 0x30 8 s = { s with reply := some .error }) ∧
    hostWrite 0x30 8 v s = .next { s with reply := some .ok } ∧
    hostRead 0x00 8 s = { s with reply := some (.data 0) }

/-- R92, R93: a write delivers the low bits of the register's width and nothing else: to `PTR`, `LEN` and (where R21 lets the host
write it) `CRC` as their new value, to `CMD` as the word executed; a read of a register that answers a value (all but R21's and
R25's two `ERROR`s) returns it zero-extended; a write to a read-only register, or to `CRC` in `Finalized` or `Failed`, is
answered `OK` and changes nothing. -/
def Obligations.WidthsBoundReadsAndWrites : Prop :=
  ∀ (r : Reg) (s : State) (v v' : Word64),
    (v.toNat % 2 ^ r.width = v'.toNat % 2 ^ r.width → hostWrite r.offset 8 v s = hostWrite r.offset 8 v' s) ∧
    (r = .cmd → hostWrite r.offset 8 v s = thenReply .ok (executeWord (v.extractLsb' 0 32) s)) ∧
    (r = .ptr → hostWrite r.offset 8 v s = .next { s with ptr := v, reply := some .ok }) ∧
    (r = .len → hostWrite r.offset 8 v s = .next { s with len := v, reply := some .ok }) ∧
    (r = .crc → s.takesBytes = true →
      hostWrite r.offset 8 v s = .next { s with crc := v.extractLsb' 0 32, reply := some .ok }) ∧
    (r ∈ [.status, .total, .result, .cap, .k1lo, .k1hi, .k4lo, .k4hi, .mu, .poly] ∨
        (r = .crc ∧ (s.stream = .finalized ∨ s.stream = .failed)) →
      hostWrite r.offset 8 v s = .next { s with reply := some .ok }) ∧
    ((r = .crc ∧ s.stream = .failed) ∨ (r = .result ∧ s.stream ≠ .finalized) →
      hostRead r.offset 8 s = { s with reply := some .error }) ∧
    (¬((r = .crc ∧ s.stream = .failed) ∨ (r = .result ∧ s.stream ≠ .finalized)) →
      ∃ d : Word64, hostRead r.offset 8 s = { s with reply := some (.data d) } ∧ d.toNat < 2 ^ r.width ∧
        d.toNat = (match r with
          | .cmd => 0
          | .status => s.status.toNat
          | .crc => s.crc.toNat
          | .ptr => s.ptr.toNat
          | .len => s.len.toNat
          | .total => s.total.toNat
          | .result => s.result.toNat
          | .cap => s.cap.clmul.toNat + 2 * s.cap.vec.toNat
          | .k1lo => xpowMod Config.crc32 128
          | .k1hi => xpowMod Config.crc32 192
          | .k4lo => xpowMod Config.crc32 512
          | .k4hi => xpowMod Config.crc32 576
          | .mu => mu Config.crc32
          | .poly => 0x2004C11DB7))

/-! ## Reset (spec/70_reset_and_hazards.md) -/

/-- R281: what a reset that samples `straps` leaves of the registers it gives a value, in every state it can hit (R280); memory
and the pending host events are outside CFE. `State.reset` is that state for the straps of log 3 and no byte listed. -/
def Obligations.ResetLeavesTheListedValues : Prop :=
  (∀ (s : State) (straps : Straps), ∃ t, hostEvent (.reset straps) s = .next t ∧
    t.crc = 0 ∧ t.ptr = 0 ∧ t.len = 0 ∧ t.total = 0 ∧ t.result = 0 ∧ t.stream = .start ∧ t.sel = .unresolved ∧
    t.err = none ∧ t.phase = .idle ∧ t.cap = straps ∧ t.status = 0 ∧
    (∀ a, t.mem.get a = s.mem.get a) ∧ t.inbox = s.inbox) ∧
  hostEvent (.reset State.reset.cap) State.reset = .next State.reset ∧
  ∀ a, State.reset.mem.get a = none

/-- R282: after a reset, `INIT` changes nothing, so any first command behaves as after `INIT`; and `FINAL` straight after reset
gives `RESULT = 0xFFFFFFFF`. -/
def Obligations.ResetIsAFreshStream : Prop :=
  ∀ (straps : Straps) (m : Memory) (q : List HostEvent),
    exec .init (State.resetWith straps m q) = .next (State.resetWith straps m q) ∧
    ∃ t, exec .finalize (State.resetWith straps m q) = .next t ∧ t.result = 0xFFFFFFFF ∧ t.stream = .finalized

/-! ## Failures (spec/60_exceptions.md) -/

/-- R246, R247, R248, R250, R251: which `Fail` a command's checks raise, in the order they are made; each leaves the state of
R243. -/
def Obligations.ChecksFailInOrder : Prop :=
  ∀ s : State,
    (s.stream = .finalized → ∀ i, raisesBadState i = true → exec i s = .next (s.fail .badstate)) ∧
    (s.takesBytes = true →
      ((s.cap.clmul = false ∨ s.cap.vec = false) → exec .updFold s = .next (s.fail .nocap)) ∧
      (∀ b, s.total.toNat + 1 > 2 ^ 64 - 1 → exec (.injb b) s = .next (s.fail .overflow)) ∧
      (∀ i m, updateMode i s = some m → hasCapability i s →
        (s.total.toNat + s.len.toNat > 2 ^ 64 - 1 → exec i s = .next (s.fail .overflow)) ∧
        (s.total.toNat + s.len.toNat ≤ 2 ^ 64 - 1 → s.ptr.toNat + s.len.toNat > 2 ^ 64 →
          exec i s = .next (s.fail .range))))

/-- R249, R252: an accepted update whose range holds an unreadable byte ends in `Fail(BUSERR)`; completed micro-operations
stand, the failing one and all later ones have no effect. `c`, the bytes they consumed, is determined by the first byte that
cannot be read and R177's counts, so `PTR` and `LEN` are; `CRC` is that of the bytes consumed, or 0 between `uLOAD0` and
`uREDUCE`. -/
def Obligations.BusErrorLeavesTheListedState : Prop :=
  ∀ (s : State) (i : Instr) (m : Mode),
    updateMode i s = some m → s.takesBytes = true → s.fits → hasCapability i s →
    memRead s.mem s.ptr.toNat s.len.toNat = none →
    ∃ t c, exec i s = .next t ∧ BusErrorEnd s (selAfter i s) c t ∧
      (∀ k, k < s.len.toNat → (∀ j, j < k → s.mem.get (s.ptr.toNat + j) ≠ none) → s.mem.get (s.ptr.toNat + k) = none →
        c = completedBytes (microBytes m s.ptr.toNat s.len.toNat) k) ∧
      (m = .fold ∧ insideFold s.ptr.toNat s.len.toNat c → t.crc = 0) ∧
      (¬(m = .fold ∧ insideFold s.ptr.toNat s.len.toNat c) →
        ∀ bs, memRead s.mem s.ptr.toNat c = some bs → t.crc = updateBlock s.crc bs)

/-- R257: in `Failed`, `RESULT` and `CRC` answer `ERROR` and `FINAL` is ignored; and in a coherent state a value read from
`RESULT` is the complement of the length-folded `CRC` of a finalized stream. -/
def Obligations.FailedStreamEmitsNoChecksum : Prop :=
  ∀ s : State,
    (s.stream = .failed →
      hostRead 0x30 8 s = { s with reply := some .error } ∧ hostRead 0x10 8 s = { s with reply := some .error } ∧
      exec .finalize s = .next s) ∧
    (s.Coherent → ∀ d, (hostRead 0x30 8 s).reply = some (.data d) →
      s.stream = .finalized ∧ s.err = none ∧ d = (~~~ s.crc).setWidth 64)

/-! ## Commands (spec/43_commands.md) -/

/-- R204: word 0x00000000; nothing, in every state. -/
def Obligations.NopChangesNothing : Prop :=
  encode .nop = 0x00000000 ∧ ∀ s : State, exec .nop s = .next s

/-- R205: word 0x00000001; accepted in every state, `Failed` included; `SEL`, `PTR`, `LEN`, `ACC` and all else unchanged. -/
def Obligations.InitStartsAStream : Prop :=
  encode .init = 0x00000001 ∧
  ∀ s : State, exec .init s = .next { s with crc := 0, total := 0, result := 0, err := none, stream := .start }

/-- R206: the word `(imm8 << 8) | 0x02`; the two checks in their order; an accepted `INJB` puts its byte through
`update_one_byte`, counts it, and changes nothing else. -/
def Obligations.InjbInjectsOneByte : Prop :=
  ∀ (s : State) (b : Byte),
    encode (.injb b) = (b.setWidth 32 <<< 8) ||| 0x02 ∧
    (s.stream = .finalized → exec (.injb b) s = .next (s.fail .badstate)) ∧
    (s.takesBytes = true → s.total.toNat + 1 > 2 ^ 64 - 1 → exec (.injb b) s = .next (s.fail .overflow)) ∧
    (s.takesBytes = true → s.total.toNat + 1 ≤ 2 ^ 64 - 1 →
      exec (.injb b) s =
        .next { s with crc := updateOneByte s.crc b, total := BitVec.ofNat 64 (s.total.toNat + 1), stream := .running })

/-- R207: the end state of an accepted `UPDATE` with every byte readable, whichever engine the dispatcher picks; `SEL` is
resolved at the first use and kept after it. -/
def Obligations.UpdateInjectsTheBuffer : Prop :=
  ∀ (s : State) (bs : List Byte), s.takesBytes = true → s.fits →
    memRead s.mem s.ptr.toNat s.len.toNat = some bs →
    ∃ t, exec .update s = .next t ∧
      UpdateEnd s bs (match s.sel with
        | .unresolved => if s.cap.clmul = true ∧ s.cap.vec = true then .fold else .table
        | .fold => .fold
        | .table => .table) t

/-- R208: the same end state for the forced table path on any device, `SEL` untouched. -/
def Obligations.UpdTableInjectsTheBuffer : Prop :=
  ∀ (s : State) (bs : List Byte), s.takesBytes = true → s.fits →
    memRead s.mem s.ptr.toNat s.len.toNat = some bs →
    ∃ t, exec .updTable s = .next t ∧ UpdateEnd s bs s.sel t

/-- R209: the same end state for the forced fold path on a device with both capabilities, `SEL` untouched. -/
def Obligations.UpdFoldInjectsTheBuffer : Prop :=
  ∀ (s : State) (bs : List Byte), s.takesBytes = true → s.cap.clmul = true → s.cap.vec = true → s.fits →
    memRead s.mem s.ptr.toNat s.len.toNat = some bs →
    ∃ t, exec .updFold s = .next t ∧ UpdateEnd s bs s.sel t

/-- R210, R211: the word 0x00000006; `BADSTATE` in `Finalized`; an accepted `FINAL` folds the minimal little-endian bytes of
`TOTAL`, each with `update_one_byte`, complements into `RESULT`, keeps the uncomplemented value in `CRC`, and changes nothing
else. -/
def Obligations.FinalFoldsTheByteCount : Prop :=
  encode .finalize = 0x00000006 ∧
  (∀ s : State, s.stream = .finalized → exec .finalize s = .next (s.fail .badstate)) ∧
  (∀ s : State, s.takesBytes = true →
    exec .finalize s =
      .next { s with
        crc := (lengthBytes s.total.toNat).foldl updateOneByte s.crc
        result := ~~~ ((lengthBytes s.total.toNat).foldl updateOneByte s.crc)
        stream := .finalized }) ∧
  (∀ n : Nat, le (lengthBytes n) = n ∧ (lengthBytes n).length = (bitlength n + 7) / 8)

/-- R201: every command's next state is along an edge of the transition table. -/
def Obligations.StreamFollowsItsEdges : Prop :=
  ∀ (i : Instr) (s t : State), exec i s = .next t → streamEdge s.stream i t.stream = true

/-- R62, R205 to R211: what no command changes, and what only some commands change. The accumulators and `FOUR` are named at the
level of the micro-operations alone, since no postcondition of a whole command may expose them (R181): `ACC` is written only by
the five micro-operations R40 lists and `FOUR` only by the two of R46, and the rows of Table mode issue none of those. -/
def Obligations.CommandsLeaveTheRestAlone : Prop :=
  (∀ (i : Instr) (s t : State), exec i s = .next t →
    (∀ a, t.mem.get a = s.mem.get a) ∧ t.cap = s.cap ∧ t.inbox = s.inbox ∧ t.reply = s.reply ∧
    (s.phase = .idle → t.phase = .idle) ∧
    (i ≠ .update → t.sel = s.sel) ∧
    (i ≠ .init → i ≠ .finalize → t.result = s.result) ∧
    (updateMode i s = none → t.ptr = s.ptr ∧ t.len = s.len)) ∧
  (∀ (u : MicroOp) (s t : State), runMicro u s = .done t →
    (u ∉ [.load0, .loadK, .fold4, .collapse, .fold1] →
      t.acc0 = s.acc0 ∧ t.acc1 = s.acc1 ∧ t.acc2 = s.acc2 ∧ t.acc3 = s.acc3) ∧
    (u ∉ [.load0, .collapse] → t.four = s.four)) ∧
  startPhase .table = .tail8 ∧
  (∀ s t : State, s.phase = .tail8 ∨ s.phase = .tail1 →
    (seqRow s).micro ∈ [none, some .step8, some .inj] ∧ (seqRow s).next t ∈ [.tail8, .tail1, .idle])

/-- R32, R34, R203: outside a reset `CAP` is constant, and `SEL` changes only from `Unresolved`, at an `UPDATE` that passes its
checks, to what the capability flags say; the first accepted `UPDATE` does resolve it. -/
def Obligations.DispatcherResolvesOnce : Prop :=
  (∀ (e : HostEvent) (s t : State), hostEvent e s = .next t → (∀ straps, e ≠ .reset straps) →
    t.cap = s.cap ∧
    (t.sel = s.sel ∨
      (s.sel = .unresolved ∧ t.sel = (if s.cap.clmul = true ∧ s.cap.vec = true then .fold else .table) ∧
        s.takesBytes = true ∧ s.fits ∧ ∃ v : Word64, e = .write 0x00 8 v ∧ decode (v.setWidth 32) = .ok .update))) ∧
  (∀ s t : State, s.takesBytes = true → s.fits → exec .update s = .next t → t.sel ≠ .unresolved)

/-- R62, R74, R61: a step changes what an address answers only when it takes a store event from outside; such a store is what
the address then answers, and every other address answers as before. -/
def Obligations.OnlyOutsideStoresChangeMemory : Prop :=
  ∀ s t : State, s.mem.wf = true → step s = .next t →
    t.mem.wf = true ∧
    ((∀ a, t.mem.get a = s.mem.get a) ∨
      (∃ addr b rest, s.inbox = .store addr b :: rest ∧ t.mem.get addr.toNat = b ∧
        ∀ a, a ≠ addr.toNat → t.mem.get a = s.mem.get a))

/-- R14: `MemRead(addr, n)` is the list of the `n` bytes from `addr` up, element 0 from the lowest address, and fails exactly
when one of them is `none`. -/
def Obligations.MemReadReadsEveryByte : Prop :=
  ∀ (m : Memory) (addr n : Nat),
    (∀ bs, memRead m addr n = some bs ↔ bs.length = n ∧ ∀ k, k < n → m.get (addr + k) = bs[k]?) ∧
    (memRead m addr n = none ↔ ∃ k, k < n ∧ m.get (addr + k) = none)

/-! ## The sequencer (spec/42_fold_engine.md) -/

/-- R66, R176, R178, R202, R256: no command ever stops the machine: no accumulator is read before its command has written it,
no wide read is misaligned, no micro-operation lacks bytes, and the sequencer terminates. So no step does, between commands. -/
def Obligations.CommandsAlwaysComplete : Prop :=
  (∀ (i : Instr) (s : State), ∃ t, exec i s = .next t) ∧
  (∀ s : State, s.phase = .idle → ∃ t, step s = .next t ∧ t.phase = .idle)

/-- R176, R177: the transition table, run to the end of the command, is the program R177 writes, in both modes and from every
state, failures included. -/
def Obligations.SequencerRunsTheProgram : Prop :=
  ∀ (m : Mode) (s : State), runUpdate m s = (programUpdate m s).outcome

/-- A command is its rows of R176 one after another: single steps of the machine from the start row end where the command ends,
in at most `LEN + 16` steps. That a step from a state inside a command takes one row is the model's choice, log entry 10
(DESIGN CHOICE), and the bound `LEN + 16` is the model's own, log entry 14 (DEDUCED); R289 bounds a command by other counts. -/
def Obligations.MicroStepsReachTheCommand : Prop :=
  ∀ (m : Mode) (s : State), ∃ k, k ≤ s.len.toNat + 16 ∧
    runSteps k ((s.forgetAccs).setPhase (startPhase m)) = runUpdate m s

/-- R144, R146: `uINJ` and `uSTEP8` on readable bytes; `Fail(BUSERR)` with no state otherwise. No alignment is asked (R70). -/
def Obligations.TableMicroOperations : Prop :=
  ∀ s : State,
    (1 ≤ s.len.toNat →
      (∀ b, s.mem.get s.ptr.toNat = some b →
        runMicro .inj s = .done { s with crc := updateOneByte s.crc b, ptr := s.ptr + 1, len := s.len - 1 }) ∧
      (s.mem.get s.ptr.toNat = none → runMicro .inj s = .fail .buserr)) ∧
    (8 ≤ s.len.toNat →
      (∀ bs, memRead s.mem s.ptr.toNat 8 = some bs →
        runMicro .step8 s = .done { s with crc := step8 s.crc bs, ptr := s.ptr + 8, len := s.len - 8 }) ∧
      (memRead s.mem s.ptr.toNat 8 = none → runMicro .step8 s = .fail .buserr))

/-- R168, R169: `uLOAD0` and `uLOADK` on readable blocks; `Fail(BUSERR)` with no state otherwise. -/
def Obligations.LoadMicroOperations : Prop :=
  ∀ s : State, s.ptr.toNat % 16 = 0 →
    (32 ≤ s.len.toNat →
      (∀ bs, memRead s.mem s.ptr.toNat 16 = some bs →
        runMicro .load0 s = .done { s with
          four := decide (128 ≤ s.len.toNat)
          acc0 := ⟨BitVec.ofNat 128 (be bs) ^^^ (s.crc.setWidth 128 <<< 96), true⟩
          crc := 0, ptr := s.ptr + 16, len := s.len - 16 }) ∧
      (memRead s.mem s.ptr.toNat 16 = none → runMicro .load0 s = .fail .buserr)) ∧
    (112 ≤ s.len.toNat →
      (∀ b1 b2 b3, b1.length = 16 → b2.length = 16 → b3.length = 16 →
        memRead s.mem s.ptr.toNat 48 = some (b1 ++ b2 ++ b3) →
        runMicro .loadK s = .done { s with
          acc1 := ⟨BitVec.ofNat 128 (be b1), true⟩, acc2 := ⟨BitVec.ofNat 128 (be b2), true⟩
          acc3 := ⟨BitVec.ofNat 128 (be b3), true⟩, ptr := s.ptr + 48, len := s.len - 48 }) ∧
      (memRead s.mem s.ptr.toNat 48 = none → runMicro .loadK s = .fail .buserr))

/-- R170: `uFOLD4`, on accumulators its command has written. -/
def Obligations.Fold4MicroOperation : Prop :=
  ∀ s : State, 64 ≤ s.len.toNat → s.ptr.toNat % 16 = 0 →
    s.acc0.written = true → s.acc1.written = true → s.acc2.written = true → s.acc3.written = true →
    (∀ b0 b1 b2 b3, b0.length = 16 → b1.length = 16 → b2.length = 16 → b3.length = 16 →
      memRead s.mem s.ptr.toNat 64 = some (b0 ++ b1 ++ b2 ++ b3) →
      runMicro .fold4 s = .done { s with
        acc0 := ⟨foldAcc s.acc0.value k4lo k4hi ^^^ BitVec.ofNat 128 (be b0), true⟩
        acc1 := ⟨foldAcc s.acc1.value k4lo k4hi ^^^ BitVec.ofNat 128 (be b1), true⟩
        acc2 := ⟨foldAcc s.acc2.value k4lo k4hi ^^^ BitVec.ofNat 128 (be b2), true⟩
        acc3 := ⟨foldAcc s.acc3.value k4lo k4hi ^^^ BitVec.ofNat 128 (be b3), true⟩
        ptr := s.ptr + 64, len := s.len - 64 }) ∧
    (memRead s.mem s.ptr.toNat 64 = none → runMicro .fold4 s = .fail .buserr)

/-- R171, R172: the folds by `K1`, `uCOLLAPSE` (three sequential steps, the result copied to `ACC[0]`) and `uFOLD1`, on
accumulators their command has written. -/
def Obligations.K1FoldMicroOperations : Prop :=
  ∀ s : State, s.acc0.written = true →
    (s.acc1.written = true → s.acc2.written = true → s.acc3.written = true →
      ∃ c1 c2 c3 : Vec128,
        c1 = foldAcc s.acc0.value k1lo k1hi ^^^ s.acc1.value ∧
        c2 = foldAcc c1 k1lo k1hi ^^^ s.acc2.value ∧
        c3 = foldAcc c2 k1lo k1hi ^^^ s.acc3.value ∧
        runMicro .collapse s = .done { s with
          acc0 := ⟨c3, true⟩, acc1 := ⟨c1, true⟩, acc2 := ⟨c2, true⟩, acc3 := ⟨c3, true⟩, four := false }) ∧
    (16 ≤ s.len.toNat → s.ptr.toNat % 16 = 0 →
      (∀ bs, memRead s.mem s.ptr.toNat 16 = some bs →
        runMicro .fold1 s = .done { s with
          acc0 := ⟨foldAcc s.acc0.value k1lo k1hi ^^^ BitVec.ofNat 128 (be bs), true⟩
          ptr := s.ptr + 16, len := s.len - 16 }) ∧
      (memRead s.mem s.ptr.toNat 16 = none → runMicro .fold1 s = .fail .buserr))

/-- R175: `uREDUCE` leaves `(ACC[0] << 32) mod P` in `CRC`, through the accumulator's sixteen bytes. -/
def Obligations.ReduceMicroOperation : Prop :=
  ∀ s : State, s.acc0.written = true →
    ∃ c : Word32, runMicro .reduce s = .done { s with crc := c } ∧
      c = updateBlock 0 (accBytes s.acc0.value) ∧
      c.toNat = polymod Config.crc32 (s.acc0.value.toNat <<< 32)

/-- R243, R249: `Fail(code)` entry sets `STREAM`, `ERR` and `PHASE` and keeps everything else; a micro-operation fails with
`BUSERR` only, and then ends the command in the state it started in, but for those three. -/
def Obligations.FailEntryDiscardsTheFailingStep : Prop :=
  (∀ (s : State) (code : FailCode),
    raise s code = .next { s with stream := .failed, err := some code, phase := .idle }) ∧
  (∀ (s : State) (u : MicroOp) (code : FailCode), (seqRow s).micro = some u → runMicro u s = .fail code →
    code = .buserr ∧ seqStep s = .next { s with stream := .failed, err := some .buserr, phase := .idle })

/-! ## The engines (spec/40_constants.md, spec/41_table_engine.md, spec/42_fold_engine.md) -/

/-- R121: `polymod` gives the unique remainder below `2^width`, and its laws. -/
def Obligations.PolymodIsTheRemainder : Prop :=
  ∀ g : Generator, g.inDomain = true → ∀ a b : Nat,
    polymod g a < 2 ^ g.width ∧
    (∃ q, a ^^^ polymod g a = gfMul q g.poly) ∧
    (∀ r q, r < 2 ^ g.width → a ^^^ r = gfMul q g.poly → r = polymod g a) ∧
    polymod g (a ^^^ b) = polymod g a ^^^ polymod g b ∧
    polymod g (gfMul a b) = polymod g (gfMul (polymod g a) (polymod g b)) ∧
    (a < 2 ^ g.width → polymod g a = a)

/-- R122, R128: `XpowMod(e)` equals `x^e mod P` for all `e`, and outside the domain the derivation is refused. -/
def Obligations.XpowModIsThePowersRemainder : Prop :=
  ∀ g : Generator,
    (g.inDomain = true → ∀ e, xpowMod g e = polymod g (1 <<< e) ∧ xpowModChecked g e = some (xpowMod g e)) ∧
    (g.inDomain = false → ∀ e, xpowModChecked g e = none ∧ muChecked g = none)

/-- R126: `mu` is the quotient of `x^(2·width)` by `P`, `width + 1` bits, with final remainder `XpowMod(2·width)`; its value
for CFE. -/
def Obligations.MuIsTheQuotient : Prop :=
  (∀ g : Generator, g.inDomain = true →
    gfMul (mu g) g.poly ^^^ (1 <<< (2 * g.width)) = xpowMod g (2 * g.width) ∧
    (muDivision g).1 = xpowMod g (2 * g.width) ∧ bitlength (mu g) = g.width + 1) ∧
  mu Config.crc32 = 0x104D101DF

/-- R141, R142: `TABLE[k][b] = (b << (32 + 8k)) mod P`; linear in `b`; and an entry is observable through `Step8` (R149). -/
def Obligations.TablesHoldRemainders : Prop :=
  ∀ (k : Nat) (a b : Byte),
    (table k b).toNat = polymod Config.crc32 (b.toNat <<< (32 + 8 * k)) ∧
    table k (a ^^^ b) = table k a ^^^ table k b ∧
    table k 0 = 0 ∧
    (table k 1).toNat = xpowMod Config.crc32 (32 + 8 * k) ∧
    (∀ i, i < 8 → updateBlock 0 ((List.replicate 8 0).set i b) = table (7 - i) b)

/-- R143: the table form of `update_one_byte`, its value, and its corner cases. -/
def Obligations.UpdateOneByteIsARemainder : Prop :=
  ∀ (crc : Word32) (b : Byte),
    updateOneByte crc b = (crc <<< 8) ^^^ table 0 (crc.extractLsb' 24 8 ^^^ b) ∧
    (updateOneByte crc b).toNat = polymod Config.crc32 ((crc.toNat <<< 8) ^^^ (b.toNat <<< 32)) ∧
    updateOneByte 0 0 = 0 ∧
    updateOneByte 0 b = table 0 b ∧
    updateOneByte crc (crc.extractLsb' 24 8) = crc <<< 8

/-- R145: the eight-byte step equals eight one-byte steps, for every register value and every eight bytes. -/
def Obligations.Step8IsEightOneByteSteps : Prop :=
  ∀ (crc : Word32) (bs : List Byte), bs.length = 8 → step8 crc bs = bs.foldl updateOneByte crc

/-- R148: `update_block` is `n` sequential one-byte updates, has the closed form, composes over concatenation, is linear in the
pair, and takes a register value as an XOR over the first four bytes. -/
def Obligations.UpdateBlockIsTheMessageRemainder : Prop :=
  ∀ (crc crc' : Word32) (m n : List Byte),
    updateBlock crc m = m.foldl updateOneByte crc ∧
    updateBlock crc m = messageRemainder crc m ∧
    updateBlock crc (m ++ n) = updateBlock (updateBlock crc m) n ∧
    (m.length = n.length →
      updateBlock (crc ^^^ crc') (List.zipWith (· ^^^ ·) m n) = updateBlock crc m ^^^ updateBlock crc' n) ∧
    (4 ≤ m.length → updateBlock crc m = updateBlock 0 (seeded crc m))

/-- R150: a register followed by its own bytes, most significant first, is zero; so is a message followed by its raw CRC. -/
def Obligations.ResidueIsZero : Prop :=
  ∀ (crc : Word32) (m : List Byte),
    updateBlock crc [crc.extractLsb' 24 8, crc.extractLsb' 16 8, crc.extractLsb' 8 8, crc.extractLsb' 0 8] = 0 ∧
    (updateBlock 0 m = crc →
      updateBlock 0 (m ++ [crc.extractLsb' 24 8, crc.extractLsb' 16 8, crc.extractLsb' 8 8, crc.extractLsb' 0 8]) = 0)

/-- R161: bit `n` of the carry-less product, and its laws. -/
def Obligations.CarrylessProductLaws : Prop :=
  ∀ a b c : Word64,
    (∀ n, (clmul64 a b).getLsbD n =
      ((List.range 64).map fun j => decide (j ≤ n) && a.getLsbD (n - j) && b.getLsbD j).foldl xor false) ∧
    (clmul64 a b).toNat = gfMul a.toNat b.toNat ∧ (clmul64 a b).getLsbD 127 = false ∧
    clmul64 a b = clmul64 b a ∧ clmul64 a 0 = 0 ∧ clmul64 a 1 = a.setWidth 128 ∧
    clmul64 (a ^^^ c) b = clmul64 a b ^^^ clmul64 c b ∧
    (a ≠ 0 → b ≠ 0 →
      bitlength (clmul64 a b).toNat = bitlength a.toNat + bitlength b.toNat - 1)

/-- R68, R163, R164, R165: the byte reversal is an involution that sends byte `i` to byte `15 − i`; a block load, lane order and
reversal together, is the big-endian reading of its bytes; the reduction's bytes are the accumulator's, most significant
first. -/
def Obligations.BlockLoadIsBigEndian : Prop :=
  (∀ v : Vec128, brev128 (brev128 v) = v ∧
    (∀ i, i < 16 → (brev128 v).extractLsb' (8 * i) 8 = v.extractLsb' (8 * (15 - i)) 8) ∧
    accBytes v = (List.range 16).map fun i => v.extractLsb' (120 - 8 * i) 8) ∧
  (∀ (m : Memory) (a : Nat),
    laneLoad m a = (memRead m a 16).map (fun bs => BitVec.ofNat 128 (le bs)) ∧
    loadBlock m a = (memRead m a 16).map fun bs => BitVec.ofNat 128 (be bs))

/-- R166, R167: a fold has at most 95 bits, is linear, and moves the accumulator 128 (`K1`) or 512 (`K4`) degrees up, modulo
`P`. -/
def Obligations.FoldMovesUpTheDegree : Prop :=
  ∀ a b : Vec128,
    polymod Config.crc32 (foldAcc a k1lo k1hi).toNat = polymod Config.crc32 (a.toNat <<< 128) ∧
    polymod Config.crc32 (foldAcc a k4lo k4hi).toNat = polymod Config.crc32 (a.toNat <<< 512) ∧
    (∀ klo khi : Word64,
      foldAcc (a ^^^ b) klo khi = foldAcc a klo khi ^^^ foldAcc b klo khi ∧ foldAcc 0 klo khi = 0 ∧
      (klo.toNat < 2 ^ 32 → khi.toNat < 2 ^ 32 → (foldAcc a klo khi).toNat < 2 ^ 95))

/-- R179: each fold micro-operation keeps the accumulators standing for the bytes consumed, from a `uLOAD0` that XORs the
register over the first four, to a `uREDUCE` that leaves their remainder in `CRC`. -/
def Obligations.FoldStepsKeepTheRepresentation : Prop :=
  ∀ (s t : State) (m bs : List Byte),
    (runMicro .load0 s = .done t → memRead s.mem s.ptr.toNat 16 = some bs → OneLane t (seeded s.crc bs)) ∧
    (runMicro .fold1 s = .done t → OneLane s m → memRead s.mem s.ptr.toNat 16 = some bs → OneLane t (m ++ bs)) ∧
    (runMicro .loadK s = .done t → OneLane s m → memRead s.mem s.ptr.toNat 48 = some bs → FourLane t (m ++ bs)) ∧
    (runMicro .fold4 s = .done t → FourLane s m → memRead s.mem s.ptr.toNat 64 = some bs → FourLane t (m ++ bs)) ∧
    (runMicro .collapse s = .done t → FourLane s m → OneLane t m) ∧
    (runMicro .reduce s = .done t → OneLane s m → t.crc = rawRemainder m)

/-- R180: from every state whose range ends within the address space, the two engines end with the same `CRC`, namely
`update_block` of the bytes, and the same `PTR` and `LEN`; and they raise `Fail(BUSERR)` on exactly the same inputs. -/
def Obligations.FoldAgreesWithTable : Prop :=
  ∀ s : State, s.ptr.toNat + s.len.toNat ≤ 2 ^ 64 →
    ∃ t u, runUpdate .fold s = .next t ∧ runUpdate .table s = .next u ∧
      (∀ bs, memRead s.mem s.ptr.toNat s.len.toNat = some bs →
        t.crc = updateBlock s.crc bs ∧ u.crc = updateBlock s.crc bs ∧ t.ptr = u.ptr ∧ t.len = u.len ∧
        t.stream = s.stream ∧ u.stream = s.stream) ∧
      (memRead s.mem s.ptr.toNat s.len.toNat = none →
        t.stream = .failed ∧ t.err = some .buserr ∧ u.stream = .failed ∧ u.err = some .buserr)

/-! ## What the commands compute together -/

/-- R212, R213: `INIT`, then any sequence of host events that injects the bytes `bs` without a failure, a write to `CRC` or an end
of the stream, then `FINAL`, ends with the POSIX checksum of `bs` in `RESULT`, however the message is cut, aligned or dispatched,
from any state between commands, `Failed` included. Updates may go on where the last one left `PTR`, buffers may be refilled
between them, and `NOP`s, reads and writes to read-only registers may stand anywhere. The queue of events, stores among them, is
the model's choice (logs 1 and 2). -/
def Obligations.StreamsComputeThePosixChecksum : Prop :=
  ∀ (s : State) (q rest : List HostEvent) (bs : List Byte),
    s.phase = .idle → injectedBytes q s.cursor = some bs → bs.length ≤ 2 ^ 64 - 1 →
    s.inbox = commandEvent (encode .init) :: (q ++ commandEvent (encode .finalize) :: .read 0x30 8 :: rest) →
    (∃ t, runSteps (q.length + 1) s = .next t ∧ t.crc = rawRemainder bs ∧ t.total.toNat = bs.length) ∧
    (∃ t, runSteps (q.length + 3) s = .next t ∧
      t.result = posixCksum bs ∧ t.result = ~~~ updateBlock (rawRemainder bs) (lengthBytes bs.length) ∧
      t.total.toNat = bs.length ∧ t.stream = .finalized ∧ t.inbox = rest ∧
      t.reply = some (.data ((posixCksum bs).setWidth 64)))

/-- R102: the pseudo-instruction `CKSUM p, n` answers the POSIX checksum of the `n` bytes at `p`. -/
def Obligations.CksumAnswersThePosixChecksum : Prop :=
  ∀ (s : State) (p n : Word64) (bs : List Byte) (rest : List HostEvent),
    s.phase = .idle → p.toNat + n.toNat ≤ 2 ^ 64 → memRead s.mem p.toNat n.toNat = some bs →
    s.inbox = eventsOf (Pseudo.cksum p n).expand ++ rest →
    ∃ t, runSteps 6 s = .next t ∧ t.reply = some (.data ((posixCksum bs).setWidth 64)) ∧ t.total = n

/-- R215: CK's two numeric results, from any state. -/
def Obligations.KnownChecksums : Prop :=
  ∀ s : State,
    (∃ t u, exec .init s = .next t ∧ exec .finalize t = .next u ∧
      u.total = 0 ∧ u.crc = 0 ∧ u.result.toNat = 4294967295) ∧
    (∃ t u v, exec .init s = .next t ∧ exec (.injb 0x00) t = .next u ∧ exec .finalize u = .next v ∧
      v.total = 1 ∧ v.result.toNat = 4215202376)

/-- R60, R178, U18: no command's outcome depends on a byte outside `[PTR, PTR + LEN)`, nor on what earlier commands left in `ACC`
and `FOUR`. Two states that agree on everything else end in states that agree on everything but `ACC` and `FOUR`, of which
nothing is said (R181), and each keeps its own memory. -/
def Obligations.BytesOutsideTheRangeDoNotMatter : Prop :=
  ∀ (i : Instr) (s s' : State), SameButHidden s s' →
    (∀ a, s.ptr.toNat ≤ a → a < s.ptr.toNat + s.len.toNat → s'.mem.get a = s.mem.get a) →
    ∃ t t', exec i s = .next t ∧ exec i s' = .next t' ∧ SameButHidden t t' ∧
      (∀ a, t.mem.get a = s.mem.get a) ∧ (∀ a, t'.mem.get a = s'.mem.get a)

/-! ## The invariant -/

/-- R20 to R47: what holds between commands is kept by every step: the canonical memory, `ERR` against `STREAM`, `RESULT`
against `CRC`, `TOTAL` in `Start`, the resolved `SEL` against `CAP`, and `PHASE = IDLE`. -/
def Obligations.StepsKeepTheStateCoherent : Prop :=
  ∀ s t : State, s.Coherent → step s = .next t → t.Coherent

/-- R281: the state after a reset is coherent, whatever the straps, on any memory in canonical form. -/
def Obligations.ResetIsCoherent : Prop :=
  State.reset.Coherent ∧
  ∀ (straps : Straps) (m : Memory) (q : List HostEvent), m.wf = true → (State.resetWith straps m q).Coherent
end

