-- ==== Sys2Proof/Laws/Memory.lean ====
section
/-! SUPPORT. The buffer memory: canonical form kept by every operation, read after write, and what `memRead` reads. -/

namespace Sys2Proof.Machine

namespace Memory

theorem above_put {x a : Nat} {v : Byte} {m : Memory} (h : above a m = true) (hx : a < x) :
    above a (put m x v) = true := by
  induction m with
  | nil => simpa [put, above] using hx
  | cons c m ih =>
    obtain ⟨b, w⟩ := c
    simp only [above, Bool.and_eq_true, decide_eq_true_eq] at h
    unfold put
    split
    · simp [above, hx, h]
    · split
      · simp [above, hx, h]
      · simp [above, h, ih h.2]

theorem above_drop {x a : Nat} {m : Memory} (h : above a m = true) : above a (drop m x) = true := by
  induction m with
  | nil => rfl
  | cons c m ih =>
    obtain ⟨b, w⟩ := c
    simp only [above, Bool.and_eq_true, decide_eq_true_eq] at h
    unfold drop
    split
    · exact h.2
    · simp [above, h, ih h.2]

theorem above_trans {a b : Nat} {m : Memory} (hab : a < b) (h : above b m = true) : above a m = true := by
  induction m with
  | nil => rfl
  | cons c m ih =>
    obtain ⟨d, w⟩ := c
    simp only [above, Bool.and_eq_true, decide_eq_true_eq] at h ⊢
    exact ⟨hab.trans h.1, ih h.2⟩

theorem get_of_above {a x : Nat} {m : Memory} (h : above a m = true) (hx : x ≤ a) : get m x = none := by
  induction m with
  | nil => rfl
  | cons c m ih =>
    obtain ⟨d, w⟩ := c
    simp only [above, Bool.and_eq_true, decide_eq_true_eq] at h
    have : x ≠ d := by omega
    simp [get, this, ih h.2]

theorem put_wf {x : Nat} {v : Byte} {m : Memory} (hx : x < Config.top64) (h : wf m = true) : wf (put m x v) = true := by
  induction m with
  | nil => simp [put, wf, above, hx]
  | cons c m ih =>
    obtain ⟨a, b⟩ := c
    simp only [wf, Bool.and_eq_true, decide_eq_true_eq] at h
    unfold put
    split
    · rename_i hlt
      simp [wf, above, hx, h, hlt, above_trans hlt h.1.2]
    · split
      · rename_i heq
        subst heq
        simp [wf, h]
      · have : a < x := by omega
        simp [wf, h, above_put h.1.2 this, ih h.2]

theorem drop_wf {x : Nat} {m : Memory} (h : wf m = true) : wf (drop m x) = true := by
  induction m with
  | nil => rfl
  | cons c m ih =>
    obtain ⟨a, b⟩ := c
    simp only [wf, Bool.and_eq_true, decide_eq_true_eq] at h
    unfold drop
    split
    · exact h.2
    · simp [wf, h, above_drop h.1.2, ih h.2]

/-- Changing what one address answers keeps the canonical form. -/
theorem set_wf {x : Nat} {b : Option Byte} {m : Memory} (hx : x < Config.top64) (h : wf m = true) :
    wf (set m x b) = true := by
  cases b with
  | none => exact drop_wf h
  | some v => exact put_wf hx h

theorem get_put (m : Memory) (x a : Nat) (v : Byte) : get (put m x v) a = if a = x then some v else get m a := by
  induction m with
  | nil => simp [put, get]
  | cons c m ih =>
    obtain ⟨d, w⟩ := c
    unfold put
    split
    · simp [get]
    · split
      · rename_i heq
        subst heq
        by_cases h : a = x <;> simp [get, h]
      · rename_i hne
        by_cases h : a = d
        · have : d ≠ x := fun e => hne e.symm
          simp [get, h, this]
        · simp [get, h, ih]

theorem get_drop {m : Memory} (h : wf m = true) (x a : Nat) : get (drop m x) a = if a = x then none else get m a := by
  induction m with
  | nil => simp [drop, get]
  | cons c m ih =>
    obtain ⟨d, w⟩ := c
    simp only [wf, Bool.and_eq_true, decide_eq_true_eq] at h
    unfold drop
    split
    · rename_i heq
      subst heq
      by_cases ha : a = x
      · simp [ha, get_of_above h.1.2 (Nat.le_refl x)]
      · simp [get, ha]
    · rename_i hne
      by_cases ha : a = d
      · have : d ≠ x := fun e => hne e.symm
        simp [get, ha, this]
      · simp [get, ha, ih h.2]

/-- What an address answers after one address was changed. -/
theorem get_set {m : Memory} (h : wf m = true) (x a : Nat) (b : Option Byte) :
    get (set m x b) a = if a = x then b else get m a := by
  cases b with
  | none => exact get_drop h x a
  | some v => exact get_put m x a v

end Memory

@[simp] theorem memRead_zero (m : Memory) (a : Nat) : memRead m a 0 = some [] := rfl

theorem memRead_succ (m : Memory) (a n : Nat) :
    memRead m a (n + 1) = (m.get a).bind fun b => (memRead m (a + 1) n).map fun bs => b :: bs := by
  simp only [memRead]
  cases m.get a <;> cases memRead m (a + 1) n <;> rfl

theorem memRead_one (m : Memory) (a : Nat) : memRead m a 1 = (m.get a).map fun b => [b] := by
  rw [memRead_succ]
  cases m.get a <;> rfl

theorem memRead_length {m : Memory} {a n : Nat} {bs : List Byte} (h : memRead m a n = some bs) : bs.length = n := by
  induction n generalizing a bs with
  | zero => simp_all
  | succ n ih =>
    rw [memRead_succ] at h
    cases hb : m.get a with
    | none => simp [hb] at h
    | some b =>
      cases hr : memRead m (a + 1) n with
      | none => simp [hb, hr] at h
      | some rs =>
        simp [hb, hr] at h
        subst h
        simp [ih hr]

/-- A read in two parts: both succeed, and the bytes are their concatenation. -/
theorem memRead_add (m : Memory) (a n k : Nat) :
    memRead m a (n + k) = (memRead m a n).bind fun bs => (memRead m (a + n) k).map fun cs => bs ++ cs := by
  induction n generalizing a with
  | zero => simp
  | succ n ih =>
    rw [Nat.add_right_comm, memRead_succ, ih, memRead_succ]
    have : a + 1 + n = a + (n + 1) := by omega
    rw [this]
    cases m.get a <;> simp
    cases memRead m (a + 1) n <;> simp
    cases memRead m (a + (n + 1)) k <;> simp

/-- A part of a read is the part of its bytes. -/
theorem memRead_slice {m : Memory} {a n : Nat} {bs : List Byte} (h : memRead m a n = some bs) {i k : Nat} (hik : i + k ≤ n) :
    memRead m (a + i) k = some ((bs.drop i).take k) := by
  obtain ⟨r, rfl⟩ := Nat.exists_eq_add_of_le hik
  rw [memRead_add, memRead_add] at h
  cases h1 : memRead m a i with
  | none => simp [h1] at h
  | some xs =>
    cases h2 : memRead m (a + i) k with
    | none => simp [h1, h2] at h
    | some ys =>
      cases h3 : memRead m (a + (i + k)) r with
      | none => simp [h1, h2, h3] at h
      | some zs =>
        simp [h1, h2, h3] at h
        have hx := memRead_length h1
        have hy := memRead_length h2
        subst h hx hy
        simp

/-- A read fails exactly when one of its addresses does. -/
theorem memRead_eq_none {m : Memory} {a n : Nat} : memRead m a n = none ↔ ∃ k, k < n ∧ m.get (a + k) = none := by
  induction n generalizing a with
  | zero => simp
  | succ n ih =>
    rw [memRead_succ]
    constructor
    · intro h
      cases hb : m.get a with
      | none => exact ⟨0, by omega, by simpa using hb⟩
      | some b =>
        have hr : memRead m (a + 1) n = none := by
          cases hr : memRead m (a + 1) n with
          | none => rfl
          | some rs => simp [hb, hr] at h
        obtain ⟨k, hk, hg⟩ := ih.1 hr
        exact ⟨k + 1, by omega, by rw [← hg]; congr 1; omega⟩
    · rintro ⟨k, hk, hg⟩
      cases k with
      | zero => simp at hg; simp [hg]
      | succ k =>
        have : memRead m (a + 1) n = none := ih.2 ⟨k, by omega, by rw [← hg]; congr 1; omega⟩
        cases m.get a <;> simp [this]

/-- A read looks at its own addresses only. -/
theorem memRead_congr {m m' : Memory} {a n : Nat} (h : ∀ x, a ≤ x → x < a + n → m.get x = m'.get x) :
    memRead m a n = memRead m' a n := by
  induction n generalizing a with
  | zero => rfl
  | succ n ih =>
    rw [memRead_succ, memRead_succ, h a (by omega) (by omega), ih fun x h1 h2 => h x (by omega) (by omega)]

end Sys2Proof.Machine
end

