-- ==== Sys2Proof/Laws/Bytes.lean ====
section
/-! SUPPORT. The two readings of a byte list, and the conversions between vectors and bytes. -/

namespace Sys2Proof.Machine

/-- Adding below a shift is XOR. -/
theorem shiftLeft_add_eq_xor {a b k : Nat} (h : b < 2 ^ k) : a * 2 ^ k + b = a <<< k ^^^ b := by
  rw [Nat.mul_comm]
  apply Nat.eq_of_testBit_eq
  intro i
  rw [Nat.testBit_xor, Nat.testBit_two_pow_mul_add a h, Nat.testBit_shiftLeft]
  by_cases hi : i < k
  · simp [hi, Nat.not_le.2 hi]
  · have : b.testBit i = false :=
      Nat.testBit_eq_false_of_lt (Nat.lt_of_lt_of_le h (Nat.pow_le_pow_right (by omega) (by omega)))
    simp [hi, this, Nat.le_of_not_lt hi]

@[simp] theorem be_nil : be [] = 0 := rfl

@[simp] theorem le_nil : le [] = 0 := rfl

@[simp] theorem le_cons (b : Byte) (bs : List Byte) : le (b :: bs) = b.toNat + 256 * le bs := rfl

theorem be_concat (bs : List Byte) (b : Byte) : be (bs ++ [b]) = be bs * 256 + b.toNat := by simp [be]

theorem le_append (xs ys : List Byte) : le (xs ++ ys) = le xs + 256 ^ xs.length * le ys := by
  induction xs with
  | nil => simp
  | cons x xs ih => simp only [List.cons_append, le_cons, ih, List.length_cons, Nat.pow_succ]; ring

/-- Big-endian is little-endian of the reversed bytes. -/
theorem le_reverse (bs : List Byte) : le bs.reverse = be bs := by
  induction bs using List.reverseRecOn with
  | nil => rfl
  | append_singleton bs b ih => rw [List.reverse_append, be_concat]; simp [ih]; ring

theorem le_lt (bs : List Byte) : le bs < 256 ^ bs.length := by
  induction bs with
  | nil => simp
  | cons b bs ih => simp only [le_cons, List.length_cons, Nat.pow_succ]; have := b.isLt; omega

theorem two_pow_eight_mul (n : Nat) : 256 ^ n = 2 ^ (8 * n) := by rw [Nat.pow_mul]

theorem be_lt (bs : List Byte) : be bs < 2 ^ (8 * bs.length) := by
  rw [← le_reverse, ← two_pow_eight_mul]
  simpa using le_lt bs.reverse

/-- Reading a concatenation big-endian. -/
theorem be_append (xs ys : List Byte) : be (xs ++ ys) = be xs <<< (8 * ys.length) ^^^ be ys := by
  rw [← shiftLeft_add_eq_xor (be_lt ys), ← le_reverse, List.reverse_append, le_append, le_reverse, le_reverse,
    List.length_reverse, two_pow_eight_mul]
  ring

theorem be_cons (b : Byte) (bs : List Byte) : be (b :: bs) = b.toNat <<< (8 * bs.length) ^^^ be bs := by
  have := be_append [b] bs
  simpa [be] using this

/-- Byte lists of one length are equal when they read the same. -/
theorem le_inj {xs ys : List Byte} (hl : xs.length = ys.length) (h : le xs = le ys) : xs = ys := by
  induction xs generalizing ys with
  | nil => simpa using hl.symm
  | cons x xs ih =>
    cases ys with
    | nil => simp at hl
    | cons y ys =>
      simp only [le_cons] at h
      have hx := x.isLt
      have hy := y.isLt
      have h1 : x = y := BitVec.eq_of_toNat_eq (by omega)
      subst h1
      rw [ih (by simpa using hl) (by omega)]

@[simp] theorem length_laneBytes (v : Vec128) : (laneBytes v).length = 16 := by simp [laneBytes]

theorem le_bytes {w : Nat} (v : BitVec w) (n : Nat) :
    le ((List.range n).map fun i => v.extractLsb' (8 * i) 8) = v.toNat % 2 ^ (8 * n) := by
  induction n with
  | zero => simp [Nat.mod_one]
  | succ n ih =>
    rw [List.range_succ, List.map_append, le_append, ih]
    simp only [List.length_map, List.length_range, List.map_cons, List.map_nil, le_cons, le_nil, Nat.mul_zero, Nat.add_zero,
      BitVec.extractLsb'_toNat, Nat.shiftRight_eq_div_pow]
    rw [two_pow_eight_mul, Nat.mul_add, Nat.pow_add, Nat.mod_mul]

/-- A vector is the little-endian reading of its lane bytes. -/
@[simp] theorem le_laneBytes (v : Vec128) : le (laneBytes v) = v.toNat := by
  rw [laneBytes, le_bytes]
  exact Nat.mod_eq_of_lt v.isLt

/-- Sixteen bytes are the lane bytes of their little-endian reading. -/
theorem laneBytes_ofNat_le {bs : List Byte} (h : bs.length = 16) : laneBytes (BitVec.ofNat 128 (le bs)) = bs := by
  apply le_inj (by simp [h])
  have := le_lt bs
  rw [h] at this
  rw [le_laneBytes, BitVec.toNat_ofNat, Nat.mod_eq_of_lt]
  exact Nat.lt_of_lt_of_eq this (by norm_num)

/-- The reversal reverses the lane bytes. -/
theorem laneBytes_brev128 (v : Vec128) : laneBytes (brev128 v) = (laneBytes v).reverse :=
  laneBytes_ofNat_le (by simp)

/-- A block load is the big-endian reading of its sixteen bytes. -/
theorem loadBlock_eq (m : Memory) (a : Nat) : loadBlock m a = (memRead m a 16).map fun bs => BitVec.ofNat 128 (be bs) := by
  unfold loadBlock laneLoad
  cases h : memRead m a 16 with
  | none => rfl
  | some bs =>
    simp only [Option.map_some, brev128, laneBytes_ofNat_le (memRead_length h), le_reverse]

/-- The reduction's bytes are the accumulator's, most significant first. -/
theorem be_accBytes (v : Vec128) : be (accBytes v) = v.toNat := by
  rw [← le_reverse, accBytes, laneBytes_brev128, List.reverse_reverse, le_laneBytes]

@[simp] theorem length_accBytes (v : Vec128) : (accBytes v).length = 16 := by simp [accBytes]

end Sys2Proof.Machine
end

