-- ==== Sys2Proof/Laws/Decode.lean ====
section
/-! SUPPORT. The fields of a command word and the word of the fields are inverse to each other. -/

namespace Sys2Proof

/-- Bit `n` of the word of the fields. -/
theorem CommandWord.getLsbD_toWord (c : CommandWord) (n : Nat) : c.toWord.getLsbD n =
    if n < 8 then c.opcode.getLsbD n else if n - 8 < 8 then c.imm8.getLsbD (n - 8) else c.zero.getLsbD (n - 8 - 8) := by
  have := BitVec.getLsbD_append (x := c.zero ++ c.imm8) (y := c.opcode) (i := n)
  refine this.trans ?_
  split
  · rfl
  · exact BitVec.getLsbD_append

@[simp] theorem CommandWord.toWord_ofWord (w : Word32) : (CommandWord.ofWord w).toWord = w := by
  apply BitVec.eq_of_getLsbD_eq
  intro i hi
  rw [getLsbD_toWord]
  simp only [CommandWord.ofWord, BitVec.getLsbD_extractLsb']
  by_cases h1 : i < 8
  · simp [h1]
  · by_cases h2 : i - 8 < 8
    · simp [h1, h2, show 8 + (i - 8) = i by omega]
    · simp [h1, h2, show 16 + (i - 8 - 8) = i by omega]
      intro; omega

@[simp] theorem CommandWord.ofWord_toWord (c : CommandWord) : CommandWord.ofWord c.toWord = c := by
  obtain ⟨o, i, z⟩ := c
  simp only [CommandWord.ofWord, CommandWord.mk.injEq]
  refine ⟨?_, ?_, ?_⟩ <;> apply BitVec.eq_of_getLsbD_eq <;> intro k hk <;> rw [BitVec.getLsbD_extractLsb', getLsbD_toWord]
  · simp [hk]
  · simp [hk, show ¬ (8 + k < 8) by omega]
  · simp [hk, show ¬ (16 + k < 8) by omega, show ¬ (16 + k - 8 < 8) by omega, show 16 + k - 8 - 8 = k by omega]

/-- A full mask selects the word itself. -/
theorem word32_and_full (w : Word32) : w &&& 0xFFFFFFFF = w := by
  have : (0xFFFFFFFF : Word32) = BitVec.allOnes 32 := by decide
  rw [this, BitVec.and_allOnes]

end Sys2Proof
end

