-- ==== Sys2Proof/Laws/Gf2.lean ====
section
/-! SUPPORT. GF(2) arithmetic on naturals: the carry-less product, degrees, and congruence modulo a generator. -/

namespace Sys2Proof.Machine

/-! ## Bit lengths -/

@[simp] theorem bitlength_zero : bitlength 0 = 0 := rfl

theorem bitlength_of_ne {a : Nat} (h : a ≠ 0) : bitlength a = a.log2 + 1 := by simp [bitlength, h]

theorem bitlength_le_iff {a n : Nat} : bitlength a ≤ n ↔ a < 2 ^ n := by
  by_cases h : a = 0
  · subst h; simp
  · rw [bitlength_of_ne h, Nat.succ_le_iff, Nat.log2_lt h]

theorem lt_two_pow_bitlength (a : Nat) : a < 2 ^ bitlength a := bitlength_le_iff.1 (Nat.le_refl _)

theorem lt_bitlength_iff {a n : Nat} : n < bitlength a ↔ 2 ^ n ≤ a := by
  rw [← not_iff_not, Nat.not_lt, Nat.not_le, bitlength_le_iff]

theorem bitlength_eq_iff {a n : Nat} : bitlength a = n + 1 ↔ 2 ^ n ≤ a ∧ a < 2 ^ (n + 1) := by
  rw [← lt_bitlength_iff, ← bitlength_le_iff]; omega

theorem bitlength_eq_zero {a : Nat} : bitlength a = 0 ↔ a = 0 := by
  by_cases h : a = 0 <;> simp [bitlength, h]

theorem bitlength_shiftLeft {a : Nat} (h : a ≠ 0) (n : Nat) : bitlength (a <<< n) = bitlength a + n := by
  obtain ⟨k, hk⟩ : ∃ k, bitlength a = k + 1 := ⟨a.log2, bitlength_of_ne h⟩
  have := bitlength_eq_iff.1 hk
  rw [hk, Nat.add_right_comm, bitlength_eq_iff, Nat.shiftLeft_eq]
  constructor
  · rw [Nat.pow_add]; exact Nat.mul_le_mul_right _ this.1
  · rw [Nat.add_right_comm, Nat.pow_add]; exact Nat.mul_lt_mul_of_pos_right this.2 (Nat.two_pow_pos n)

@[simp] theorem bitlength_two_pow (k : Nat) : bitlength (1 <<< k) = k + 1 := by
  rw [bitlength_eq_iff, Nat.one_shiftLeft]
  exact ⟨Nat.le_refl _, Nat.pow_lt_pow_right (by omega) (by omega)⟩

/-- XOR with a number of lower degree keeps the degree. -/
theorem bitlength_xor_of_lt {a b : Nat} (h : bitlength b < bitlength a) : bitlength (a ^^^ b) = bitlength a := by
  obtain ⟨k, hk⟩ : ∃ k, bitlength a = k + 1 := ⟨bitlength a - 1, by omega⟩
  rw [hk, bitlength_eq_iff]
  have ha := bitlength_eq_iff.1 hk
  have hb : b < 2 ^ k := bitlength_le_iff.1 (by omega)
  constructor
  · by_contra hc
    have : a = (a ^^^ b) ^^^ b := by rw [Nat.xor_assoc, Nat.xor_self, Nat.xor_zero]
    have h2 : (a ^^^ b) ^^^ b < 2 ^ k := Nat.xor_lt_two_pow (by omega) hb
    omega
  · exact Nat.xor_lt_two_pow ha.2 (by rw [Nat.pow_succ]; omega)

/-- XOR of two numbers of the same degree lowers it. -/
theorem bitlength_xor_lt {a b : Nat} (ha : a ≠ 0) (h : bitlength a = bitlength b) : bitlength (a ^^^ b) < bitlength a := by
  obtain ⟨k, hk⟩ : ∃ k, bitlength a = k + 1 := ⟨a.log2, bitlength_of_ne ha⟩
  rw [hk, Nat.lt_succ_iff, bitlength_le_iff]
  have h1 := bitlength_eq_iff.1 hk
  have h2 := bitlength_eq_iff.1 (h ▸ hk)
  apply Nat.lt_pow_two_of_testBit
  intro i hi
  rw [Nat.testBit_xor]
  by_cases hik : i = k
  · subst hik
    have top : ∀ x, 2 ^ i ≤ x ∧ x < 2 ^ (i + 1) → x.testBit i = true := fun x hx => by
      rw [Nat.testBit_eq_decide_div_mod_eq, decide_eq_true_eq]
      have : x / 2 ^ i = 1 := by
        have := Nat.two_pow_pos i
        rw [Nat.div_eq_iff this]
        rw [Nat.pow_succ] at hx
        omega
      rw [this]
    rw [top a h1, top b h2]; rfl
  · have big : ∀ x, x < 2 ^ (k + 1) → x.testBit i = false := fun x hx =>
      Nat.testBit_eq_false_of_lt (Nat.lt_of_lt_of_le hx (Nat.pow_le_pow_right (by omega) (by omega)))
    rw [big a h1.2, big b h2.2]; rfl

/-! ## The carry-less product -/

@[simp] theorem gfMulTerms_zero (a b : Nat) : gfMulTerms a b 0 = 0 := rfl

theorem gfMulTerms_succ (a b n : Nat) :
    gfMulTerms a b (n + 1) = gfMulTerms a b n ^^^ (if b.testBit n then a <<< n else 0) := rfl

/-- Terms beyond the bits of `b` are zero. -/
theorem gfMulTerms_of_ge {a b n : Nat} (h : bitlength b ≤ n) : gfMulTerms a b n = gfMul a b := by
  obtain ⟨k, rfl⟩ := Nat.exists_eq_add_of_le h
  clear h
  induction k with
  | zero => rfl
  | succ k ih =>
    have : b.testBit (bitlength b + k) = false :=
      Nat.testBit_eq_false_of_lt (bitlength_le_iff.1 (Nat.le_add_right _ _))
    rw [← Nat.add_assoc, gfMulTerms_succ, ih, this]
    simp

theorem gfMulTerms_xor_left (a c b n : Nat) : gfMulTerms (a ^^^ c) b n = gfMulTerms a b n ^^^ gfMulTerms c b n := by
  induction n with
  | zero => simp
  | succ n ih =>
    simp only [gfMulTerms_succ, ih]
    split
    · rw [Nat.shiftLeft_xor_distrib]; ac_rfl
    · simp

theorem gfMul_xor_left (a c b : Nat) : gfMul (a ^^^ c) b = gfMul a b ^^^ gfMul c b := gfMulTerms_xor_left a c b _

theorem gfMulTerms_xor_right (a b c n : Nat) : gfMulTerms a (b ^^^ c) n = gfMulTerms a b n ^^^ gfMulTerms a c n := by
  induction n with
  | zero => simp
  | succ n ih =>
    simp only [gfMulTerms_succ, ih, Nat.testBit_xor]
    cases b.testBit n <;> cases c.testBit n <;> simp
    · ac_rfl
    · ac_rfl
    · rw [show gfMulTerms a b n ^^^ a <<< n ^^^ (gfMulTerms a c n ^^^ a <<< n) =
        gfMulTerms a b n ^^^ gfMulTerms a c n ^^^ (a <<< n ^^^ a <<< n) by ac_rfl, Nat.xor_self, Nat.xor_zero]

theorem gfMul_xor_right (a b c : Nat) : gfMul a (b ^^^ c) = gfMul a b ^^^ gfMul a c := by
  have hb := Nat.le_max_left (bitlength b) (max (bitlength c) (bitlength (b ^^^ c)))
  have hc := Nat.le_max_right (bitlength b) (max (bitlength c) (bitlength (b ^^^ c)))
  rw [← gfMulTerms_of_ge (a := a) hb,
    ← gfMulTerms_of_ge (a := a) (Nat.le_trans (Nat.le_max_left _ _) hc),
    ← gfMulTerms_of_ge (a := a) (Nat.le_trans (Nat.le_max_right _ _) hc), gfMulTerms_xor_right]

@[simp] theorem gfMul_zero (a : Nat) : gfMul a 0 = 0 := rfl

@[simp] theorem gfMul_zero_left (b : Nat) : gfMul 0 b = 0 := by
  have := gfMul_xor_left 0 0 b
  simpa using this

theorem gfMulTerms_shiftLeft_left (a b k n : Nat) : gfMulTerms (a <<< k) b n = gfMulTerms a b n <<< k := by
  induction n with
  | zero => simp
  | succ n ih =>
    simp only [gfMulTerms_succ, ih, Nat.shiftLeft_xor_distrib]
    split
    · rw [← Nat.shiftLeft_add, ← Nat.shiftLeft_add, Nat.add_comm]
    · simp

theorem gfMul_shiftLeft_left (a b k : Nat) : gfMul (a <<< k) b = gfMul a b <<< k := gfMulTerms_shiftLeft_left a b k _

theorem gfMulTerms_one_left (b n : Nat) : gfMulTerms 1 b n = b % 2 ^ n := by
  induction n with
  | zero => simp [Nat.mod_one]
  | succ n ih =>
    rw [gfMulTerms_succ, ih]
    apply Nat.eq_of_testBit_eq
    intro i
    rw [Nat.testBit_xor, Nat.testBit_mod_two_pow, Nat.testBit_mod_two_pow]
    have e : (if b.testBit n then 1 <<< n else 0).testBit i = (b.testBit n && decide (n = i)) := by
      split
      · rw [Nat.one_shiftLeft, Nat.testBit_two_pow]; simp_all
      · simp_all
    rw [e]
    by_cases hi : n = i
    · subst hi; simp
    · have : decide (i ≤ n) = decide (i < n) := by
        rw [decide_eq_decide]; omega
      simp [hi, this]

@[simp] theorem gfMul_one_left (b : Nat) : gfMul 1 b = b := by
  rw [gfMul, gfMulTerms_one_left, Nat.mod_eq_of_lt (lt_two_pow_bitlength b)]

theorem gfMul_two_pow_left (k b : Nat) : gfMul (1 <<< k) b = b <<< k := by
  rw [gfMul_shiftLeft_left, gfMul_one_left]

theorem gfMulTerms_two_pow_right (a k n : Nat) : gfMulTerms a (1 <<< k) n = if k < n then a <<< k else 0 := by
  induction n with
  | zero => simp
  | succ n ih =>
    rw [gfMulTerms_succ, ih, show (1 <<< k).testBit n = decide (k = n) by rw [Nat.one_shiftLeft, Nat.testBit_two_pow]]
    by_cases h : k = n
    · subst h; simp
    · by_cases h2 : k < n
      · simp [h, h2, Nat.lt_succ_of_lt h2]
      · have : ¬ k < n + 1 := by omega
        simp [h, h2, this]

theorem gfMul_two_pow_right (a k : Nat) : gfMul a (1 <<< k) = a <<< k := by
  rw [gfMul, gfMulTerms_two_pow_right, bitlength_two_pow]; simp

/-- Induction on a number's bits from the top: zero, and one more leading bit. -/
theorem topBit_induction {p : Nat → Prop} (h0 : p 0) (h1 : ∀ k a, a < 2 ^ k → p a → p (a ^^^ (1 <<< k))) (a : Nat) : p a := by
  suffices ∀ n a, a < 2 ^ n → p a from this _ _ (lt_two_pow_bitlength a)
  intro n
  induction n with
  | zero => intro a ha; simp at ha; subst ha; exact h0
  | succ n ih =>
    intro a ha
    by_cases h : a < 2 ^ n
    · exact ih a h
    · have hb : bitlength a = n + 1 := bitlength_eq_iff.2 ⟨by omega, ha⟩
      have ht := bitlength_two_pow n
      have hlt : a ^^^ (1 <<< n) < 2 ^ n := by
        rw [← bitlength_le_iff]
        have := bitlength_xor_lt (a := a) (b := 1 <<< n) (by intro e; simp [e] at hb) (by omega)
        omega
      have := h1 n _ hlt (ih _ hlt)
      rwa [Nat.xor_assoc, Nat.xor_self, Nat.xor_zero] at this

theorem gfMul_comm (a b : Nat) : gfMul a b = gfMul b a := by
  induction a using topBit_induction with
  | h0 => simp
  | h1 k a _ ih => rw [gfMul_xor_left, gfMul_xor_right, ih, gfMul_two_pow_left, gfMul_two_pow_right]

theorem gfMul_shiftLeft_right (a b k : Nat) : gfMul a (b <<< k) = gfMul a b <<< k := by
  rw [gfMul_comm, gfMul_shiftLeft_left, gfMul_comm]

theorem gfMul_assoc (a b c : Nat) : gfMul (gfMul a b) c = gfMul a (gfMul b c) := by
  induction a using topBit_induction with
  | h0 => simp
  | h1 k a _ ih =>
    rw [gfMul_xor_left, gfMul_xor_left, gfMul_xor_left, ih, gfMul_two_pow_left, gfMul_two_pow_left, gfMul_shiftLeft_left]

/-- The degree of a product is the sum of the degrees. -/
theorem bitlength_gfMul {a b : Nat} (ha : a ≠ 0) (hb : b ≠ 0) : bitlength (gfMul a b) = bitlength a + bitlength b - 1 := by
  induction b using topBit_induction with
  | h0 => exact absurd rfl hb
  | h1 k b hlt ih =>
    have ht := bitlength_two_pow k
    have hbk : bitlength b ≤ k := bitlength_le_iff.2 hlt
    have hsum : bitlength (b ^^^ (1 <<< k)) = k + 1 := by
      rw [Nat.xor_comm, bitlength_xor_of_lt (by omega), ht]
    have hsh : bitlength (a <<< k) = bitlength a + k := bitlength_shiftLeft ha k
    have hpos : 0 < bitlength a := Nat.pos_of_ne_zero fun e => ha (bitlength_eq_zero.1 e)
    rw [gfMul_xor_right, gfMul_two_pow_right, Nat.xor_comm, hsum]
    by_cases h0 : b = 0
    · subst h0; simp [hsh]
    · rw [bitlength_xor_of_lt, hsh]
      · omega
      · rw [ih h0, hsh]; omega

/-! ## Congruence modulo a generator -/

/-- `a ≡ b (mod P)`: the difference is a multiple of `P`. -/
def Cong (g : Generator) (a b : Nat) : Prop := ∃ q, a ^^^ b = gfMul q g.poly

namespace Cong

variable {g : Generator} {a b c d : Nat}

theorem refl (a : Nat) : Cong g a a := ⟨0, by simp⟩

theorem symm (h : Cong g a b) : Cong g b a := by
  obtain ⟨q, hq⟩ := h
  exact ⟨q, by rw [Nat.xor_comm, hq]⟩

theorem xor (h : Cong g a b) (k : Cong g c d) : Cong g (a ^^^ c) (b ^^^ d) := by
  obtain ⟨q, hq⟩ := h
  obtain ⟨r, hr⟩ := k
  exact ⟨q ^^^ r, by rw [gfMul_xor_left, ← hq, ← hr]; ac_rfl⟩

theorem trans (h : Cong g a b) (k : Cong g b c) : Cong g a c := by
  obtain ⟨q, hq⟩ := h
  obtain ⟨r, hr⟩ := k
  refine ⟨q ^^^ r, ?_⟩
  rw [gfMul_xor_left, ← hq, ← hr, show a ^^^ b ^^^ (b ^^^ c) = a ^^^ c ^^^ (b ^^^ b) by ac_rfl, Nat.xor_self, Nat.xor_zero]

theorem gfMul_right (h : Cong g a b) (c : Nat) : Cong g (gfMul a c) (gfMul b c) := by
  obtain ⟨q, hq⟩ := h
  refine ⟨gfMul q c, ?_⟩
  rw [← gfMul_xor_left, hq, gfMul_assoc, gfMul_assoc, gfMul_comm g.poly c]

theorem gfMul_left (h : Cong g a b) (c : Nat) : Cong g (gfMul c a) (gfMul c b) := by
  rw [gfMul_comm c, gfMul_comm c]; exact h.gfMul_right c

theorem shiftLeft (h : Cong g a b) (k : Nat) : Cong g (a <<< k) (b <<< k) := by
  have := h.gfMul_right (1 <<< k)
  rwa [gfMul_two_pow_right, gfMul_two_pow_right] at this

/-- Two values below `2^width` that are congruent are equal. -/
theorem eq_of_lt (hg : g.inDomain = true) (ha : a < 2 ^ g.width) (hb : b < 2 ^ g.width) (h : Cong g a b) : a = b := by
  obtain ⟨q, hq⟩ := h
  have hlt : bitlength (a ^^^ b) ≤ g.width := bitlength_le_iff.2 (Nat.xor_lt_two_pow ha hb)
  have hp : bitlength g.poly = g.width + 1 := by
    simp only [Generator.inDomain, Bool.and_eq_true, decide_eq_true_eq] at hg
    rw [Generator.poly, ← Nat.one_shiftLeft, bitlength_xor_of_lt, bitlength_two_pow]
    rw [bitlength_two_pow]
    have := bitlength_le_iff.2 hg.2
    omega
  by_cases h0 : q = 0
  · subst h0
    rw [gfMul_zero_left] at hq
    exact Nat.xor_eq_zero_iff.1 hq
  · have hp0 : g.poly ≠ 0 := fun e => by simp [e] at hp
    have hq1 : 0 < bitlength q := Nat.pos_of_ne_zero fun e => h0 (bitlength_eq_zero.1 e)
    have := bitlength_gfMul h0 hp0
    rw [← hq] at this
    omega

end Cong

/-! ## Reduction -/

section Reduction

variable {g : Generator}

theorem bitlength_poly (hg : g.inDomain = true) : bitlength g.poly = g.width + 1 := by
  simp only [Generator.inDomain, Bool.and_eq_true, decide_eq_true_eq] at hg
  rw [Generator.poly, ← Nat.one_shiftLeft, bitlength_xor_of_lt, bitlength_two_pow]
  rw [bitlength_two_pow]
  have := bitlength_le_iff.2 hg.2
  omega

/-- One turn of the long division lowers the degree. -/
theorem bitlength_reduce_lt (hg : g.inDomain = true) {a : Nat} (h : g.width < bitlength a) :
    bitlength (a ^^^ (g.poly <<< (bitlength a - 1 - g.width))) < bitlength a := by
  have hp := bitlength_poly hg
  have hp0 : g.poly ≠ 0 := fun e => by simp [e] at hp
  apply bitlength_xor_lt
  · intro e; simp [e] at h
  · rw [bitlength_shiftLeft hp0, hp]; omega

theorem polymodLoop_lt (hg : g.inDomain = true) (n a : Nat) (h : bitlength a ≤ n) : polymodLoop g n a < 2 ^ g.width := by
  induction n generalizing a with
  | zero => simpa [polymodLoop] using bitlength_le_iff.1 (Nat.le_trans h (Nat.zero_le _))
  | succ n ih =>
    unfold polymodLoop
    split
    · rename_i hw
      have := bitlength_reduce_lt hg hw
      exact ih _ (by omega)
    · exact bitlength_le_iff.1 (by omega)

theorem polymodLoop_cong (n a : Nat) : Cong g a (polymodLoop g n a) := by
  induction n generalizing a with
  | zero => exact Cong.refl a
  | succ n ih =>
    unfold polymodLoop
    split
    · refine Cong.trans ⟨1 <<< (bitlength a - 1 - g.width), ?_⟩ (ih _)
      rw [gfMul_two_pow_left, ← Nat.xor_assoc, Nat.xor_self, Nat.zero_xor]
    · exact Cong.refl a

/-- The remainder has fewer than `width` degrees. -/
theorem polymod_lt (hg : g.inDomain = true) (a : Nat) : polymod g a < 2 ^ g.width := polymodLoop_lt hg _ a (Nat.le_refl _)

/-- The remainder is congruent to the dividend. -/
theorem polymod_cong (g : Generator) (a : Nat) : Cong g a (polymod g a) := polymodLoop_cong _ a

/-- Remainders are equal exactly when the dividends are congruent. -/
theorem polymod_eq_iff (hg : g.inDomain = true) {a b : Nat} : polymod g a = polymod g b ↔ Cong g a b := by
  constructor
  · intro h
    exact (polymod_cong g a).trans (h ▸ (polymod_cong g b).symm)
  · intro h
    exact Cong.eq_of_lt hg (polymod_lt hg a) (polymod_lt hg b) ((polymod_cong g a).symm.trans (h.trans (polymod_cong g b)))

/-- The remainder is the one congruent value below `2^width`. -/
theorem eq_polymod (hg : g.inDomain = true) {a r : Nat} (hr : r < 2 ^ g.width) (h : Cong g a r) : r = polymod g a :=
  Cong.eq_of_lt hg hr (polymod_lt hg a) (h.symm.trans (polymod_cong g a))

/-- The doubling of R122 multiplies by `x` modulo `P`. -/
theorem xpowStep_cong (hg : g.inDomain = true) {v : Nat} (hv : v < 2 ^ g.width) :
    xpowStep g v < 2 ^ g.width ∧ Cong g (v <<< 1) (xpowStep g v) := by
  have hd := hg
  simp only [Generator.inDomain, Bool.and_eq_true, decide_eq_true_eq] at hd
  have hmod : (v <<< 1) % 2 ^ g.width < 2 ^ g.width := Nat.mod_lt _ (Nat.two_pow_pos _)
  unfold xpowStep
  by_cases ht : v.testBit (g.width - 1) = true
  · rw [if_pos ht]
    refine ⟨Nat.xor_lt_two_pow hmod hd.2, 1, ?_⟩
    rw [gfMul_one_left, Generator.poly]
    have : v <<< 1 = (v <<< 1) % 2 ^ g.width ^^^ 2 ^ g.width := by
      apply Nat.eq_of_testBit_eq
      intro i
      rw [Nat.testBit_xor, Nat.testBit_mod_two_pow, Nat.testBit_two_pow, Nat.testBit_shiftLeft]
      by_cases hi : i < g.width
      · have : g.width ≠ i := by omega
        simp [hi, this]
      · by_cases he : i = g.width
        · subst he
          simp [ht]; omega
        · have h1 : v.testBit (i - 1) = false :=
            Nat.testBit_eq_false_of_lt (Nat.lt_of_lt_of_le hv (Nat.pow_le_pow_right (by omega) (by omega)))
          have : g.width ≠ i := fun e => he e.symm
          simp [hi, this, h1]
    nth_rewrite 1 [this]
    rw [show (v <<< 1) % 2 ^ g.width ^^^ 2 ^ g.width ^^^ ((v <<< 1) % 2 ^ g.width ^^^ g.polyNoTop) =
      (v <<< 1) % 2 ^ g.width ^^^ (v <<< 1) % 2 ^ g.width ^^^ (2 ^ g.width ^^^ g.polyNoTop) by ac_rfl, Nat.xor_self, Nat.zero_xor]
  · rw [if_neg ht]
    refine ⟨hmod, ?_⟩
    have hlt : v <<< 1 < 2 ^ g.width := by
      apply Nat.lt_pow_two_of_testBit
      intro i hi
      rw [Nat.testBit_shiftLeft]
      by_cases he : i = g.width
      · subst he; simp at ht; simp [ht]
      · have : v.testBit (i - 1) = false :=
          Nat.testBit_eq_false_of_lt (Nat.lt_of_lt_of_le hv (Nat.pow_le_pow_right (by omega) (by omega)))
        simp [this]
    rw [Nat.mod_eq_of_lt hlt]
    exact Cong.refl _

end Reduction

end Sys2Proof.Machine
end

