-- ==== Sys2Proof/Laws/Table.lean ====
section
/-! SUPPORT. The table engine computes remainders: one lemma per function, each as an equation on naturals. -/

namespace Sys2Proof.Machine

theorem crc32_inDomain : Config.crc32.inDomain = true := by decide

/-- Remainder modulo CFE's own generator. -/
abbrev rem32 (a : Nat) : Nat := polymod Config.crc32 a

theorem rem32_lt (a : Nat) : rem32 a < 2 ^ 32 := polymod_lt crc32_inDomain a

theorem rem32_eq {a r : Nat} (hr : r < 2 ^ 32) (h : Cong Config.crc32 a r) : r = rem32 a := eq_polymod crc32_inDomain hr h

theorem rem32_cong (a : Nat) : Cong Config.crc32 a (rem32 a) := polymod_cong _ a

theorem rem32_of_lt {a : Nat} (h : a < 2 ^ 32) : rem32 a = a := (rem32_eq h (Cong.refl a)).symm

theorem rem32_xor (a b : Nat) : rem32 (a ^^^ b) = rem32 a ^^^ rem32 b :=
  (rem32_eq (Nat.xor_lt_two_pow (rem32_lt a) (rem32_lt b)) ((rem32_cong a).xor (rem32_cong b))).symm

/-- A remainder may be taken before a shift. -/
theorem rem32_shiftLeft (a k : Nat) : rem32 (rem32 a <<< k) = rem32 (a <<< k) :=
  (polymod_eq_iff crc32_inDomain).2 ((rem32_cong a).symm.shiftLeft k)

/-- A remainder may be taken of the earlier part of a sum. -/
theorem rem32_shiftLeft_xor (a b k : Nat) : rem32 (rem32 a <<< k ^^^ b) = rem32 (a <<< k ^^^ b) := by
  rw [rem32_xor, rem32_xor, rem32_shiftLeft]

theorem rem32_zero : rem32 0 = 0 := rem32_of_lt (by decide)

/-! ## The bit-serial register -/

theorem crcShift_toNat (v : Word32) : (crcShift v).toNat = xpowStep Config.crc32 v.toNat := by
  have hm : v.msb = v.toNat.testBit 31 := by rw [BitVec.msb_eq_getLsbD_last]; rfl
  have hp : polyReg.toNat = Config.crc32.polyNoTop := by decide
  have hs : (v <<< 1 : Word32).toNat = (v.toNat <<< 1) % 2 ^ Config.crc32.width := BitVec.toNat_shiftLeft
  unfold crcShift xpowStep
  rw [hm, ← hs, ← hp]
  change _ = if v.toNat.testBit 31 = true then _ else _
  split <;> simp

theorem crcShift_rem (v : Word32) : (crcShift v).toNat = rem32 (v.toNat <<< 1) := by
  have h := xpowStep_cong crc32_inDomain (v := v.toNat) v.isLt
  rw [crcShift_toNat]
  exact rem32_eq h.1 h.2

/-- `n` turns of the loop multiply by `x^n` modulo `P`. -/
theorem crcShifts_rem (n : Nat) (v : Word32) : (crcShifts n v).toNat = rem32 (v.toNat <<< n) := by
  induction n generalizing v with
  | zero => exact (rem32_of_lt v.isLt).symm
  | succ n ih => rw [crcShifts, ih, crcShift_rem, rem32_shiftLeft, ← Nat.shiftLeft_add, Nat.add_comm]

/-! ## Tables and steps -/

theorem table0_rem (b : Byte) : (table0 b).toNat = rem32 (b.toNat <<< 32) := by
  have : (b.setWidth 32 <<< 24 : Word32).toNat = b.toNat <<< 24 := by
    have hb := b.isLt
    rw [BitVec.toNat_shiftLeft, BitVec.toNat_setWidth, Nat.mod_eq_of_lt (a := b.toNat) (by omega), Nat.shiftLeft_eq,
      Nat.mod_eq_of_lt (by omega)]
  rw [table0, crcShifts_rem, this, ← Nat.shiftLeft_add]

/-- The top byte and the rest of a register shifted left by 8. -/
theorem shiftLeft8_split (crc : Word32) :
    crc.toNat <<< 8 = (crc <<< 8).toNat ^^^ ((crc.extractLsb' 24 8).toNat <<< 32) := by
  have h : crc.toNat <<< 8 = (crc.extractLsb' 24 8).toNat * 2 ^ 32 + (crc <<< 8).toNat := by
    have := crc.isLt
    rw [BitVec.toNat_shiftLeft, BitVec.extractLsb'_toNat, Nat.shiftRight_eq_div_pow, Nat.shiftLeft_eq]
    omega
  rw [h, shiftLeft_add_eq_xor (crc <<< 8).isLt, Nat.xor_comm]

/-- `update_one_byte(crc, b) = ((crc << 8) ^ (b << 32)) mod P`. -/
theorem updateOneByte_rem (crc : Word32) (b : Byte) :
    (updateOneByte crc b).toNat = rem32 (crc.toNat <<< 8 ^^^ b.toNat <<< 32) := by
  rw [updateOneByte, BitVec.toNat_xor, table0_rem, BitVec.toNat_xor, Nat.shiftLeft_xor_distrib, shiftLeft8_split,
    Nat.xor_assoc, rem32_xor (crc <<< 8).toNat, rem32_of_lt (crc <<< 8).isLt]

theorem table_rem (k : Nat) (b : Byte) : (table k b).toNat = rem32 (b.toNat <<< (32 + 8 * k)) := by
  induction k with
  | zero => exact table0_rem b
  | succ k ih =>
    rw [table, updateOneByte_rem, ih, rem32_shiftLeft_xor, ← Nat.shiftLeft_add]
    simp; congr 1

/-- A 64-bit word as the XOR of its bytes in place. -/
theorem word64_bytes (w : Word64) :
    w.toNat = (w.extractLsb' 56 8).toNat <<< 56 ^^^ (w.extractLsb' 48 8).toNat <<< 48 ^^^
      (w.extractLsb' 40 8).toNat <<< 40 ^^^ (w.extractLsb' 32 8).toNat <<< 32 ^^^ (w.extractLsb' 24 8).toNat <<< 24 ^^^
      (w.extractLsb' 16 8).toNat <<< 16 ^^^ (w.extractLsb' 8 8).toNat <<< 8 ^^^ (w.extractLsb' 0 8).toNat := by
  have h : ∀ k, k < 8 → w.toNat % 2 ^ (8 * k + 8) =
      (w.extractLsb' (8 * k) 8).toNat <<< (8 * k) ^^^ w.toNat % 2 ^ (8 * k) := by
    intro k _
    rw [← shiftLeft_add_eq_xor (Nat.mod_lt _ (Nat.two_pow_pos _)), BitVec.extractLsb'_toNat, Nat.shiftRight_eq_div_pow,
      Nat.pow_add, Nat.mod_mul, Nat.add_comm, Nat.mul_comm (2 ^ (8 * k))]
  have hw : w.toNat = w.toNat % 2 ^ (8 * 7 + 8) := (Nat.mod_eq_of_lt w.isLt).symm
  rw [hw, h 7 (by omega), show 8 * 7 = 8 * 6 + 8 from rfl, h 6 (by omega), show 8 * 6 = 8 * 5 + 8 from rfl, h 5 (by omega),
    show 8 * 5 = 8 * 4 + 8 from rfl, h 4 (by omega), show 8 * 4 = 8 * 3 + 8 from rfl, h 3 (by omega),
    show 8 * 3 = 8 * 2 + 8 from rfl, h 2 (by omega), show 8 * 2 = 8 * 1 + 8 from rfl, h 1 (by omega),
    show 8 * 1 = 8 * 0 + 8 from rfl, h 0 (by omega)]
  simp [Nat.mod_one, Nat.xor_assoc]

theorem lookup8_rem (w : Word64) : (lookup8 w).toNat = rem32 (w.toNat <<< 32) := by
  conv_rhs => rw [word64_bytes w]
  simp only [lookup8, BitVec.toNat_xor, table_rem, Nat.shiftLeft_xor_distrib, ← Nat.shiftLeft_add, rem32_xor]

/-- `Step8(crc, bs) = ((crc << 64) ^ (BE(bs) << 32)) mod P`. -/
theorem step8_rem (crc : Word32) {bs : List Byte} (h : bs.length = 8) :
    (step8 crc bs).toNat = rem32 (crc.toNat <<< 64 ^^^ be bs <<< 32) := by
  have hb : be bs < 2 ^ 64 := by have := be_lt bs; rwa [h] at this
  have hc : (crc.setWidth 64 <<< 32 : Word64).toNat = crc.toNat <<< 32 := by
    have := crc.isLt
    rw [BitVec.toNat_shiftLeft, BitVec.toNat_setWidth, Nat.mod_eq_of_lt (a := crc.toNat) (by omega), Nat.shiftLeft_eq,
      Nat.mod_eq_of_lt (by omega)]
  rw [step8, lookup8_rem, BitVec.toNat_xor, BitVec.toNat_ofNat, Nat.mod_eq_of_lt hb, hc, Nat.shiftLeft_xor_distrib,
    ← Nat.shiftLeft_add, Nat.xor_comm]

/-- The remainder of a register followed by a message, on naturals. -/
def messageRem (c : Nat) (m : List Byte) : Nat := rem32 (c <<< (8 * m.length) ^^^ be m <<< 32)

theorem messageRem_append (c : Nat) (m n : List Byte) : messageRem (messageRem c m) n = messageRem c (m ++ n) := by
  have hl : 8 * m.length + 8 * n.length = 8 * (m.length + n.length) := by ring
  simp only [messageRem, rem32_shiftLeft_xor, be_append, Nat.shiftLeft_xor_distrib, ← Nat.shiftLeft_add, Nat.xor_assoc,
    List.length_append, hl, Nat.add_comm 32]

/-- `update_block` is the message remainder, whatever the sizes of its steps. -/
theorem updateBlock_rem (crc : Word32) (m : List Byte) : (updateBlock crc m).toNat = messageRem crc.toNat m := by
  induction crc, m using updateBlock.induct with
  | case1 crc b0 b1 b2 b3 b4 b5 b6 b7 rest ih =>
    rw [updateBlock, ih, step8_rem crc rfl, show b0 :: b1 :: b2 :: b3 :: b4 :: b5 :: b6 :: b7 :: rest =
      [b0, b1, b2, b3, b4, b5, b6, b7] ++ rest from rfl, ← messageRem_append]
    rfl
  | case2 crc b rest hn ih =>
    rw [updateBlock, ih, updateOneByte_rem, show b :: rest = [b] ++ rest from rfl, ← messageRem_append]
    · simp [messageRem, be]
    · exact hn
  | case3 crc => simp [updateBlock, messageRem, rem32_of_lt crc.isLt]

theorem updateBlock_append (crc : Word32) (m n : List Byte) :
    updateBlock crc (m ++ n) = updateBlock (updateBlock crc m) n := by
  apply BitVec.eq_of_toNat_eq
  rw [updateBlock_rem, updateBlock_rem, updateBlock_rem, messageRem_append]

@[simp] theorem updateBlock_nil (crc : Word32) : updateBlock crc [] = crc := by simp [updateBlock]

theorem updateBlock_one (crc : Word32) (b : Byte) : updateBlock crc [b] = updateOneByte crc b := by
  apply BitVec.eq_of_toNat_eq
  rw [updateBlock_rem, updateOneByte_rem]
  simp [messageRem, be]

theorem updateBlock_eight (crc : Word32) {bs : List Byte} (h : bs.length = 8) : updateBlock crc bs = step8 crc bs := by
  apply BitVec.eq_of_toNat_eq
  rw [updateBlock_rem, step8_rem crc h, messageRem, h]

end Sys2Proof.Machine
end

