-- ==== Sys2Proof/Laws/Fold.lean ====
section
/-! SUPPORT. The fold engine's arithmetic on naturals: the multiply is the carry-less product, a fold moves the accumulator up
in degree modulo P, and the reduction is a remainder. -/

namespace Sys2Proof.Machine

/-! ## Constants -/

theorem xpowLoop_cong {g : Generator} (hg : g.inDomain = true) (n : Nat) {v : Nat} (hv : v < 2 ^ g.width) :
    xpowLoop g n v < 2 ^ g.width ∧ Cong g (v <<< n) (xpowLoop g n v) := by
  induction n generalizing v with
  | zero => exact ⟨hv, Cong.refl _⟩
  | succ n ih =>
    have hs := xpowStep_cong hg hv
    have := ih hs.1
    refine ⟨this.1, Cong.trans ?_ this.2⟩
    rw [Nat.add_comm, Nat.shiftLeft_add]
    exact hs.2.shiftLeft n

/-- `XpowMod(e)` is congruent to `x^e`, and narrower than the generator. -/
theorem xpowMod_cong {g : Generator} (hg : g.inDomain = true) (e : Nat) :
    xpowMod g e < 2 ^ g.width ∧ Cong g (1 <<< e) (xpowMod g e) := by
  have hd := hg
  simp only [Generator.inDomain, Bool.and_eq_true, decide_eq_true_eq] at hd
  unfold xpowMod
  split
  · rename_i h
    rw [Nat.one_shiftLeft]
    exact ⟨Nat.pow_lt_pow_right (by omega) h, Cong.refl _⟩
  · rename_i h
    have := xpowLoop_cong hg (e - g.width) hd.2
    refine ⟨this.1, Cong.trans ?_ this.2⟩
    have he : 1 <<< e = (1 <<< g.width) <<< (e - g.width) := by
      rw [← Nat.shiftLeft_add]; congr 1; omega
    rw [he]
    apply Cong.shiftLeft
    refine ⟨1, ?_⟩
    rw [gfMul_one_left, Generator.poly, Nat.one_shiftLeft]

theorem xpow32_lt (e : Nat) : xpowMod Config.crc32 e < 2 ^ 32 := (xpowMod_cong crc32_inDomain e).1

/-- A 64-bit constant register holds its power's remainder. -/
theorem toNat_ofNat_xpow (e : Nat) : (BitVec.ofNat 64 (xpowMod Config.crc32 e)).toNat = xpowMod Config.crc32 e := by
  rw [BitVec.toNat_ofNat, Nat.mod_eq_of_lt]
  exact Nat.lt_trans (xpow32_lt e) (by decide)

/-! ## The multiply -/

theorem clmulTerms_toNat (a b : Word64) (n : Nat) (hn : n ≤ 64) :
    (clmulTerms a b n).toNat = gfMulTerms a.toNat b.toNat n := by
  induction n with
  | zero => rfl
  | succ n ih =>
    rw [clmulTerms, BitVec.toNat_xor, ih (by omega), gfMulTerms_succ]
    congr 1
    rw [show b.getLsbD n = b.toNat.testBit n from rfl]
    split
    · have ha : a.toNat <<< n < 2 ^ 128 := by
        rw [Nat.shiftLeft_eq]
        calc a.toNat * 2 ^ n < 2 ^ 64 * 2 ^ n := Nat.mul_lt_mul_of_pos_right a.isLt (Nat.two_pow_pos n)
          _ = 2 ^ (64 + n) := (Nat.pow_add _ _ _).symm
          _ ≤ 2 ^ 128 := Nat.pow_le_pow_right (by omega) (by omega)
      have hw : (a.setWidth 128).toNat = a.toNat := by
        rw [BitVec.toNat_setWidth]; exact Nat.mod_eq_of_lt (Nat.lt_trans a.isLt (by decide))
      rw [BitVec.toNat_shiftLeft, hw, Nat.mod_eq_of_lt ha]
    · rfl

/-- `clmul64` is the carry-less product of its operands. -/
theorem clmul64_toNat (a b : Word64) : (clmul64 a b).toNat = gfMul a.toNat b.toNat := by
  rw [clmul64, clmulTerms_toNat _ _ _ (Nat.le_refl _)]
  exact gfMulTerms_of_ge (bitlength_le_iff.2 b.isLt)

/-! ## The fold -/

/-- An accumulator as its two halves in place. -/
theorem vec128_halves (a : Vec128) :
    a.toNat = (a.extractLsb' 64 64).toNat <<< 64 ^^^ (a.extractLsb' 0 64).toNat := by
  rw [← shiftLeft_add_eq_xor (a.extractLsb' 0 64).isLt, BitVec.extractLsb'_toNat, BitVec.extractLsb'_toNat,
    Nat.shiftRight_eq_div_pow, Nat.shiftRight_zero]
  have := a.isLt
  omega

/-- A fold by the powers `D` and `D + 64` moves the accumulator `D` degrees up, modulo P. -/
theorem foldAcc_rem (a : Vec128) (d : Nat) {klo khi : Word64} (hlo : klo.toNat = xpowMod Config.crc32 d)
    (hhi : khi.toNat = xpowMod Config.crc32 (d + 64)) : rem32 (foldAcc a klo khi).toNat = rem32 (a.toNat <<< d) := by
  refine (polymod_eq_iff crc32_inDomain).2 ?_
  rw [foldAcc, BitVec.toNat_xor, clmul64_toNat, clmul64_toNat, hlo, hhi]
  conv_rhs => rw [vec128_halves a, Nat.shiftLeft_xor_distrib, ← Nat.shiftLeft_add, Nat.add_comm 64 d]
  refine Cong.symm (Cong.xor ?_ ?_)
  · rw [← gfMul_two_pow_right]
    exact (xpowMod_cong crc32_inDomain _).2.gfMul_left _
  · rw [← gfMul_two_pow_right]
    exact (xpowMod_cong crc32_inDomain _).2.gfMul_left _

theorem foldK1_rem (a : Vec128) : rem32 (foldK1 a).toNat = rem32 (a.toNat <<< 128) :=
  foldAcc_rem a 128 (toNat_ofNat_xpow _) (toNat_ofNat_xpow _)

theorem foldK4_rem (a : Vec128) : rem32 (foldK4 a).toNat = rem32 (a.toNat <<< 512) :=
  foldAcc_rem a 512 (toNat_ofNat_xpow _) (toNat_ofNat_xpow _)

/-! ## The reduction -/

/-- The reduction of an accumulator: `(ACC[0] << 32) mod P`. -/
theorem reduce_rem (a : Vec128) : (updateBlock 0 (accBytes a)).toNat = rem32 (a.toNat <<< 32) := by
  rw [updateBlock_rem, messageRem, be_accBytes]
  simp

end Sys2Proof.Machine
end

