-- ==== Sys2Proof/Laws/State.lean ====
section
/-! SUPPORT. One lemma per field per named update of State, each true by rfl. -/

namespace Sys2Proof.Machine.State

variable (s : State)

@[simp] theorem setCrc_crc (v : Word32) : (s.setCrc v).crc = v := rfl
@[simp] theorem setCrc_ptr (v : Word32) : (s.setCrc v).ptr = s.ptr := rfl
@[simp] theorem setCrc_len (v : Word32) : (s.setCrc v).len = s.len := rfl
@[simp] theorem setCrc_total (v : Word32) : (s.setCrc v).total = s.total := rfl
@[simp] theorem setCrc_result (v : Word32) : (s.setCrc v).result = s.result := rfl
@[simp] theorem setCrc_stream (v : Word32) : (s.setCrc v).stream = s.stream := rfl
@[simp] theorem setCrc_sel (v : Word32) : (s.setCrc v).sel = s.sel := rfl
@[simp] theorem setCrc_err (v : Word32) : (s.setCrc v).err = s.err := rfl
@[simp] theorem setCrc_cap (v : Word32) : (s.setCrc v).cap = s.cap := rfl
@[simp] theorem setCrc_acc0 (v : Word32) : (s.setCrc v).acc0 = s.acc0 := rfl
@[simp] theorem setCrc_acc1 (v : Word32) : (s.setCrc v).acc1 = s.acc1 := rfl
@[simp] theorem setCrc_acc2 (v : Word32) : (s.setCrc v).acc2 = s.acc2 := rfl
@[simp] theorem setCrc_acc3 (v : Word32) : (s.setCrc v).acc3 = s.acc3 := rfl
@[simp] theorem setCrc_four (v : Word32) : (s.setCrc v).four = s.four := rfl
@[simp] theorem setCrc_phase (v : Word32) : (s.setCrc v).phase = s.phase := rfl
@[simp] theorem setCrc_mem (v : Word32) : (s.setCrc v).mem = s.mem := rfl
@[simp] theorem setCrc_inbox (v : Word32) : (s.setCrc v).inbox = s.inbox := rfl
@[simp] theorem setCrc_reply (v : Word32) : (s.setCrc v).reply = s.reply := rfl

@[simp] theorem setPtr_crc (v : Word64) : (s.setPtr v).crc = s.crc := rfl
@[simp] theorem setPtr_ptr (v : Word64) : (s.setPtr v).ptr = v := rfl
@[simp] theorem setPtr_len (v : Word64) : (s.setPtr v).len = s.len := rfl
@[simp] theorem setPtr_total (v : Word64) : (s.setPtr v).total = s.total := rfl
@[simp] theorem setPtr_result (v : Word64) : (s.setPtr v).result = s.result := rfl
@[simp] theorem setPtr_stream (v : Word64) : (s.setPtr v).stream = s.stream := rfl
@[simp] theorem setPtr_sel (v : Word64) : (s.setPtr v).sel = s.sel := rfl
@[simp] theorem setPtr_err (v : Word64) : (s.setPtr v).err = s.err := rfl
@[simp] theorem setPtr_cap (v : Word64) : (s.setPtr v).cap = s.cap := rfl
@[simp] theorem setPtr_acc0 (v : Word64) : (s.setPtr v).acc0 = s.acc0 := rfl
@[simp] theorem setPtr_acc1 (v : Word64) : (s.setPtr v).acc1 = s.acc1 := rfl
@[simp] theorem setPtr_acc2 (v : Word64) : (s.setPtr v).acc2 = s.acc2 := rfl
@[simp] theorem setPtr_acc3 (v : Word64) : (s.setPtr v).acc3 = s.acc3 := rfl
@[simp] theorem setPtr_four (v : Word64) : (s.setPtr v).four = s.four := rfl
@[simp] theorem setPtr_phase (v : Word64) : (s.setPtr v).phase = s.phase := rfl
@[simp] theorem setPtr_mem (v : Word64) : (s.setPtr v).mem = s.mem := rfl
@[simp] theorem setPtr_inbox (v : Word64) : (s.setPtr v).inbox = s.inbox := rfl
@[simp] theorem setPtr_reply (v : Word64) : (s.setPtr v).reply = s.reply := rfl

@[simp] theorem setLen_crc (v : Word64) : (s.setLen v).crc = s.crc := rfl
@[simp] theorem setLen_ptr (v : Word64) : (s.setLen v).ptr = s.ptr := rfl
@[simp] theorem setLen_len (v : Word64) : (s.setLen v).len = v := rfl
@[simp] theorem setLen_total (v : Word64) : (s.setLen v).total = s.total := rfl
@[simp] theorem setLen_result (v : Word64) : (s.setLen v).result = s.result := rfl
@[simp] theorem setLen_stream (v : Word64) : (s.setLen v).stream = s.stream := rfl
@[simp] theorem setLen_sel (v : Word64) : (s.setLen v).sel = s.sel := rfl
@[simp] theorem setLen_err (v : Word64) : (s.setLen v).err = s.err := rfl
@[simp] theorem setLen_cap (v : Word64) : (s.setLen v).cap = s.cap := rfl
@[simp] theorem setLen_acc0 (v : Word64) : (s.setLen v).acc0 = s.acc0 := rfl
@[simp] theorem setLen_acc1 (v : Word64) : (s.setLen v).acc1 = s.acc1 := rfl
@[simp] theorem setLen_acc2 (v : Word64) : (s.setLen v).acc2 = s.acc2 := rfl
@[simp] theorem setLen_acc3 (v : Word64) : (s.setLen v).acc3 = s.acc3 := rfl
@[simp] theorem setLen_four (v : Word64) : (s.setLen v).four = s.four := rfl
@[simp] theorem setLen_phase (v : Word64) : (s.setLen v).phase = s.phase := rfl
@[simp] theorem setLen_mem (v : Word64) : (s.setLen v).mem = s.mem := rfl
@[simp] theorem setLen_inbox (v : Word64) : (s.setLen v).inbox = s.inbox := rfl
@[simp] theorem setLen_reply (v : Word64) : (s.setLen v).reply = s.reply := rfl

@[simp] theorem advance_crc (k : Word64) : (s.advance k).crc = s.crc := rfl
@[simp] theorem advance_ptr (k : Word64) : (s.advance k).ptr = s.ptr + k := rfl
@[simp] theorem advance_len (k : Word64) : (s.advance k).len = s.len - k := rfl
@[simp] theorem advance_total (k : Word64) : (s.advance k).total = s.total := rfl
@[simp] theorem advance_result (k : Word64) : (s.advance k).result = s.result := rfl
@[simp] theorem advance_stream (k : Word64) : (s.advance k).stream = s.stream := rfl
@[simp] theorem advance_sel (k : Word64) : (s.advance k).sel = s.sel := rfl
@[simp] theorem advance_err (k : Word64) : (s.advance k).err = s.err := rfl
@[simp] theorem advance_cap (k : Word64) : (s.advance k).cap = s.cap := rfl
@[simp] theorem advance_acc0 (k : Word64) : (s.advance k).acc0 = s.acc0 := rfl
@[simp] theorem advance_acc1 (k : Word64) : (s.advance k).acc1 = s.acc1 := rfl
@[simp] theorem advance_acc2 (k : Word64) : (s.advance k).acc2 = s.acc2 := rfl
@[simp] theorem advance_acc3 (k : Word64) : (s.advance k).acc3 = s.acc3 := rfl
@[simp] theorem advance_four (k : Word64) : (s.advance k).four = s.four := rfl
@[simp] theorem advance_phase (k : Word64) : (s.advance k).phase = s.phase := rfl
@[simp] theorem advance_mem (k : Word64) : (s.advance k).mem = s.mem := rfl
@[simp] theorem advance_inbox (k : Word64) : (s.advance k).inbox = s.inbox := rfl
@[simp] theorem advance_reply (k : Word64) : (s.advance k).reply = s.reply := rfl

@[simp] theorem setSel_crc (v : Sel) : (s.setSel v).crc = s.crc := rfl
@[simp] theorem setSel_ptr (v : Sel) : (s.setSel v).ptr = s.ptr := rfl
@[simp] theorem setSel_len (v : Sel) : (s.setSel v).len = s.len := rfl
@[simp] theorem setSel_total (v : Sel) : (s.setSel v).total = s.total := rfl
@[simp] theorem setSel_result (v : Sel) : (s.setSel v).result = s.result := rfl
@[simp] theorem setSel_stream (v : Sel) : (s.setSel v).stream = s.stream := rfl
@[simp] theorem setSel_sel (v : Sel) : (s.setSel v).sel = v := rfl
@[simp] theorem setSel_err (v : Sel) : (s.setSel v).err = s.err := rfl
@[simp] theorem setSel_cap (v : Sel) : (s.setSel v).cap = s.cap := rfl
@[simp] theorem setSel_acc0 (v : Sel) : (s.setSel v).acc0 = s.acc0 := rfl
@[simp] theorem setSel_acc1 (v : Sel) : (s.setSel v).acc1 = s.acc1 := rfl
@[simp] theorem setSel_acc2 (v : Sel) : (s.setSel v).acc2 = s.acc2 := rfl
@[simp] theorem setSel_acc3 (v : Sel) : (s.setSel v).acc3 = s.acc3 := rfl
@[simp] theorem setSel_four (v : Sel) : (s.setSel v).four = s.four := rfl
@[simp] theorem setSel_phase (v : Sel) : (s.setSel v).phase = s.phase := rfl
@[simp] theorem setSel_mem (v : Sel) : (s.setSel v).mem = s.mem := rfl
@[simp] theorem setSel_inbox (v : Sel) : (s.setSel v).inbox = s.inbox := rfl
@[simp] theorem setSel_reply (v : Sel) : (s.setSel v).reply = s.reply := rfl

@[simp] theorem count_crc (k : Word64) : (s.count k).crc = s.crc := rfl
@[simp] theorem count_ptr (k : Word64) : (s.count k).ptr = s.ptr := rfl
@[simp] theorem count_len (k : Word64) : (s.count k).len = s.len := rfl
@[simp] theorem count_total (k : Word64) : (s.count k).total = s.total + k := rfl
@[simp] theorem count_result (k : Word64) : (s.count k).result = s.result := rfl
@[simp] theorem count_stream (k : Word64) : (s.count k).stream = .running := rfl
@[simp] theorem count_sel (k : Word64) : (s.count k).sel = s.sel := rfl
@[simp] theorem count_err (k : Word64) : (s.count k).err = s.err := rfl
@[simp] theorem count_cap (k : Word64) : (s.count k).cap = s.cap := rfl
@[simp] theorem count_acc0 (k : Word64) : (s.count k).acc0 = s.acc0 := rfl
@[simp] theorem count_acc1 (k : Word64) : (s.count k).acc1 = s.acc1 := rfl
@[simp] theorem count_acc2 (k : Word64) : (s.count k).acc2 = s.acc2 := rfl
@[simp] theorem count_acc3 (k : Word64) : (s.count k).acc3 = s.acc3 := rfl
@[simp] theorem count_four (k : Word64) : (s.count k).four = s.four := rfl
@[simp] theorem count_phase (k : Word64) : (s.count k).phase = s.phase := rfl
@[simp] theorem count_mem (k : Word64) : (s.count k).mem = s.mem := rfl
@[simp] theorem count_inbox (k : Word64) : (s.count k).inbox = s.inbox := rfl
@[simp] theorem count_reply (k : Word64) : (s.count k).reply = s.reply := rfl

@[simp] theorem finish_crc (v : Word32) : (s.finish v).crc = s.crc := rfl
@[simp] theorem finish_ptr (v : Word32) : (s.finish v).ptr = s.ptr := rfl
@[simp] theorem finish_len (v : Word32) : (s.finish v).len = s.len := rfl
@[simp] theorem finish_total (v : Word32) : (s.finish v).total = s.total := rfl
@[simp] theorem finish_result (v : Word32) : (s.finish v).result = v := rfl
@[simp] theorem finish_stream (v : Word32) : (s.finish v).stream = .finalized := rfl
@[simp] theorem finish_sel (v : Word32) : (s.finish v).sel = s.sel := rfl
@[simp] theorem finish_err (v : Word32) : (s.finish v).err = s.err := rfl
@[simp] theorem finish_cap (v : Word32) : (s.finish v).cap = s.cap := rfl
@[simp] theorem finish_acc0 (v : Word32) : (s.finish v).acc0 = s.acc0 := rfl
@[simp] theorem finish_acc1 (v : Word32) : (s.finish v).acc1 = s.acc1 := rfl
@[simp] theorem finish_acc2 (v : Word32) : (s.finish v).acc2 = s.acc2 := rfl
@[simp] theorem finish_acc3 (v : Word32) : (s.finish v).acc3 = s.acc3 := rfl
@[simp] theorem finish_four (v : Word32) : (s.finish v).four = s.four := rfl
@[simp] theorem finish_phase (v : Word32) : (s.finish v).phase = s.phase := rfl
@[simp] theorem finish_mem (v : Word32) : (s.finish v).mem = s.mem := rfl
@[simp] theorem finish_inbox (v : Word32) : (s.finish v).inbox = s.inbox := rfl
@[simp] theorem finish_reply (v : Word32) : (s.finish v).reply = s.reply := rfl

@[simp] theorem setPhase_crc (p : Phase) : (s.setPhase p).crc = s.crc := rfl
@[simp] theorem setPhase_ptr (p : Phase) : (s.setPhase p).ptr = s.ptr := rfl
@[simp] theorem setPhase_len (p : Phase) : (s.setPhase p).len = s.len := rfl
@[simp] theorem setPhase_total (p : Phase) : (s.setPhase p).total = s.total := rfl
@[simp] theorem setPhase_result (p : Phase) : (s.setPhase p).result = s.result := rfl
@[simp] theorem setPhase_stream (p : Phase) : (s.setPhase p).stream = s.stream := rfl
@[simp] theorem setPhase_sel (p : Phase) : (s.setPhase p).sel = s.sel := rfl
@[simp] theorem setPhase_err (p : Phase) : (s.setPhase p).err = s.err := rfl
@[simp] theorem setPhase_cap (p : Phase) : (s.setPhase p).cap = s.cap := rfl
@[simp] theorem setPhase_acc0 (p : Phase) : (s.setPhase p).acc0 = s.acc0 := rfl
@[simp] theorem setPhase_acc1 (p : Phase) : (s.setPhase p).acc1 = s.acc1 := rfl
@[simp] theorem setPhase_acc2 (p : Phase) : (s.setPhase p).acc2 = s.acc2 := rfl
@[simp] theorem setPhase_acc3 (p : Phase) : (s.setPhase p).acc3 = s.acc3 := rfl
@[simp] theorem setPhase_four (p : Phase) : (s.setPhase p).four = s.four := rfl
@[simp] theorem setPhase_phase (p : Phase) : (s.setPhase p).phase = p := rfl
@[simp] theorem setPhase_mem (p : Phase) : (s.setPhase p).mem = s.mem := rfl
@[simp] theorem setPhase_inbox (p : Phase) : (s.setPhase p).inbox = s.inbox := rfl
@[simp] theorem setPhase_reply (p : Phase) : (s.setPhase p).reply = s.reply := rfl

@[simp] theorem setFour_crc (b : Bool) : (s.setFour b).crc = s.crc := rfl
@[simp] theorem setFour_ptr (b : Bool) : (s.setFour b).ptr = s.ptr := rfl
@[simp] theorem setFour_len (b : Bool) : (s.setFour b).len = s.len := rfl
@[simp] theorem setFour_total (b : Bool) : (s.setFour b).total = s.total := rfl
@[simp] theorem setFour_result (b : Bool) : (s.setFour b).result = s.result := rfl
@[simp] theorem setFour_stream (b : Bool) : (s.setFour b).stream = s.stream := rfl
@[simp] theorem setFour_sel (b : Bool) : (s.setFour b).sel = s.sel := rfl
@[simp] theorem setFour_err (b : Bool) : (s.setFour b).err = s.err := rfl
@[simp] theorem setFour_cap (b : Bool) : (s.setFour b).cap = s.cap := rfl
@[simp] theorem setFour_acc0 (b : Bool) : (s.setFour b).acc0 = s.acc0 := rfl
@[simp] theorem setFour_acc1 (b : Bool) : (s.setFour b).acc1 = s.acc1 := rfl
@[simp] theorem setFour_acc2 (b : Bool) : (s.setFour b).acc2 = s.acc2 := rfl
@[simp] theorem setFour_acc3 (b : Bool) : (s.setFour b).acc3 = s.acc3 := rfl
@[simp] theorem setFour_four (b : Bool) : (s.setFour b).four = b := rfl
@[simp] theorem setFour_phase (b : Bool) : (s.setFour b).phase = s.phase := rfl
@[simp] theorem setFour_mem (b : Bool) : (s.setFour b).mem = s.mem := rfl
@[simp] theorem setFour_inbox (b : Bool) : (s.setFour b).inbox = s.inbox := rfl
@[simp] theorem setFour_reply (b : Bool) : (s.setFour b).reply = s.reply := rfl

@[simp] theorem setAcc0_crc (v : Vec128) : (s.setAcc0 v).crc = s.crc := rfl
@[simp] theorem setAcc0_ptr (v : Vec128) : (s.setAcc0 v).ptr = s.ptr := rfl
@[simp] theorem setAcc0_len (v : Vec128) : (s.setAcc0 v).len = s.len := rfl
@[simp] theorem setAcc0_total (v : Vec128) : (s.setAcc0 v).total = s.total := rfl
@[simp] theorem setAcc0_result (v : Vec128) : (s.setAcc0 v).result = s.result := rfl
@[simp] theorem setAcc0_stream (v : Vec128) : (s.setAcc0 v).stream = s.stream := rfl
@[simp] theorem setAcc0_sel (v : Vec128) : (s.setAcc0 v).sel = s.sel := rfl
@[simp] theorem setAcc0_err (v : Vec128) : (s.setAcc0 v).err = s.err := rfl
@[simp] theorem setAcc0_cap (v : Vec128) : (s.setAcc0 v).cap = s.cap := rfl
@[simp] theorem setAcc0_acc0 (v : Vec128) : (s.setAcc0 v).acc0 = ⟨v, true⟩ := rfl
@[simp] theorem setAcc0_acc1 (v : Vec128) : (s.setAcc0 v).acc1 = s.acc1 := rfl
@[simp] theorem setAcc0_acc2 (v : Vec128) : (s.setAcc0 v).acc2 = s.acc2 := rfl
@[simp] theorem setAcc0_acc3 (v : Vec128) : (s.setAcc0 v).acc3 = s.acc3 := rfl
@[simp] theorem setAcc0_four (v : Vec128) : (s.setAcc0 v).four = s.four := rfl
@[simp] theorem setAcc0_phase (v : Vec128) : (s.setAcc0 v).phase = s.phase := rfl
@[simp] theorem setAcc0_mem (v : Vec128) : (s.setAcc0 v).mem = s.mem := rfl
@[simp] theorem setAcc0_inbox (v : Vec128) : (s.setAcc0 v).inbox = s.inbox := rfl
@[simp] theorem setAcc0_reply (v : Vec128) : (s.setAcc0 v).reply = s.reply := rfl

@[simp] theorem setAcc123_crc (v1 v2 v3 : Vec128) : (s.setAcc123 v1 v2 v3).crc = s.crc := rfl
@[simp] theorem setAcc123_ptr (v1 v2 v3 : Vec128) : (s.setAcc123 v1 v2 v3).ptr = s.ptr := rfl
@[simp] theorem setAcc123_len (v1 v2 v3 : Vec128) : (s.setAcc123 v1 v2 v3).len = s.len := rfl
@[simp] theorem setAcc123_total (v1 v2 v3 : Vec128) : (s.setAcc123 v1 v2 v3).total = s.total := rfl
@[simp] theorem setAcc123_result (v1 v2 v3 : Vec128) : (s.setAcc123 v1 v2 v3).result = s.result := rfl
@[simp] theorem setAcc123_stream (v1 v2 v3 : Vec128) : (s.setAcc123 v1 v2 v3).stream = s.stream := rfl
@[simp] theorem setAcc123_sel (v1 v2 v3 : Vec128) : (s.setAcc123 v1 v2 v3).sel = s.sel := rfl
@[simp] theorem setAcc123_err (v1 v2 v3 : Vec128) : (s.setAcc123 v1 v2 v3).err = s.err := rfl
@[simp] theorem setAcc123_cap (v1 v2 v3 : Vec128) : (s.setAcc123 v1 v2 v3).cap = s.cap := rfl
@[simp] theorem setAcc123_acc0 (v1 v2 v3 : Vec128) : (s.setAcc123 v1 v2 v3).acc0 = s.acc0 := rfl
@[simp] theorem setAcc123_acc1 (v1 v2 v3 : Vec128) : (s.setAcc123 v1 v2 v3).acc1 = ⟨v1, true⟩ := rfl
@[simp] theorem setAcc123_acc2 (v1 v2 v3 : Vec128) : (s.setAcc123 v1 v2 v3).acc2 = ⟨v2, true⟩ := rfl
@[simp] theorem setAcc123_acc3 (v1 v2 v3 : Vec128) : (s.setAcc123 v1 v2 v3).acc3 = ⟨v3, true⟩ := rfl
@[simp] theorem setAcc123_four (v1 v2 v3 : Vec128) : (s.setAcc123 v1 v2 v3).four = s.four := rfl
@[simp] theorem setAcc123_phase (v1 v2 v3 : Vec128) : (s.setAcc123 v1 v2 v3).phase = s.phase := rfl
@[simp] theorem setAcc123_mem (v1 v2 v3 : Vec128) : (s.setAcc123 v1 v2 v3).mem = s.mem := rfl
@[simp] theorem setAcc123_inbox (v1 v2 v3 : Vec128) : (s.setAcc123 v1 v2 v3).inbox = s.inbox := rfl
@[simp] theorem setAcc123_reply (v1 v2 v3 : Vec128) : (s.setAcc123 v1 v2 v3).reply = s.reply := rfl

@[simp] theorem forgetAccs_crc : s.forgetAccs.crc = s.crc := rfl
@[simp] theorem forgetAccs_ptr : s.forgetAccs.ptr = s.ptr := rfl
@[simp] theorem forgetAccs_len : s.forgetAccs.len = s.len := rfl
@[simp] theorem forgetAccs_total : s.forgetAccs.total = s.total := rfl
@[simp] theorem forgetAccs_result : s.forgetAccs.result = s.result := rfl
@[simp] theorem forgetAccs_stream : s.forgetAccs.stream = s.stream := rfl
@[simp] theorem forgetAccs_sel : s.forgetAccs.sel = s.sel := rfl
@[simp] theorem forgetAccs_err : s.forgetAccs.err = s.err := rfl
@[simp] theorem forgetAccs_cap : s.forgetAccs.cap = s.cap := rfl
@[simp] theorem forgetAccs_acc0 : s.forgetAccs.acc0 = ⟨s.acc0.value, false⟩ := rfl
@[simp] theorem forgetAccs_acc1 : s.forgetAccs.acc1 = ⟨s.acc1.value, false⟩ := rfl
@[simp] theorem forgetAccs_acc2 : s.forgetAccs.acc2 = ⟨s.acc2.value, false⟩ := rfl
@[simp] theorem forgetAccs_acc3 : s.forgetAccs.acc3 = ⟨s.acc3.value, false⟩ := rfl
@[simp] theorem forgetAccs_four : s.forgetAccs.four = s.four := rfl
@[simp] theorem forgetAccs_phase : s.forgetAccs.phase = s.phase := rfl
@[simp] theorem forgetAccs_mem : s.forgetAccs.mem = s.mem := rfl
@[simp] theorem forgetAccs_inbox : s.forgetAccs.inbox = s.inbox := rfl
@[simp] theorem forgetAccs_reply : s.forgetAccs.reply = s.reply := rfl

@[simp] theorem setReply_crc (r : Reply) : (s.setReply r).crc = s.crc := rfl
@[simp] theorem setReply_ptr (r : Reply) : (s.setReply r).ptr = s.ptr := rfl
@[simp] theorem setReply_len (r : Reply) : (s.setReply r).len = s.len := rfl
@[simp] theorem setReply_total (r : Reply) : (s.setReply r).total = s.total := rfl
@[simp] theorem setReply_result (r : Reply) : (s.setReply r).result = s.result := rfl
@[simp] theorem setReply_stream (r : Reply) : (s.setReply r).stream = s.stream := rfl
@[simp] theorem setReply_sel (r : Reply) : (s.setReply r).sel = s.sel := rfl
@[simp] theorem setReply_err (r : Reply) : (s.setReply r).err = s.err := rfl
@[simp] theorem setReply_cap (r : Reply) : (s.setReply r).cap = s.cap := rfl
@[simp] theorem setReply_acc0 (r : Reply) : (s.setReply r).acc0 = s.acc0 := rfl
@[simp] theorem setReply_acc1 (r : Reply) : (s.setReply r).acc1 = s.acc1 := rfl
@[simp] theorem setReply_acc2 (r : Reply) : (s.setReply r).acc2 = s.acc2 := rfl
@[simp] theorem setReply_acc3 (r : Reply) : (s.setReply r).acc3 = s.acc3 := rfl
@[simp] theorem setReply_four (r : Reply) : (s.setReply r).four = s.four := rfl
@[simp] theorem setReply_phase (r : Reply) : (s.setReply r).phase = s.phase := rfl
@[simp] theorem setReply_mem (r : Reply) : (s.setReply r).mem = s.mem := rfl
@[simp] theorem setReply_inbox (r : Reply) : (s.setReply r).inbox = s.inbox := rfl
@[simp] theorem setReply_reply (r : Reply) : (s.setReply r).reply = some r := rfl

@[simp] theorem setInbox_crc (q : List HostEvent) : (s.setInbox q).crc = s.crc := rfl
@[simp] theorem setInbox_ptr (q : List HostEvent) : (s.setInbox q).ptr = s.ptr := rfl
@[simp] theorem setInbox_len (q : List HostEvent) : (s.setInbox q).len = s.len := rfl
@[simp] theorem setInbox_total (q : List HostEvent) : (s.setInbox q).total = s.total := rfl
@[simp] theorem setInbox_result (q : List HostEvent) : (s.setInbox q).result = s.result := rfl
@[simp] theorem setInbox_stream (q : List HostEvent) : (s.setInbox q).stream = s.stream := rfl
@[simp] theorem setInbox_sel (q : List HostEvent) : (s.setInbox q).sel = s.sel := rfl
@[simp] theorem setInbox_err (q : List HostEvent) : (s.setInbox q).err = s.err := rfl
@[simp] theorem setInbox_cap (q : List HostEvent) : (s.setInbox q).cap = s.cap := rfl
@[simp] theorem setInbox_acc0 (q : List HostEvent) : (s.setInbox q).acc0 = s.acc0 := rfl
@[simp] theorem setInbox_acc1 (q : List HostEvent) : (s.setInbox q).acc1 = s.acc1 := rfl
@[simp] theorem setInbox_acc2 (q : List HostEvent) : (s.setInbox q).acc2 = s.acc2 := rfl
@[simp] theorem setInbox_acc3 (q : List HostEvent) : (s.setInbox q).acc3 = s.acc3 := rfl
@[simp] theorem setInbox_four (q : List HostEvent) : (s.setInbox q).four = s.four := rfl
@[simp] theorem setInbox_phase (q : List HostEvent) : (s.setInbox q).phase = s.phase := rfl
@[simp] theorem setInbox_mem (q : List HostEvent) : (s.setInbox q).mem = s.mem := rfl
@[simp] theorem setInbox_inbox (q : List HostEvent) : (s.setInbox q).inbox = q := rfl
@[simp] theorem setInbox_reply (q : List HostEvent) : (s.setInbox q).reply = s.reply := rfl

@[simp] theorem storeByte_crc (a : Word64) (b : Option Byte) : (s.storeByte a b).crc = s.crc := rfl
@[simp] theorem storeByte_ptr (a : Word64) (b : Option Byte) : (s.storeByte a b).ptr = s.ptr := rfl
@[simp] theorem storeByte_len (a : Word64) (b : Option Byte) : (s.storeByte a b).len = s.len := rfl
@[simp] theorem storeByte_total (a : Word64) (b : Option Byte) : (s.storeByte a b).total = s.total := rfl
@[simp] theorem storeByte_result (a : Word64) (b : Option Byte) : (s.storeByte a b).result = s.result := rfl
@[simp] theorem storeByte_stream (a : Word64) (b : Option Byte) : (s.storeByte a b).stream = s.stream := rfl
@[simp] theorem storeByte_sel (a : Word64) (b : Option Byte) : (s.storeByte a b).sel = s.sel := rfl
@[simp] theorem storeByte_err (a : Word64) (b : Option Byte) : (s.storeByte a b).err = s.err := rfl
@[simp] theorem storeByte_cap (a : Word64) (b : Option Byte) : (s.storeByte a b).cap = s.cap := rfl
@[simp] theorem storeByte_acc0 (a : Word64) (b : Option Byte) : (s.storeByte a b).acc0 = s.acc0 := rfl
@[simp] theorem storeByte_acc1 (a : Word64) (b : Option Byte) : (s.storeByte a b).acc1 = s.acc1 := rfl
@[simp] theorem storeByte_acc2 (a : Word64) (b : Option Byte) : (s.storeByte a b).acc2 = s.acc2 := rfl
@[simp] theorem storeByte_acc3 (a : Word64) (b : Option Byte) : (s.storeByte a b).acc3 = s.acc3 := rfl
@[simp] theorem storeByte_four (a : Word64) (b : Option Byte) : (s.storeByte a b).four = s.four := rfl
@[simp] theorem storeByte_phase (a : Word64) (b : Option Byte) : (s.storeByte a b).phase = s.phase := rfl
@[simp] theorem storeByte_mem (a : Word64) (b : Option Byte) : (s.storeByte a b).mem = s.mem.set a.toNat b := rfl
@[simp] theorem storeByte_inbox (a : Word64) (b : Option Byte) : (s.storeByte a b).inbox = s.inbox := rfl
@[simp] theorem storeByte_reply (a : Word64) (b : Option Byte) : (s.storeByte a b).reply = s.reply := rfl

@[simp] theorem fail_crc (c : FailCode) : (s.fail c).crc = s.crc := rfl
@[simp] theorem fail_ptr (c : FailCode) : (s.fail c).ptr = s.ptr := rfl
@[simp] theorem fail_len (c : FailCode) : (s.fail c).len = s.len := rfl
@[simp] theorem fail_total (c : FailCode) : (s.fail c).total = s.total := rfl
@[simp] theorem fail_result (c : FailCode) : (s.fail c).result = s.result := rfl
@[simp] theorem fail_stream (c : FailCode) : (s.fail c).stream = .failed := rfl
@[simp] theorem fail_sel (c : FailCode) : (s.fail c).sel = s.sel := rfl
@[simp] theorem fail_err (c : FailCode) : (s.fail c).err = some c := rfl
@[simp] theorem fail_cap (c : FailCode) : (s.fail c).cap = s.cap := rfl
@[simp] theorem fail_acc0 (c : FailCode) : (s.fail c).acc0 = s.acc0 := rfl
@[simp] theorem fail_acc1 (c : FailCode) : (s.fail c).acc1 = s.acc1 := rfl
@[simp] theorem fail_acc2 (c : FailCode) : (s.fail c).acc2 = s.acc2 := rfl
@[simp] theorem fail_acc3 (c : FailCode) : (s.fail c).acc3 = s.acc3 := rfl
@[simp] theorem fail_four (c : FailCode) : (s.fail c).four = s.four := rfl
@[simp] theorem fail_phase (c : FailCode) : (s.fail c).phase = .idle := rfl
@[simp] theorem fail_mem (c : FailCode) : (s.fail c).mem = s.mem := rfl
@[simp] theorem fail_inbox (c : FailCode) : (s.fail c).inbox = s.inbox := rfl
@[simp] theorem fail_reply (c : FailCode) : (s.fail c).reply = s.reply := rfl

@[simp] theorem startStream_crc : s.startStream.crc = 0 := rfl
@[simp] theorem startStream_ptr : s.startStream.ptr = s.ptr := rfl
@[simp] theorem startStream_len : s.startStream.len = s.len := rfl
@[simp] theorem startStream_total : s.startStream.total = 0 := rfl
@[simp] theorem startStream_result : s.startStream.result = 0 := rfl
@[simp] theorem startStream_stream : s.startStream.stream = .start := rfl
@[simp] theorem startStream_sel : s.startStream.sel = s.sel := rfl
@[simp] theorem startStream_err : s.startStream.err = none := rfl
@[simp] theorem startStream_cap : s.startStream.cap = s.cap := rfl
@[simp] theorem startStream_acc0 : s.startStream.acc0 = s.acc0 := rfl
@[simp] theorem startStream_acc1 : s.startStream.acc1 = s.acc1 := rfl
@[simp] theorem startStream_acc2 : s.startStream.acc2 = s.acc2 := rfl
@[simp] theorem startStream_acc3 : s.startStream.acc3 = s.acc3 := rfl
@[simp] theorem startStream_four : s.startStream.four = s.four := rfl
@[simp] theorem startStream_phase : s.startStream.phase = s.phase := rfl
@[simp] theorem startStream_mem : s.startStream.mem = s.mem := rfl
@[simp] theorem startStream_inbox : s.startStream.inbox = s.inbox := rfl
@[simp] theorem startStream_reply : s.startStream.reply = s.reply := rfl

@[simp] theorem resolve_crc : s.resolve.crc = s.crc := rfl
@[simp] theorem resolve_ptr : s.resolve.ptr = s.ptr := rfl
@[simp] theorem resolve_len : s.resolve.len = s.len := rfl
@[simp] theorem resolve_total : s.resolve.total = s.total := rfl
@[simp] theorem resolve_result : s.resolve.result = s.result := rfl
@[simp] theorem resolve_stream : s.resolve.stream = s.stream := rfl
@[simp] theorem resolve_sel : s.resolve.sel = s.resolvedMode.sel := rfl
@[simp] theorem resolve_err : s.resolve.err = s.err := rfl
@[simp] theorem resolve_cap : s.resolve.cap = s.cap := rfl
@[simp] theorem resolve_acc0 : s.resolve.acc0 = s.acc0 := rfl
@[simp] theorem resolve_acc1 : s.resolve.acc1 = s.acc1 := rfl
@[simp] theorem resolve_acc2 : s.resolve.acc2 = s.acc2 := rfl
@[simp] theorem resolve_acc3 : s.resolve.acc3 = s.acc3 := rfl
@[simp] theorem resolve_four : s.resolve.four = s.four := rfl
@[simp] theorem resolve_phase : s.resolve.phase = s.phase := rfl
@[simp] theorem resolve_mem : s.resolve.mem = s.mem := rfl
@[simp] theorem resolve_inbox : s.resolve.inbox = s.inbox := rfl
@[simp] theorem resolve_reply : s.resolve.reply = s.reply := rfl

end Sys2Proof.Machine.State
end

