-- ==== Sys2Proof/Laws/Micro.lean ====
section
/-! SUPPORT. Everything a micro-operation can do: it completes with one named result, it fails with `BUSERR`, or, outside its
preconditions, it stops. -/

namespace Sys2Proof.Machine

/-- The block of sixteen bytes as an accumulator reads it. -/
def blockOf (bs : List Byte) : Vec128 := BitVec.ofNat 128 (be bs)

/-- The accumulators a micro-operation reads are written. -/
def accsReady (u : MicroOp) (s : State) : Prop :=
  match u with
  | .inj | .step8 | .load0 | .loadK => True
  | .fold4 | .collapse => s.acc0.written = true ∧ s.acc1.written = true ∧ s.acc2.written = true ∧ s.acc3.written = true
  | .fold1 | .reduce => s.acc0.written = true

/-- The preconditions of a micro-operation. -/
structure Ready (u : MicroOp) (s : State) : Prop where
  len : u.minLen ≤ s.len.toNat
  aligned : u.wide = true → s.ptr.toNat % 16 = 0
  accs : accsReady u s

/-- The state after a micro-operation that read the bytes `bs`. -/
def microResult (u : MicroOp) (s : State) (bs : List Byte) : State :=
  match u with
  | .inj => (s.setCrc (updateOneByte s.crc (bs.headD 0))).advance 1
  | .step8 => (s.setCrc (step8 s.crc bs)).advance 8
  | .load0 => (((s.setFour (decide (Config.fourWayBytes ≤ s.len.toNat))).setAcc0
      (blockOf bs ^^^ (s.crc.setWidth 128 <<< 96))).setCrc 0).advance 16
  | .loadK => (s.setAcc123 (blockOf (bs.take 16)) (blockOf ((bs.drop 16).take 16)) (blockOf ((bs.drop 32).take 16))).advance 48
  | .fold4 => ((s.setAcc0 (foldK4 s.acc0.value ^^^ blockOf (bs.take 16))).setAcc123
      (foldK4 s.acc1.value ^^^ blockOf ((bs.drop 16).take 16)) (foldK4 s.acc2.value ^^^ blockOf ((bs.drop 32).take 16))
      (foldK4 s.acc3.value ^^^ blockOf ((bs.drop 48).take 16))).advance 64
  | .collapse =>
    let c1 := foldK1 s.acc0.value ^^^ s.acc1.value
    let c2 := foldK1 c1 ^^^ s.acc2.value
    let c3 := foldK1 c2 ^^^ s.acc3.value
    ((s.setAcc123 c1 c2 c3).setAcc0 c3).setFour false
  | .fold1 => (s.setAcc0 (foldK1 s.acc0.value ^^^ blockOf bs)).advance 16
  | .reduce => s.setCrc (updateBlock 0 (accBytes s.acc0.value))

theorem issue_of_ready {u : MicroOp} {s : State} (h : Ready u s) (run : Micro) : issue u s run = run := by
  unfold issue
  rw [if_neg (Nat.not_lt.2 h.len), if_neg]
  rintro ⟨hw, ha⟩
  exact ha (h.aligned hw)

theorem loadBlock_of_read {m : Memory} {a n : Nat} {bs : List Byte} (h : memRead m a n = some bs) {i : Nat}
    (hi : i + 16 ≤ n) : loadBlock m (a + i) = some (blockOf ((bs.drop i).take 16)) := by
  rw [loadBlock_eq, memRead_slice h hi]; rfl

theorem loadBlock_none {m : Memory} {a : Nat} : loadBlock m a = none ↔ memRead m a 16 = none := by
  rw [loadBlock_eq, Option.map_eq_none_iff]

theorem loadBlock_some {m : Memory} {a : Nat} {v : Vec128} (h : loadBlock m a = some v) : ∃ bs, memRead m a 16 = some bs := by
  rw [loadBlock_eq, Option.map_eq_some_iff] at h
  obtain ⟨bs, hb, -⟩ := h
  exact ⟨bs, hb⟩

/-- A micro-operation inside its preconditions completes when all its bytes can be read. -/
theorem runMicro_done {u : MicroOp} {s : State} (h : Ready u s) {bs : List Byte}
    (hr : memRead s.mem s.ptr.toNat u.readBytes = some bs) : runMicro u s = .done (microResult u s bs) := by
  cases u
  case inj => simp only [runMicro, uINJ, issue_of_ready h]; rw [show memRead s.mem s.ptr.toNat 1 = some bs from hr]; rfl
  case step8 => simp only [runMicro, uSTEP8, issue_of_ready h]; rw [show memRead s.mem s.ptr.toNat 8 = some bs from hr]; rfl
  case load0 =>
    have h0 := loadBlock_of_read (i := 0) hr (Nat.le_refl _)
    have hl : bs.take 16 = bs := List.take_of_length_le (Nat.le_of_eq (memRead_length hr))
    simp only [Nat.add_zero, List.drop_zero, hl] at h0
    simp only [runMicro, uLOAD0, issue_of_ready h, h0]; rfl
  case loadK =>
    have h0 := loadBlock_of_read (i := 0) hr (by decide)
    simp only [Nat.add_zero, List.drop_zero] at h0
    simp only [runMicro, uLOADK, issue_of_ready h, h0, loadBlock_of_read (i := 16) hr (by decide),
      loadBlock_of_read (i := 32) hr (by decide)]; rfl
  case fold4 =>
    have h0 := loadBlock_of_read (i := 0) hr (by decide)
    simp only [Nat.add_zero, List.drop_zero] at h0
    obtain ⟨w0, w1, w2, w3⟩ := h.accs
    simp only [runMicro, uFOLD4, issue_of_ready h, onAcc, w0, w1, w2, w3, if_true, h0,
      loadBlock_of_read (i := 16) hr (by decide), loadBlock_of_read (i := 32) hr (by decide),
      loadBlock_of_read (i := 48) hr (by decide)]; rfl
  case collapse =>
    obtain ⟨w0, w1, w2, w3⟩ := h.accs
    simp only [runMicro, uCOLLAPSE, issue_of_ready h, onAcc, w0, w1, w2, w3, if_true]; rfl
  case fold1 =>
    have h0 := loadBlock_of_read (i := 0) hr (Nat.le_refl _)
    have hl : bs.take 16 = bs := List.take_of_length_le (Nat.le_of_eq (memRead_length hr))
    simp only [Nat.add_zero, List.drop_zero, hl] at h0
    have w0 : s.acc0.written = true := h.accs
    simp only [runMicro, uFOLD1, issue_of_ready h, onAcc, w0, if_true, h0]; rfl
  case reduce =>
    have w0 : s.acc0.written = true := h.accs
    simp only [runMicro, uREDUCE, issue_of_ready h, onAcc, w0, if_true]; rfl

/-- A micro-operation inside its preconditions fails, with no state, when one of its bytes cannot be read. -/
theorem runMicro_fail {u : MicroOp} {s : State} (h : Ready u s) (hr : memRead s.mem s.ptr.toNat u.readBytes = none) :
    runMicro u s = .fail .buserr := by
  have three : ∀ a, memRead s.mem a 48 = none → ∀ x y z : Vec128, loadBlock s.mem a = some x → loadBlock s.mem (a + 16) = some y →
      loadBlock s.mem (a + 32) = some z → False := by
    intro a hn x y z hx hy hz
    obtain ⟨p, hp⟩ := loadBlock_some hx
    obtain ⟨q, hq⟩ := loadBlock_some hy
    obtain ⟨r, hr⟩ := loadBlock_some hz
    rw [show 48 = 16 + (16 + 16) from rfl, memRead_add, memRead_add, hp, hq, show a + 16 + 16 = a + 32 from rfl, hr] at hn
    simp at hn
  cases u
  case inj => simp only [runMicro, uINJ, issue_of_ready h]; rw [show memRead s.mem s.ptr.toNat 1 = none from hr]; rfl
  case step8 => simp only [runMicro, uSTEP8, issue_of_ready h]; rw [show memRead s.mem s.ptr.toNat 8 = none from hr]; rfl
  case load0 => simp only [runMicro, uLOAD0, issue_of_ready h, loadBlock_none.2 hr]; rfl
  case loadK =>
    simp only [runMicro, uLOADK, issue_of_ready h]
    cases h1 : loadBlock s.mem s.ptr.toNat with
    | none => rfl
    | some x =>
      cases h2 : loadBlock s.mem (s.ptr.toNat + 16) with
      | none => rfl
      | some y =>
        cases h3 : loadBlock s.mem (s.ptr.toNat + 32) with
        | none => rfl
        | some z => exact (three _ hr x y z h1 h2 h3).elim
  case fold4 =>
    obtain ⟨w0, w1, w2, w3⟩ := h.accs
    simp only [runMicro, uFOLD4, issue_of_ready h, onAcc, w0, w1, w2, w3, if_true]
    cases h1 : loadBlock s.mem s.ptr.toNat with
    | none => rfl
    | some x =>
      cases h2 : loadBlock s.mem (s.ptr.toNat + 16) with
      | none => rfl
      | some y =>
        cases h3 : loadBlock s.mem (s.ptr.toNat + 32) with
        | none => rfl
        | some z =>
          cases h4 : loadBlock s.mem (s.ptr.toNat + 48) with
          | none => rfl
          | some w =>
            exfalso
            obtain ⟨p, hp⟩ := loadBlock_some h1
            rw [show MicroOp.readBytes .fold4 = 16 + 48 from rfl, memRead_add, hp] at hr
            exact three (s.ptr.toNat + 16) (by simpa using hr) y z w h2 h3 h4
  case collapse => simp [MicroOp.readBytes] at hr
  case fold1 =>
    have w0 : s.acc0.written = true := h.accs
    simp only [runMicro, uFOLD1, issue_of_ready h, onAcc, w0, if_true, loadBlock_none.2 hr]; rfl
  case reduce => simp [MicroOp.readBytes] at hr

/-- Outside its preconditions a micro-operation stops. -/
theorem runMicro_not_ready {u : MicroOp} {s : State} (h : ¬ Ready u s) : ∃ f, runMicro u s = .fault f := by
  have hi : ∀ run : Micro, (¬ accsReady u s → ∃ f, run = .fault f) → ∃ f, issue u s run = .fault f := by
    intro run hrun
    unfold issue
    split
    · exact ⟨_, rfl⟩
    · split
      · exact ⟨_, rfl⟩
      · rename_i h1 h2
        refine hrun fun ha => h ⟨Nat.le_of_not_lt h1, ?_, ha⟩
        intro hw
        by_contra hc
        exact h2 ⟨hw, hc⟩
  have acc : ∀ (k : Nat) (a : Acc) (run : Vec128 → Micro), (a.written = true → ∃ f, run a.value = .fault f) →
      ∃ f, onAcc k a run = .fault f := by
    intro k a run hrun
    unfold onAcc
    split
    · exact hrun ‹_›
    · exact ⟨_, rfl⟩
  cases u
  case inj => exact hi _ fun ha => (ha trivial).elim
  case step8 => exact hi _ fun ha => (ha trivial).elim
  case load0 => exact hi _ fun ha => (ha trivial).elim
  case loadK => exact hi _ fun ha => (ha trivial).elim
  case fold4 =>
    exact hi _ fun ha => acc _ _ _ fun w0 => acc _ _ _ fun w1 => acc _ _ _ fun w2 => acc _ _ _ fun w3 =>
      (ha ⟨w0, w1, w2, w3⟩).elim
  case collapse =>
    rw [runMicro, uCOLLAPSE]
    exact hi _ fun ha => acc _ _ _ fun w0 => acc _ _ _ fun w1 => acc _ _ _ fun w2 => acc _ _ _ fun w3 =>
      (ha ⟨w0, w1, w2, w3⟩).elim
  case fold1 => exact hi _ fun ha => acc _ _ _ fun w0 => (ha w0).elim
  case reduce =>
    rw [runMicro, uREDUCE]
    exact hi _ fun ha => acc _ _ _ fun w0 => (ha w0).elim

/-- The three outcomes of a micro-operation. -/
theorem runMicro_cases (u : MicroOp) (s : State) :
    (∃ bs, Ready u s ∧ memRead s.mem s.ptr.toNat u.readBytes = some bs ∧ runMicro u s = .done (microResult u s bs)) ∨
    (Ready u s ∧ memRead s.mem s.ptr.toNat u.readBytes = none ∧ runMicro u s = .fail .buserr) ∨
    (¬ Ready u s ∧ ∃ f, runMicro u s = .fault f) := by
  by_cases h : Ready u s
  · cases hr : memRead s.mem s.ptr.toNat u.readBytes with
    | none => exact .inr (.inl ⟨h, rfl, runMicro_fail h hr⟩)
    | some bs => exact .inl ⟨bs, h, rfl, runMicro_done h hr⟩
  · exact .inr (.inr ⟨h, runMicro_not_ready h⟩)

/-- Preconditions and results do not look at `PHASE`. -/
theorem Ready.setPhase {u : MicroOp} {s : State} (h : Ready u s) (p : Phase) : Ready u (s.setPhase p) :=
  ⟨h.len, h.aligned, by have := h.accs; cases u <;> exact this⟩

theorem microResult_setPhase (u : MicroOp) (s : State) (bs : List Byte) (p : Phase) :
    microResult u (s.setPhase p) bs = (microResult u s bs).setPhase p := by
  cases u <;> rfl

/-! ## Frame of a completed micro-operation -/

section Frame

variable (u : MicroOp) (s : State) (bs : List Byte)

@[simp] theorem microResult_total : (microResult u s bs).total = s.total := by cases u <;> rfl
@[simp] theorem microResult_result : (microResult u s bs).result = s.result := by cases u <;> rfl
@[simp] theorem microResult_stream : (microResult u s bs).stream = s.stream := by cases u <;> rfl
@[simp] theorem microResult_sel : (microResult u s bs).sel = s.sel := by cases u <;> rfl
@[simp] theorem microResult_err : (microResult u s bs).err = s.err := by cases u <;> rfl
@[simp] theorem microResult_cap : (microResult u s bs).cap = s.cap := by cases u <;> rfl
@[simp] theorem microResult_phase : (microResult u s bs).phase = s.phase := by cases u <;> rfl
@[simp] theorem microResult_mem : (microResult u s bs).mem = s.mem := by cases u <;> rfl
@[simp] theorem microResult_inbox : (microResult u s bs).inbox = s.inbox := by cases u <;> rfl
@[simp] theorem microResult_reply : (microResult u s bs).reply = s.reply := by cases u <;> rfl

/-- `PTR` advances by the bytes read. -/
theorem microResult_ptr : (microResult u s bs).ptr = s.ptr + BitVec.ofNat 64 u.readBytes := by
  cases u <;> simp [microResult, MicroOp.readBytes]

/-- `LEN` shrinks by the bytes read. -/
theorem microResult_len : (microResult u s bs).len = s.len - BitVec.ofNat 64 u.readBytes := by
  cases u <;> simp [microResult, MicroOp.readBytes]

end Frame

end Sys2Proof.Machine
end

