-- ==== Sys2Proof/Laws/Sequencer.lean ====
section
/-! SUPPORT. Everything a row of the sequencer can do: from a state the table can be in, it advances by the bytes it reads and
keeps what the state stands for, or it fails with `BUSERR`; and what that gives for a whole run. -/

namespace Sys2Proof.Machine

/-! ## What the accumulators stand for -/

/-- The four accumulators as one polynomial (R179). -/
def lanes (s : State) : Nat :=
  (s.acc0.value.toNat <<< 384) ^^^ (s.acc1.value.toNat <<< 256) ^^^ (s.acc2.value.toNat <<< 128) ^^^ s.acc3.value.toNat

/-- The CRC a state inside a command stands for: the register itself outside the fold phases, the remainder of the live
accumulators inside them. -/
def stands (s : State) : Nat :=
  match s.phase with
  | .idle | .head | .load0 | .tail8 | .tail1 => s.crc.toNat
  | .loadK | .fold1 | .reduce => rem32 (s.acc0.value.toNat <<< 32)
  | .fold4 | .collapse => rem32 (lanes s <<< 32)

theorem rem32_shift_congr {a b : Nat} (h : rem32 a = rem32 b) (k : Nat) : rem32 (a <<< k) = rem32 (b <<< k) := by
  rw [← rem32_shiftLeft a, h, rem32_shiftLeft]

/-- Injecting bytes after an accumulator's remainder. -/
theorem messageRem_rem (x : Nat) (bs : List Byte) :
    messageRem (rem32 (x <<< 32)) bs = rem32 ((x <<< (8 * bs.length) ^^^ be bs) <<< 32) := by
  rw [messageRem, rem32_shiftLeft_xor, Nat.shiftLeft_xor_distrib, ← Nat.shiftLeft_add, ← Nat.shiftLeft_add, Nat.add_comm]

theorem blockOf_toNat {bs : List Byte} (h : bs.length ≤ 16) : (blockOf bs).toNat = be bs := by
  rw [blockOf, BitVec.toNat_ofNat, Nat.mod_eq_of_lt]
  exact Nat.lt_of_lt_of_le (be_lt bs) (Nat.pow_le_pow_right (by omega) (by omega))

/-- Cut a byte list in blocks, from the front. -/
theorem be_block {bs : List Byte} {i n : Nat} (h : bs.length = i + 16 + n) :
    be (bs.drop i) = (blockOf ((bs.drop i).take 16)).toNat <<< (8 * n) ^^^ be (bs.drop (i + 16)) := by
  have hl : (bs.drop (i + 16)).length = n := by simp; omega
  conv_lhs => rw [← List.take_append_drop 16 (bs.drop i)]
  rw [be_append, blockOf_toNat (by simp), List.drop_drop, hl]

theorem load0_stands {s : State} {bs : List Byte} (h : bs.length = 16) :
    rem32 ((blockOf bs ^^^ (s.crc.setWidth 128 <<< 96)).toNat <<< 32) = messageRem s.crc.toNat bs := by
  have hc : (s.crc.setWidth 128 <<< 96 : Vec128).toNat = s.crc.toNat <<< 96 := by
    have := s.crc.isLt
    rw [BitVec.toNat_shiftLeft, BitVec.toNat_setWidth, Nat.mod_eq_of_lt (a := s.crc.toNat) (by omega), Nat.shiftLeft_eq,
      Nat.mod_eq_of_lt (by omega)]
  rw [BitVec.toNat_xor, hc, blockOf_toNat (by omega), messageRem, h, Nat.shiftLeft_xor_distrib, ← Nat.shiftLeft_add, Nat.xor_comm]

theorem fold1_stands (a : Vec128) {bs : List Byte} (h : bs.length = 16) :
    rem32 (foldK1 a ^^^ blockOf bs).toNat = rem32 (a.toNat <<< 128 ^^^ be bs) := by
  rw [BitVec.toNat_xor, rem32_xor, foldK1_rem, rem32_xor, blockOf_toNat (by omega)]

theorem loadK_stands {s : State} {bs : List Byte} (h : bs.length = 48) :
    lanes (microResult .loadK s bs) = s.acc0.value.toNat <<< 384 ^^^ be bs := by
  have h0 := be_block (bs := bs) (i := 0) (n := 32) (by omega)
  have h1 := be_block (bs := bs) (i := 16) (n := 16) (by omega)
  have h2 := be_block (bs := bs) (i := 32) (n := 0) (by omega)
  simp only [List.drop_zero, Nat.zero_add] at h0
  rw [h0, h1, h2, List.drop_of_length_le (i := 32 + 16) (by omega)]
  simp [lanes, microResult, Nat.xor_assoc]

theorem xor_pairs (a b c d e f g h : Nat) :
    a ^^^ e ^^^ (b ^^^ f) ^^^ (c ^^^ g) ^^^ (d ^^^ h) = a ^^^ b ^^^ c ^^^ d ^^^ (e ^^^ (f ^^^ (g ^^^ h))) := by
  ac_rfl

theorem fold4_stands {s : State} {bs : List Byte} (h : bs.length = 64) :
    rem32 (lanes (microResult .fold4 s bs)) = rem32 (lanes s <<< 512 ^^^ be bs) := by
  have h0 := be_block (bs := bs) (i := 0) (n := 48) (by omega)
  have h1 := be_block (bs := bs) (i := 16) (n := 32) (by omega)
  have h2 := be_block (bs := bs) (i := 32) (n := 16) (by omega)
  have h3 := be_block (bs := bs) (i := 48) (n := 0) (by omega)
  simp only [List.drop_zero, Nat.zero_add] at h0
  have hk : ∀ (a : Vec128) (k : Nat), rem32 ((foldK4 a).toNat <<< k) = rem32 (a.toNat <<< (512 + k)) := fun a k => by
    rw [rem32_shift_congr (foldK4_rem a), ← Nat.shiftLeft_add]
  have hk0 := foldK4_rem s.acc3.value
  rw [h0, h1, h2, h3, List.drop_of_length_le (i := 48 + 16) (by omega)]
  simp only [lanes, microResult, State.advance_acc0, State.advance_acc1, State.advance_acc2, State.advance_acc3,
    State.setAcc123_acc0, State.setAcc123_acc1, State.setAcc123_acc2, State.setAcc123_acc3, State.setAcc0_acc0,
    BitVec.toNat_xor, be_nil, Nat.mul_zero, Nat.shiftLeft_zero]
  rw [Nat.shiftLeft_xor_distrib, Nat.shiftLeft_xor_distrib, Nat.shiftLeft_xor_distrib]
  repeat rw [Nat.shiftLeft_xor_distrib]
  simp only [rem32_xor, hk, hk0, ← Nat.shiftLeft_add, Nat.xor_zero]
  exact xor_pairs _ _ _ _ _ _ _ _

theorem collapse_stands (s : State) (bs : List Byte) :
    rem32 (microResult .collapse s bs).acc0.value.toNat = rem32 (lanes s) := by
  have hk : ∀ (a : Vec128) (k : Nat), rem32 ((foldK1 a).toNat <<< k) = rem32 (a.toNat <<< (128 + k)) := fun a k => by
    rw [rem32_shift_congr (foldK1_rem a), ← Nat.shiftLeft_add]
  simp only [microResult, lanes, State.setFour_acc0, State.setAcc0_acc0, BitVec.toNat_xor, rem32_xor, foldK1_rem,
    Nat.shiftLeft_xor_distrib, hk]

/-! ## Rows -/

/-- The states the table can be in: what each phase has established (R66, R176, R178). -/
def SeqOk (s : State) : Prop :=
  match s.phase with
  | .idle => s.len.toNat = 0
  | .head | .tail8 | .tail1 => True
  | .load0 => s.ptr.toNat % 16 = 0 ∧ 32 ≤ s.len.toNat
  | .loadK => s.ptr.toNat % 16 = 0 ∧ 112 ≤ s.len.toNat ∧ s.acc0.written = true
  | .fold4 | .collapse => s.ptr.toNat % 16 = 0 ∧ accsReady .fold4 s
  | .fold1 | .reduce => s.ptr.toNat % 16 = 0 ∧ s.acc0.written = true

/-- How far a phase is from `IDLE`. -/
def Phase.rank : Phase → Nat
  | .idle => 0
  | .tail1 => 1
  | .tail8 => 2
  | .reduce => 3
  | .fold1 => 4
  | .collapse => 5
  | .fold4 => 6
  | .loadK => 7
  | .load0 => 8
  | .head => 9

/-- What every row lowers. -/
def seqMeasure (s : State) : Nat := s.len.toNat + s.phase.rank

/-- What a row that does not fail does: it reads `bs` from `PTR` up, moves `PTR` and `LEN` by them, injects them into what the
state stands for, and changes no other register outside `CRC`, `ACC`, `FOUR`, `PHASE`. -/
structure SeqAdvance (s t : State) (bs : List Byte) : Prop where
  ok : SeqOk t
  measure : seqMeasure t < seqMeasure s
  read : memRead s.mem s.ptr.toNat bs.length = some bs
  ptr : t.ptr = s.ptr + BitVec.ofNat 64 bs.length
  len : t.len.toNat + bs.length = s.len.toNat
  stands : Machine.stands t = messageRem (Machine.stands s) bs
  total : t.total = s.total
  result : t.result = s.result
  stream : t.stream = s.stream
  sel : t.sel = s.sel
  err : t.err = s.err
  cap : t.cap = s.cap
  mem : t.mem = s.mem
  inbox : t.inbox = s.inbox
  reply : t.reply = s.reply
  table : s.phase = .tail8 ∨ s.phase = .tail1 →
    (t.phase = .tail8 ∨ t.phase = .tail1 ∨ t.phase = .idle) ∧
    t.acc0 = s.acc0 ∧ t.acc1 = s.acc1 ∧ t.acc2 = s.acc2 ∧ t.acc3 = s.acc3 ∧ t.four = s.four

theorem messageRem_nil {c : Nat} (h : c < 2 ^ 32) : messageRem c [] = c := by simp [messageRem, rem32_of_lt h]

theorem stands_lt (s : State) : stands s < 2 ^ 32 := by
  cases hp : s.phase <;> simp only [stands, hp, rem32_lt]
  all_goals exact s.crc.isLt

/-- A row that only moves `PHASE`. -/
theorem seqAdvance_move {s : State} {p : Phase} (hok : SeqOk (s.setPhase p)) (hm : p.rank < s.phase.rank)
    (hs : stands (s.setPhase p) = stands s)
    (ht : s.phase = .tail8 ∨ s.phase = .tail1 → p = .tail8 ∨ p = .tail1 ∨ p = .idle) : SeqAdvance s (s.setPhase p) [] where
  ok := hok
  measure := by simpa [seqMeasure] using hm
  read := rfl
  ptr := by simp
  len := by simp
  stands := by rw [hs, messageRem_nil (stands_lt s)]
  total := rfl
  result := rfl
  stream := rfl
  sel := rfl
  err := rfl
  cap := rfl
  mem := rfl
  inbox := rfl
  reply := rfl
  table := fun h => ⟨ht h, rfl, rfl, rfl, rfl, rfl⟩

/-- A row that completes its micro-operation. -/
theorem seqAdvance_micro {s : State} {u : MicroOp} {p : Phase} {bs : List Byte} (hr : Ready u s)
    (hread : memRead s.mem s.ptr.toNat u.readBytes = some bs) (hok : SeqOk ((microResult u s bs).setPhase p))
    (hm : p.rank < s.phase.rank + u.readBytes)
    (hs : stands ((microResult u s bs).setPhase p) = messageRem (stands s) bs)
    (ht : s.phase = .tail8 ∨ s.phase = .tail1 → (p = .tail8 ∨ p = .tail1) ∧ (u = .inj ∨ u = .step8)) :
    SeqAdvance s ((microResult u s bs).setPhase p) bs := by
  have hl := memRead_length hread
  have hlt : u.readBytes ≤ s.len.toNat := Nat.le_trans (by cases u <;> decide) hr.len
  have hlen : (microResult u s bs).len.toNat = s.len.toNat - u.readBytes := by
    have h64 : u.readBytes < 2 ^ 64 := by cases u <;> decide
    rw [microResult_len, BitVec.toNat_sub_of_le]
    · rw [BitVec.toNat_ofNat, Nat.mod_eq_of_lt h64]
    · rw [BitVec.le_def, BitVec.toNat_ofNat, Nat.mod_eq_of_lt h64]; exact hlt
  exact
    { ok := hok
      measure := by simp only [seqMeasure, State.setPhase_len, State.setPhase_phase, hlen]; omega
      read := by rw [hl]; exact hread
      ptr := by rw [State.setPhase_ptr, microResult_ptr, hl]
      len := by rw [State.setPhase_len, hlen, hl]; omega
      stands := hs
      total := by simp
      result := by simp
      stream := by simp
      sel := by simp
      err := by simp
      cap := by simp
      mem := by simp
      inbox := by simp
      reply := by simp
      table := fun h => by
        obtain ⟨hp, hu⟩ := ht h
        refine ⟨by rcases hp with rfl | rfl <;> simp, ?_⟩
        rcases hu with rfl | rfl <;> exact ⟨rfl, rfl, rfl, rfl, rfl⟩ }

/-- The two outcomes of a row, from a state the table can be in. -/
def RowOutcome (s : State) : Prop :=
  (∃ t bs, seqStep s = .next t ∧ SeqAdvance s t bs) ∨
  (seqStep s = .next (s.fail .buserr) ∧ ∃ k, k ≤ 64 ∧ k ≤ s.len.toNat ∧ memRead s.mem s.ptr.toNat k = none)

theorem rowOutcome_move {s : State} {p : Phase} (hrow : seqRow s = ⟨none, fun _ => p⟩) (ha : SeqAdvance s (s.setPhase p) []) :
    RowOutcome s :=
  .inl ⟨_, _, by simp only [seqStep, hrow], ha⟩

theorem rowOutcome_micro {s : State} {u : MicroOp} {next : State → Phase} (hrow : seqRow s = ⟨some u, next⟩) (hr : Ready u s)
    (ha : ∀ bs, memRead s.mem s.ptr.toNat u.readBytes = some bs →
      SeqAdvance s ((microResult u s bs).setPhase (next (microResult u s bs))) bs) : RowOutcome s := by
  rcases runMicro_cases u s with ⟨bs, -, hread, hdone⟩ | ⟨-, hread, hfail⟩ | ⟨hn, -⟩
  · exact .inl ⟨_, bs, by simp only [seqStep, hrow, hdone], ha bs hread⟩
  · refine .inr ⟨by simp only [seqStep, hrow, hfail, raise], u.readBytes, by cases u <;> decide, ?_, hread⟩
    exact Nat.le_trans (by cases u <;> decide) hr.len
  · exact absurd hr hn

theorem step8_stands (s : State) {bs : List Byte} (h : bs.length = 8) :
    (step8 s.crc bs).toNat = messageRem s.crc.toNat bs := by
  rw [step8_rem _ h, messageRem, h]

theorem inj_stands (s : State) {bs : List Byte} (h : bs.length = 1) :
    (updateOneByte s.crc (bs.headD 0)).toNat = messageRem s.crc.toNat bs := by
  obtain ⟨b, rfl⟩ := List.length_eq_one_iff.1 h
  rw [updateOneByte_rem]
  simp [messageRem, be]

theorem aligned_add {p : Word64} {k : Nat} (h : p.toNat % 16 = 0) (hk : k % 16 = 0) :
    (p + BitVec.ofNat 64 k).toNat % 16 = 0 := by
  rw [BitVec.toNat_add, BitVec.toNat_ofNat]
  omega

/-- Every row of the table advances or fails with `BUSERR`. -/
theorem seqStep_cases {s : State} (h : SeqOk s) (hp : s.phase ≠ .idle) : RowOutcome s := by
  cases hph : s.phase with
  | idle => exact absurd hph hp
  | head =>
    by_cases hc : s.ptr.toNat % Config.blockBytes ≠ 0 ∧ 1 ≤ s.len.toNat
    · refine rowOutcome_micro (u := .inj) (next := fun _ => .head) (by simp only [seqRow, hph, if_pos hc]) ⟨hc.2, nofun, trivial⟩ fun bs hb => ?_
      refine seqAdvance_micro ⟨hc.2, nofun, trivial⟩ hb trivial (by rw [hph]; decide) ?_ (by simp [hph])
      have := inj_stands s (memRead_length hb)
      simpa [stands, hph, microResult] using this
    · by_cases hl : Config.engageBytes ≤ s.len.toNat
      · refine rowOutcome_move (p := .load0) (by simp only [seqRow, hph, if_neg hc, if_pos hl])
          (seqAdvance_move ?_ (by rw [hph]; decide) (by simp [stands, hph]) (by simp [hph]))
        have hl' : 32 ≤ s.len.toNat := hl
        refine ⟨?_, hl'⟩
        by_contra hx
        exact hc ⟨hx, by omega⟩
      · exact rowOutcome_move (p := .tail8) (by simp only [seqRow, hph, if_neg hc, if_neg hl])
          (seqAdvance_move trivial (by rw [hph]; decide) (by simp [stands, hph]) (by simp [hph]))
  | load0 =>
    simp only [SeqOk, hph] at h
    have hr : Ready .load0 s := ⟨h.2, fun _ => h.1, trivial⟩
    refine rowOutcome_micro (u := .load0) (next := fun t => if t.four then .loadK else .fold1)
      (by simp only [seqRow, hph]) hr fun bs hb => ?_
    have hlen := memRead_length hb
    have hst := load0_stands (s := s) hlen
    have hal : (microResult .load0 s bs).ptr.toNat % 16 = 0 := by
      rw [microResult_ptr]; exact aligned_add h.1 (by decide)
    by_cases hf : (microResult .load0 s bs).four = true
    · rw [if_pos hf]
      refine seqAdvance_micro hr hb ⟨hal, ?_, rfl⟩ (by rw [hph]; decide) (by simpa [stands, hph, microResult] using hst) (by simp [hph])
      have h128 : 128 ≤ s.len.toNat := of_decide_eq_true hf
      simp only [State.setPhase_len, microResult_len, MicroOp.readBytes]
      rw [BitVec.toNat_sub_of_le (by rw [BitVec.le_def]; simp; omega)]
      simp; omega
    · rw [if_neg hf]
      exact seqAdvance_micro hr hb ⟨hal, rfl⟩ (by rw [hph]; decide) (by simpa [stands, hph, microResult] using hst) (by simp [hph])
  | loadK =>
    simp only [SeqOk, hph] at h
    have hr : Ready .loadK s := ⟨h.2.1, fun _ => h.1, trivial⟩
    refine rowOutcome_micro (u := .loadK) (next := fun _ => .fold4) (by simp only [seqRow, hph]) hr fun bs hb => ?_
    refine seqAdvance_micro hr hb ⟨?_, h.2.2, rfl, rfl, rfl⟩ (by rw [hph]; decide) ?_ (by simp [hph])
    · rw [State.setPhase_ptr, microResult_ptr]; exact aligned_add h.1 (by decide)
    · have hlen := memRead_length hb
      have := loadK_stands (s := s) hlen
      have hs : lanes ((microResult .loadK s bs).setPhase .fold4) = lanes (microResult .loadK s bs) := rfl
      simp only [stands, hph, State.setPhase_phase, hs, this, messageRem_rem, hlen]
      rfl
  | fold4 =>
    simp only [SeqOk, hph] at h
    by_cases hl : 64 ≤ s.len.toNat
    · have hr : Ready .fold4 s := ⟨hl, fun _ => h.1, h.2⟩
      refine rowOutcome_micro (u := .fold4) (next := fun _ => .fold4) (by simp only [seqRow, hph, if_pos hl]) hr fun bs hb => ?_
      refine seqAdvance_micro hr hb ⟨?_, rfl, rfl, rfl, rfl⟩ (by rw [hph]; decide) ?_ (by simp [hph])
      · rw [State.setPhase_ptr, microResult_ptr]; exact aligned_add h.1 (by decide)
      · have hlen := memRead_length hb
        have := rem32_shift_congr (fold4_stands (s := s) hlen) 32
        have hs : lanes ((microResult .fold4 s bs).setPhase .fold4) = lanes (microResult .fold4 s bs) := rfl
        simp only [stands, hph, State.setPhase_phase, hs, this, messageRem_rem, hlen]
        rfl
    · exact rowOutcome_move (p := .collapse) (by simp only [seqRow, hph, if_neg hl])
        (seqAdvance_move h (by rw [hph]; decide) (by simp [stands, hph, lanes]) (by simp [hph]))
  | collapse =>
    simp only [SeqOk, hph] at h
    have hr : Ready .collapse s := ⟨Nat.zero_le _, nofun, h.2⟩
    refine rowOutcome_micro (u := .collapse) (next := fun _ => .fold1) (by simp only [seqRow, hph]) hr fun bs hb => ?_
    refine seqAdvance_micro hr hb ⟨h.1, rfl⟩ (by rw [hph]; decide) ?_ (by simp [hph])
    have hb0 : bs = [] := List.length_eq_zero_iff.1 (memRead_length hb)
    subst hb0
    rw [messageRem_nil (stands_lt s)]
    simp only [stands, hph, State.setPhase_phase, State.setPhase_acc0]
    exact rem32_shift_congr (collapse_stands s []) 32
  | fold1 =>
    simp only [SeqOk, hph] at h
    by_cases hl : 16 ≤ s.len.toNat
    · have hr : Ready .fold1 s := ⟨hl, fun _ => h.1, h.2⟩
      refine rowOutcome_micro (u := .fold1) (next := fun _ => .fold1) (by simp only [seqRow, hph, if_pos hl]) hr fun bs hb => ?_
      refine seqAdvance_micro hr hb ⟨?_, rfl⟩ (by rw [hph]; decide) ?_ (by simp [hph])
      · rw [State.setPhase_ptr, microResult_ptr]; exact aligned_add h.1 (by decide)
      · have hlen := memRead_length hb
        have := rem32_shift_congr (fold1_stands s.acc0.value hlen) 32
        simp only [stands, hph, State.setPhase_phase, messageRem_rem, hlen]
        exact this
    · exact rowOutcome_move (p := .reduce) (by simp only [seqRow, hph, if_neg hl])
        (seqAdvance_move h (by rw [hph]; decide) (by simp [stands, hph]) (by simp [hph]))
  | reduce =>
    simp only [SeqOk, hph] at h
    have hr : Ready .reduce s := ⟨Nat.zero_le _, nofun, h.2⟩
    refine rowOutcome_micro (u := .reduce) (next := fun _ => .tail8) (by simp only [seqRow, hph]) hr fun bs hb => ?_
    refine seqAdvance_micro hr hb trivial (by rw [hph]; decide) ?_ (by simp [hph])
    have hb0 : bs = [] := List.length_eq_zero_iff.1 (memRead_length hb)
    subst hb0
    rw [messageRem_nil (stands_lt s)]
    simp only [stands, hph, State.setPhase_phase]
    exact reduce_rem s.acc0.value
  | tail8 =>
    by_cases hl : 8 ≤ s.len.toNat
    · have hr : Ready .step8 s := ⟨hl, nofun, trivial⟩
      refine rowOutcome_micro (u := .step8) (next := fun _ => .tail8) (by simp only [seqRow, hph, if_pos hl]) hr fun bs hb => ?_
      refine seqAdvance_micro hr hb trivial (by rw [hph]; decide) ?_ (by simp)
      have := step8_stands s (memRead_length hb)
      simpa [stands, hph, microResult] using this
    · exact rowOutcome_move (p := .tail1) (by simp only [seqRow, hph, if_neg hl])
        (seqAdvance_move trivial (by rw [hph]; decide) (by simp [stands, hph]) (by simp))
  | tail1 =>
    by_cases hl : 1 ≤ s.len.toNat
    · have hr : Ready .inj s := ⟨hl, nofun, trivial⟩
      refine rowOutcome_micro (u := .inj) (next := fun _ => .tail1) (by simp only [seqRow, hph, if_pos hl]) hr fun bs hb => ?_
      refine seqAdvance_micro hr hb trivial (by rw [hph]; decide) ?_ (by simp)
      have := inj_stands s (memRead_length hb)
      simpa [stands, hph, microResult] using this
    · exact rowOutcome_move (p := .idle) (by simp only [seqRow, hph, if_neg hl])
        (seqAdvance_move (Nat.lt_one_iff.1 (Nat.lt_of_not_le hl)) (by rw [hph]; decide) (by simp [stands, hph]) (by simp))

end Sys2Proof.Machine
end

