-- ==== Sys2Proof/Laws/Run.lean ====
section
/-! SUPPORT. Everything a run of the sequencer can do: it reaches `IDLE` with its whole range injected, or it ends in `BUSERR`
at a row whose bytes cannot all be read. -/

namespace Sys2Proof.Machine

/-- Rows that do not fail, one after another: from `s` to `t`, injecting `bs`. -/
inductive SeqReach : State → State → List Byte → Prop where
  | refl (s : State) : SeqReach s s []
  | step {s t u : State} {bs cs : List Byte} :
    s.phase ≠ .idle → seqStep s = .next t → SeqAdvance s t bs → SeqReach t u cs → SeqReach s u (bs ++ cs)

/-- What such rows keep, and what they add up to. -/
structure SeqFrame (s t : State) (bs : List Byte) : Prop where
  ptr : t.ptr = s.ptr + BitVec.ofNat 64 bs.length
  len : t.len.toNat + bs.length = s.len.toNat
  stands : Machine.stands t = messageRem (Machine.stands s) bs
  total : t.total = s.total
  result : t.result = s.result
  stream : t.stream = s.stream
  sel : t.sel = s.sel
  err : t.err = s.err
  cap : t.cap = s.cap
  mem : t.mem = s.mem
  inbox : t.inbox = s.inbox
  reply : t.reply = s.reply
  table : s.phase = .tail8 ∨ s.phase = .tail1 ∨ s.phase = .idle →
    (t.phase = .tail8 ∨ t.phase = .tail1 ∨ t.phase = .idle) ∧
    t.acc0 = s.acc0 ∧ t.acc1 = s.acc1 ∧ t.acc2 = s.acc2 ∧ t.acc3 = s.acc3 ∧ t.four = s.four
  read : s.ptr.toNat + s.len.toNat ≤ 2 ^ 64 → memRead s.mem s.ptr.toNat bs.length = some bs

theorem ptr_toNat_add {p : Word64} {k : Nat} (h : p.toNat + k < 2 ^ 64) : (p + BitVec.ofNat 64 k).toNat = p.toNat + k := by
  rw [BitVec.toNat_add, BitVec.toNat_ofNat]
  omega

/-- `PTR` at the end of the address space wraps to 0 only with no byte left. -/
theorem ptr_toNat_step {p : Word64} {k n : Nat} (h : p.toNat + (n + k) ≤ 2 ^ 64) :
    (p + BitVec.ofNat 64 k).toNat = p.toNat + k ∨ n = 0 ∧ (p + BitVec.ofNat 64 k).toNat = 0 := by
  rw [BitVec.toNat_add, BitVec.toNat_ofNat]
  omega

theorem SeqReach.frame {s t : State} {bs : List Byte} (h : SeqReach s t bs) : SeqFrame s t bs := by
  induction h with
  | refl s =>
    exact
      { ptr := by simp, len := by simp, stands := by rw [messageRem_nil (stands_lt s)], total := rfl, result := rfl
        stream := rfl, sel := rfl, err := rfl, cap := rfl, mem := rfl, inbox := rfl, reply := rfl
        table := fun h => ⟨h, rfl, rfl, rfl, rfl, rfl⟩, read := fun _ => rfl }
  | @step s t u bs cs hp _ ha _ ih =>
    exact
      { ptr := by rw [ih.ptr, ha.ptr, BitVec.add_assoc, List.length_append, BitVec.ofNat_add]
        len := by rw [List.length_append, ← ha.len, ← ih.len]; omega
        stands := by rw [ih.stands, ha.stands, messageRem_append]
        total := ih.total.trans ha.total
        result := ih.result.trans ha.result
        stream := ih.stream.trans ha.stream
        sel := ih.sel.trans ha.sel
        err := ih.err.trans ha.err
        cap := ih.cap.trans ha.cap
        mem := ih.mem.trans ha.mem
        inbox := ih.inbox.trans ha.inbox
        reply := ih.reply.trans ha.reply
        table := fun h => by
          obtain ⟨h1, h2, h3, h4, h5, h6⟩ := ha.table (by tauto)
          obtain ⟨i1, i2, i3, i4, i5, i6⟩ := ih.table h1
          exact ⟨i1, i2.trans h2, i3.trans h3, i4.trans h4, i5.trans h5, i6.trans h6⟩
        read := fun hle => by
          have hlen := ha.len
          have hi := ih.len
          rw [List.length_append, memRead_add, ha.read]
          have hs : s.ptr.toNat + (t.len.toNat + bs.length) ≤ 2 ^ 64 := by omega
          rcases ptr_toNat_step hs with h | ⟨h0, h⟩
          · have := ih.read (by rw [ha.ptr, h]; omega)
            rw [ha.mem, ha.ptr, h] at this
            rw [this]; rfl
          · have hc : cs = [] := List.length_eq_zero_iff.1 (by omega)
            subst hc
            simp }

/-- A run from a state the table can be in reaches `IDLE` with `LEN = 0`, or ends in `BUSERR` at a row one of whose at most 64
bytes cannot be read. -/
theorem runSeq_cases {n : Nat} {s : State} (hok : SeqOk s) (hn : seqMeasure s ≤ n) :
    (∃ t bs, runSeq n s = .next t ∧ SeqReach s t bs ∧ t.phase = .idle ∧ t.len.toNat = 0) ∨
    (∃ u bs k, runSeq n s = .next (u.fail .buserr) ∧ SeqReach s u bs ∧ u.phase ≠ .idle ∧ k ≤ 64 ∧ k ≤ u.len.toNat ∧
      memRead u.mem u.ptr.toNat k = none) := by
  induction n generalizing s with
  | zero =>
    have hp : s.phase = .idle := by
      unfold seqMeasure at hn
      cases hp : s.phase <;> simp [hp, Phase.rank] at hn ⊢
    refine .inl ⟨s, [], by simp only [runSeq, hp, if_true], .refl s, hp, ?_⟩
    simpa [SeqOk, hp] using hok
  | succ n ih =>
    by_cases hp : s.phase = .idle
    · refine .inl ⟨s, [], by simp only [runSeq, hp, if_true], .refl s, hp, ?_⟩
      simpa [SeqOk, hp] using hok
    · have hrun : ∀ t, seqStep s = .next t → runSeq (n + 1) s = runSeq n t := fun t ht => by
        simp only [runSeq, if_neg hp, ht]
      rcases seqStep_cases hok hp with ⟨t, bs, hst, ha⟩ | ⟨hst, k, hk, hkl, hr⟩
      · rcases ih ha.ok (by have := ha.measure; omega) with ⟨u, cs, hu, hre, hi, hl⟩ | ⟨u, cs, k, hu, hre, hi, hk, hkl, hr⟩
        · exact .inl ⟨u, bs ++ cs, (hrun t hst).trans hu, .step hp hst ha hre, hi, hl⟩
        · exact .inr ⟨u, bs ++ cs, k, (hrun t hst).trans hu, .step hp hst ha hre, hi, hk, hkl, hr⟩
      · refine .inr ⟨s, [], k, ?_, .refl s, hp, hk, hkl, hr⟩
        rw [hrun _ hst]
        cases n <;> simp [runSeq]

theorem runSeq_of_idle {s : State} (h : s.phase = .idle) (n : Nat) : runSeq n s = .next s := by cases n <;> simp [runSeq, h]

/-- Fuel beyond the measure changes nothing. -/
theorem runSeq_fuel {s : State} (hok : SeqOk s) {n m : Nat} (hn : seqMeasure s ≤ n) (hm : seqMeasure s ≤ m) :
    runSeq n s = runSeq m s := by
  have idle_of : ∀ s : State, seqMeasure s ≤ 0 → s.phase = .idle := fun s h => by
    unfold seqMeasure at h
    cases hp : s.phase <;> simp [hp, Phase.rank] at h ⊢
  induction n generalizing s m with
  | zero => rw [runSeq_of_idle (idle_of s hn), runSeq_of_idle (idle_of s hn)]
  | succ n ih =>
    by_cases hp : s.phase = .idle
    · rw [runSeq_of_idle hp, runSeq_of_idle hp]
    · obtain ⟨m, rfl⟩ : ∃ k, m = k + 1 := by
        cases m with
        | zero => exact absurd (idle_of s hm) hp
        | succ m => exact ⟨m, rfl⟩
      simp only [runSeq, if_neg hp]
      rcases seqStep_cases hok hp with ⟨t, bs, hst, ha⟩ | ⟨hst, -⟩
      · rw [hst]
        exact ih ha.ok (by have := ha.measure; omega) (by have := ha.measure; omega)
      · rw [hst]
        exact (runSeq_of_idle rfl n).trans (runSeq_of_idle rfl m).symm

/-! ## A whole update -/

/-- The state a command's rows start from. -/
def seqStart (m : Mode) (s : State) : State := (s.forgetAccs).setPhase (startPhase m)

theorem runUpdate_cases (m : Mode) (s : State) :
    (∃ t bs, runUpdate m s = .next t ∧ SeqReach (seqStart m s) t bs ∧ t.phase = .idle ∧ t.len.toNat = 0) ∨
    (∃ u bs k, runUpdate m s = .next (u.fail .buserr) ∧ SeqReach (seqStart m s) u bs ∧ u.phase ≠ .idle ∧ k ≤ 64 ∧
      k ≤ u.len.toNat ∧ memRead u.mem u.ptr.toNat k = none) := by
  refine runSeq_cases (s := seqStart m s) (by cases m <;> trivial) ?_
  have : (seqStart m s).len = s.len := rfl
  rw [seqMeasure, this]
  cases m <;> simp [seqStart, startPhase, Phase.rank]

@[simp] theorem seqStart_stands (m : Mode) (s : State) : stands (seqStart m s) = s.crc.toNat := by
  cases m <;> rfl

/-- An update whose range is inside the address space and readable. -/
theorem runUpdate_done {m : Mode} {s : State} {bs : List Byte} (hfit : s.ptr.toNat + s.len.toNat ≤ 2 ^ 64)
    (hr : memRead s.mem s.ptr.toNat s.len.toNat = some bs) :
    ∃ t, runUpdate m s = .next t ∧ SeqFrame (seqStart m s) t bs ∧ t.phase = .idle ∧ t.len = 0 ∧
      t.crc = updateBlock s.crc bs := by
  rcases runUpdate_cases m s with ⟨t, cs, hrun, hre, hp, hl⟩ | ⟨u, cs, k, -, hre, -, hk, hkl, hn⟩
  · have hf := hre.frame
    have hlen : cs.length = s.len.toNat := by
      have : t.len.toNat + cs.length = s.len.toNat := hf.len
      omega
    have hcs : memRead s.mem s.ptr.toNat cs.length = some cs := hf.read hfit
    have he : cs = bs := by rw [hlen, hr] at hcs; exact (Option.some.inj hcs).symm
    subst he
    refine ⟨t, hrun, hf, hp, BitVec.eq_of_toNat_eq hl, BitVec.eq_of_toNat_eq ?_⟩
    have hs := hf.stands
    rw [seqStart_stands] at hs
    rw [updateBlock_rem, ← hs]
    simp [stands, hp]
  · exfalso
    have hf := hre.frame
    have hlen : u.len.toNat + cs.length = s.len.toNat := hf.len
    have hptr : u.ptr = s.ptr + BitVec.ofNat 64 cs.length := hf.ptr
    have hmem : u.mem = s.mem := hf.mem
    rcases ptr_toNat_step (p := s.ptr) (k := cs.length) (n := u.len.toNat) (by omega) with h | ⟨h0, -⟩
    · rw [hptr, h, hmem, memRead_slice hr (by omega)] at hn
      exact Option.some_ne_none _ hn
    · obtain rfl : k = 0 := by omega
      simp at hn

/-- An update whose range is inside the address space and not readable. -/
theorem runUpdate_buserr {m : Mode} {s : State} (hfit : s.ptr.toNat + s.len.toNat ≤ 2 ^ 64)
    (hr : memRead s.mem s.ptr.toNat s.len.toNat = none) :
    ∃ u bs k, runUpdate m s = .next (u.fail .buserr) ∧ SeqFrame (seqStart m s) u bs ∧ k ≤ 64 ∧ k ≤ u.len.toNat ∧
      u.ptr.toNat = s.ptr.toNat + bs.length ∧ memRead s.mem s.ptr.toNat bs.length = some bs ∧
      memRead s.mem u.ptr.toNat k = none := by
  rcases runUpdate_cases m s with ⟨t, cs, -, hre, -, hl⟩ | ⟨u, cs, k, hrun, hre, -, hk, hkl, hn⟩
  · exfalso
    have hf := hre.frame
    have hcs : memRead s.mem s.ptr.toNat cs.length = some cs := hf.read hfit
    have hlen : t.len.toNat + cs.length = s.len.toNat := hf.len
    rw [show cs.length = s.len.toNat by omega, hr] at hcs
    exact Option.some_ne_none _ hcs.symm
  · have hf := hre.frame
    have hlen : u.len.toNat + cs.length = s.len.toNat := hf.len
    have hptr : u.ptr = s.ptr + BitVec.ofNat 64 cs.length := hf.ptr
    have hmem : u.mem = s.mem := hf.mem
    rcases ptr_toNat_step (p := s.ptr) (k := cs.length) (n := u.len.toNat) (by omega) with h | ⟨h0, -⟩
    · exact ⟨u, cs, k, hrun, hf, hk, hkl, by rw [hptr, h], hf.read hfit, by rw [← hmem]; exact hn⟩
    · obtain rfl : k = 0 := by omega
      simp at hn

/-- Every update ends, and what none of them changes. -/
theorem runUpdate_frame (m : Mode) (s : State) :
    ∃ t, runUpdate m s = .next t ∧ t.phase = .idle ∧ t.total = s.total ∧ t.result = s.result ∧ t.sel = s.sel ∧
      t.cap = s.cap ∧ t.mem = s.mem ∧ t.inbox = s.inbox ∧ t.reply = s.reply ∧
      ((t.stream = s.stream ∧ t.err = s.err) ∨ (t.stream = .failed ∧ t.err = some .buserr)) ∧
      (m = .table → t.acc0 = (s.forgetAccs).acc0 ∧ t.acc1 = (s.forgetAccs).acc1 ∧ t.acc2 = (s.forgetAccs).acc2 ∧
        t.acc3 = (s.forgetAccs).acc3 ∧ t.four = s.four) := by
  rcases runUpdate_cases m s with ⟨t, cs, hrun, hre, hp, -⟩ | ⟨u, cs, k, hrun, hre, -⟩
  · have hf := hre.frame
    refine ⟨t, hrun, hp, hf.total, hf.result, hf.sel, hf.cap, hf.mem, hf.inbox, hf.reply, .inl ⟨hf.stream, hf.err⟩, ?_⟩
    rintro rfl
    exact (hf.table (.inl rfl)).2
  · have hf := hre.frame
    refine ⟨_, hrun, rfl, hf.total, hf.result, hf.sel, hf.cap, hf.mem, hf.inbox, hf.reply, .inr ⟨rfl, rfl⟩, ?_⟩
    rintro rfl
    exact (hf.table (.inl rfl)).2

end Sys2Proof.Machine
end

