-- ==== Sys2Proof/Laws/Exec.lean ====
section
/-! SUPPORT. Everything a command can do, said once, and the same for a command word, a register write and a step. -/

namespace Sys2Proof.Machine

theorem takesBytes_cases {s : State} (h : s.takesBytes = true) : s.stream = .start ∨ s.stream = .running := by
  simpa [State.takesBytes] using h

theorem takesBytes_of {s : State} (h1 : s.stream ≠ .failed) (h2 : s.isFinalized = false) : s.takesBytes = true := by
  unfold State.isFinalized at h2
  unfold State.takesBytes
  cases h : s.stream <;> simp_all

theorem isFinalized_of_takesBytes {s : State} (h : s.takesBytes = true) : s.isFinalized = false := by
  rcases takesBytes_cases h with h | h <;> simp [State.isFinalized, h]

theorem ne_failed_of_takesBytes {s : State} (h : s.takesBytes = true) : s.stream ≠ .failed := by
  rcases takesBytes_cases h with h | h <;> simp [h]

theorem unlessFailed_of_ne {s : State} (h : s.stream ≠ .failed) (r : Host.Outcome State Fault Refusal) : unlessFailed s r = r := by
  unfold unlessFailed
  cases hs : s.stream <;> simp_all

/-- In `Failed` every command but `INIT` is ignored. -/
theorem exec_of_failed {i : Instr} {s : State} (h : s.stream = .failed) (hi : i ≠ .init) : exec i s = .next s := by
  cases i <;> first
    | exact absurd rfl hi
    | simp [exec, execNop, execInjb, execUpdate, execUpdTable, execUpdFold, execFinal, unlessFailed, h]

theorem not_overflows {s : State} {k : Nat} : s.overflows k = false ↔ s.total.toNat + k ≤ 2 ^ 64 - 1 := by
  rw [State.overflows, decide_eq_false_iff_not, Config.top64, Nat.not_lt]

theorem not_outOfRange {s : State} : s.outOfRange = false ↔ s.ptr.toNat + s.len.toNat ≤ 2 ^ 64 := by
  rw [State.outOfRange, decide_eq_false_iff_not, Config.top64, Nat.not_lt]

/-- What the sequencer runs on after an update's checks. -/
def accepted (i : Instr) (s : State) : State := (s.setSel (selAfter i s)).count s.len

/-- An accepted update is a run of the sequencer. -/
theorem exec_accepted {i : Instr} {m : Mode} {s : State} (hm : updateMode i s = some m) (ht : s.takesBytes = true)
    (hfit : s.fits) (hcap : hasCapability i s) : exec i s = runUpdate m (accepted i s) := by
  have hu := unlessFailed_of_ne (ne_failed_of_takesBytes ht)
  have hf := isFinalized_of_takesBytes ht
  have ho := not_overflows.2 hfit.1
  have hr := not_outOfRange.2 hfit.2
  have key : ∀ a : State, a.count s.len = accepted i s → acceptUpdate m s a = runUpdate m (accepted i s) := fun a ha => by
    rw [acceptUpdate, ho, hr, ha]; rfl
  cases i with
  | nop | init | injb | finalize => simp [updateMode] at hm
  | update =>
    cases hm
    exact ((hu _).trans (if_neg (by rw [hf]; decide))).trans (key _ rfl)
  | updTable =>
    cases hm
    exact ((hu _).trans (if_neg (by rw [hf]; decide))).trans (key _ rfl)
  | updFold =>
    cases hm
    have hfc : s.foldCapable = true := by have := hcap rfl; simp [State.foldCapable, this]
    exact ((hu _).trans ((if_neg (by rw [hf]; decide)).trans (if_neg (by rw [hfc]; decide)))).trans (key _ rfl)

/-- The ways a command can end. -/
inductive ExecCase (i : Instr) (s : State) : State → Prop where
  | ignored : s.stream = .failed ∨ i = .nop → i ≠ .init → ExecCase i s s
  | started : i = .init → ExecCase i s s.startStream
  | raised (c : FailCode) : s.stream ≠ .failed → i ≠ .nop → i ≠ .init → (i = .finalize → s.stream = .finalized) →
    ExecCase i s (s.fail c)
  | injected (b : Byte) : i = .injb b → s.takesBytes = true → s.total.toNat + 1 ≤ 2 ^ 64 - 1 →
    ExecCase i s ((s.setCrc (updateOneByte s.crc b)).count 1)
  | finished : i = .finalize → s.takesBytes = true →
    ExecCase i s ((s.setCrc (foldLength s.total s.crc)).finish (~~~ foldLength s.total s.crc))
  | updated (m : Mode) (t : State) : updateMode i s = some m → s.takesBytes = true → s.fits → hasCapability i s →
    runUpdate m (accepted i s) = .next t → ExecCase i s t

theorem acceptUpdate_cases {i : Instr} {m : Mode} {s a t : State} (hm : updateMode i s = some m) (ht : s.takesBytes = true)
    (hc : hasCapability i s) (ha : a.count s.len = accepted i s) (h : acceptUpdate m s a = .next t) : ExecCase i s t := by
  have hs := ne_failed_of_takesBytes ht
  have hn : i ≠ .nop ∧ i ≠ .init ∧ i ≠ .finalize := by
    refine ⟨?_, ?_, ?_⟩ <;> rintro rfl <;> simp [updateMode] at hm
  unfold acceptUpdate at h
  split at h
  · cases h
    exact .raised .overflow hs hn.1 hn.2.1 fun h => absurd h hn.2.2
  · rename_i ho
    split at h
    · cases h
      exact .raised .range hs hn.1 hn.2.1 fun h => absurd h hn.2.2
    · rename_i hr
      rw [ha] at h
      exact .updated m t hm ht ⟨not_overflows.1 (Bool.eq_false_iff.2 ho), not_outOfRange.1 (Bool.eq_false_iff.2 hr)⟩ hc h

/-- A command that answers a next state answers one of those. -/
theorem exec_cases {i : Instr} {s t : State} (h : exec i s = .next t) : ExecCase i s t := by
  by_cases hi : i = .init
  · subst hi; cases h; exact .started rfl
  by_cases hn : i = .nop
  · subst hn; cases h; exact .ignored (.inr rfl) hi
  by_cases hs : s.stream = .failed
  · rw [exec_of_failed hs hi] at h; cases h; exact .ignored (.inl hs) hi
  by_cases hf : s.isFinalized = true
  · have hx : exec i s = raise s .badstate := by
      cases i <;> first
        | exact absurd rfl hi
        | exact absurd rfl hn
        | exact (unlessFailed_of_ne hs _).trans (if_pos hf)
    rw [hx] at h; cases h
    exact .raised .badstate hs hn hi fun _ => of_decide_eq_true hf
  have ht := takesBytes_of hs (Bool.eq_false_iff.2 hf)
  cases i with
  | nop => exact absurd rfl hn
  | init => exact absurd rfl hi
  | injb b =>
    have h' := ((unlessFailed_of_ne hs _).trans (if_neg hf)).symm.trans h
    split at h'
    · cases h'; exact .raised .overflow hs hn hi nofun
    · rename_i ho
      cases h'
      exact .injected b rfl ht (not_overflows.1 (Bool.eq_false_iff.2 ho))
  | finalize =>
    have h' := ((unlessFailed_of_ne hs _).trans (if_neg hf)).symm.trans h
    cases h'
    exact .finished rfl ht
  | update => exact acceptUpdate_cases rfl ht nofun rfl (((unlessFailed_of_ne hs _).trans (if_neg hf)).symm.trans h)
  | updTable => exact acceptUpdate_cases rfl ht nofun rfl (((unlessFailed_of_ne hs _).trans (if_neg hf)).symm.trans h)
  | updFold =>
    have h' := ((unlessFailed_of_ne hs _).trans (if_neg hf)).symm.trans h
    split at h'
    · cases h'; exact .raised .nocap hs hn hi nofun
    · rename_i hc
      refine acceptUpdate_cases rfl ht (fun _ => ?_) rfl h'
      simpa [State.foldCapable] using hc

/-! ## Command words, register writes, events -/

/-- The ways a command word can end. -/
theorem executeWord_cases (w : Word32) (s : State) :
    executeWord w s = raise s .illcmd ∨ executeWord w s = .next s ∨ ∃ i, decode w = .ok i ∧ executeWord w s = exec i s := by
  unfold executeWord
  split
  · split
    · exact .inr (.inr ⟨.init, by subst_vars; decide, rfl⟩)
    · exact .inr (.inl rfl)
  all_goals
    split
    · exact .inl rfl
    · exact .inr (.inr ⟨_, ‹_›, rfl⟩)

theorem thenReply_next {r : Reply} {o : Host.Outcome State Fault Refusal} {t : State} (h : thenReply r o = .next t) :
    ∃ u, o = .next u ∧ t = u.setReply r := by
  cases o <;> simp [thenReply] at h
  exact ⟨_, rfl, h.symm⟩

/-- A selected register is the one of the map at that offset. -/
theorem selectReg_some {off size : Nat} {r : Reg} (h : selectReg off size = some r) : off = r.offset ∧ size = 8 := by
  unfold selectReg at h
  split at h
  · have hd := List.find?_some h
    exact ⟨(of_decide_eq_true hd).symm, ‹_›⟩
  · cases h

@[simp] theorem selectReg_offset (r : Reg) : selectReg r.offset 8 = some r := by cases r <;> decide

/-- A read changes the response alone. -/
theorem hostRead_eq (off size : Nat) (s : State) : ∃ r, hostRead off size s = s.setReply r := by
  unfold hostRead
  split
  · exact ⟨_, rfl⟩
  · split <;> exact ⟨_, rfl⟩

/-! ## Steps -/

@[simp] theorem runSteps_zero (s : State) : runSteps 0 s = .next s := rfl

theorem runSteps_succ {s t : State} (k : Nat) (h : step s = .next t) : runSteps (k + 1) s = runSteps k t := by
  simp only [runSteps, Host.Core.run, core, h]

theorem runSteps_add (a b : Nat) {s t : State} (h : runSteps a s = .next t) : runSteps (a + b) s = runSteps b t := by
  induction a generalizing s with
  | zero => cases h; rw [Nat.zero_add]
  | succ a ih =>
    cases hs : step s with
    | next u =>
      rw [runSteps_succ a hs] at h
      rw [show a + 1 + b = (a + b) + 1 by omega, runSteps_succ _ hs]
      exact ih h
    | fault f => simp [runSteps, Host.Core.run, core, hs] at h
    | refused f => simp [runSteps, Host.Core.run, core, hs] at h

theorem step_of_idle {s : State} (h : s.phase = .idle) : step s = takeEvent s := by simp only [step, h]

theorem step_of_busy {s : State} (h : s.phase ≠ .idle) : step s = seqStep s := by
  unfold step
  cases hp : s.phase <;> simp_all

/-- A row never changes memory. -/
theorem seqStep_mem {s t : State} (h : seqStep s = .next t) : t.mem = s.mem := by
  unfold seqStep at h
  split at h
  · cases h; rfl
  · rename_i u _
    rcases runMicro_cases u s with ⟨bs, -, -, hd⟩ | ⟨-, -, hd⟩ | ⟨-, f, hd⟩
    · rw [hd] at h; cases h; simp
    · rw [hd] at h; cases h; rfl
    · rw [hd] at h; cases h

end Sys2Proof.Machine
end

