-- ==== Sys2Proof/Laws/Length.lean ====
section
/-! SUPPORT. The byte count that `FINAL` folds in: its loop over a 64-bit local is a fold over the minimal little-endian bytes. -/

namespace Sys2Proof.Machine

/-- More fuel than bytes changes nothing. -/
theorem lengthBytesLoop_fuel : ∀ (k : Nat) (n : Nat), n < 256 ^ k → ∀ j, k ≤ j → lengthBytesLoop j n = lengthBytesLoop k n := by
  intro k
  induction k with
  | zero => intro n hn j hj; have : n = 0 := by omega
            subst this; cases j <;> simp [lengthBytesLoop]
  | succ k ih =>
    intro n hn j hj
    obtain ⟨j, rfl⟩ : ∃ j', j = j' + 1 := ⟨j - 1, by omega⟩
    simp only [lengthBytesLoop]
    split
    · rfl
    · rw [ih (n / 256) (by rw [Nat.pow_succ] at hn; omega) j (by omega)]

/-- The loop of `FINAL` folds the bytes of its local. -/
theorem lengthLoop_eq (n : Nat) (L : Word64) (hL : L.toNat < 256 ^ n) (c : Word32) : (lengthLoop n (L, c)).2 = (lengthBytesLoop n L.toNat).foldl updateOneByte c := by
  induction n generalizing L c with
  | zero => rfl
  | succ n ih =>
    simp only [lengthLoop, lengthBytesLoop]
    by_cases h : L = 0
    · simp [h]
    · have h' : L.toNat ≠ 0 := fun hx => h (BitVec.eq_of_toNat_eq hx)
      rw [if_neg h, if_neg h', List.foldl_cons]
      have hsh : (L >>> 8).toNat = L.toNat / 256 := by simp [BitVec.toNat_ushiftRight, Nat.shiftRight_eq_div_pow]
      have := ih (L >>> 8) (by rw [hsh]; rw [Nat.pow_succ] at hL; omega) (updateOneByte c (BitVec.ofNat 8 L.toNat))
      rw [hsh] at this
      rw [← this]
      simp only [uLENB]
      congr 4

theorem le_lengthBytesLoop (k n : Nat) (h : n < 256 ^ k) : le (lengthBytesLoop k n) = n := by
  induction k generalizing n with
  | zero => simp [lengthBytesLoop]; omega
  | succ k ih =>
    simp only [lengthBytesLoop]
    split
    · simp [*]
    · rw [le_cons, ih (n / 256) (by rw [Nat.pow_succ] at h; omega)]
      simp; omega

end Sys2Proof.Machine
end

