-- ==== Sys2Proof/Laws/PerInstr.lean ====
section
/-! SUPPORT. Facts about every command as syntax, one lemma per constructor. -/

namespace Sys2Proof.Laws.EncodingFields

/-- The fields read back from a command's word are its format-C fields, with `zero` zero (R95). -/
def Statement (i : Instr) : Prop := CommandWord.ofWord (encode i) = i.fields ∧ i.fields.zero = 0

theorem nop : Statement .nop := ⟨CommandWord.ofWord_toWord _, rfl⟩
theorem init : Statement .init := ⟨CommandWord.ofWord_toWord _, rfl⟩
theorem injb (imm8 : Byte) : Statement (.injb imm8) := ⟨CommandWord.ofWord_toWord _, rfl⟩
theorem update : Statement .update := ⟨CommandWord.ofWord_toWord _, rfl⟩
theorem updTable : Statement .updTable := ⟨CommandWord.ofWord_toWord _, rfl⟩
theorem updFold : Statement .updFold := ⟨CommandWord.ofWord_toWord _, rfl⟩
theorem finalize : Statement .finalize := ⟨CommandWord.ofWord_toWord _, rfl⟩

end Sys2Proof.Laws.EncodingFields
end

