-- ==== Sys2Proof/Laws/Position.lean ====
section
/-! SUPPORT. How far a run of the sequencer gets before the first byte that cannot be read: its micro-operations consume the sizes
of R177's counts, and `CRC` is zero exactly inside the fold. -/

namespace Sys2Proof.Machine

/-- The bytes each remaining micro-operation of a state inside a command consumes, in order. -/
def remaining (s : State) : List Nat :=
  match s.phase with
  | .idle => []
  | .head => microBytes .fold s.ptr.toNat s.len.toNat
  | .load0 => alignedBytes s.len.toNat
  | .loadK => 48 :: fourLaneBytes (s.len.toNat - 48)
  | .fold4 => fourLaneBytes s.len.toNat
  | .collapse | .fold1 => oneLaneBytes s.len.toNat
  | .reduce | .tail8 => tailBytes s.len.toNat
  | .tail1 => List.replicate s.len.toNat 1

/-- Does the command stand inside the fold after `c` more bytes? -/
def willBeInside (s : State) (c : Nat) : Prop :=
  match s.phase with
  | .head => insideFold s.ptr.toNat s.len.toNat c
  | .load0 => 0 < c ∧ c < s.len.toNat / 16 * 16
  | .loadK | .fold4 | .collapse | .fold1 => c < s.len.toNat / 16 * 16
  | .reduce | .tail8 | .tail1 | .idle => False

/-- `CRC` is zero during the fold phases (R168). -/
def CrcZero (s : State) : Prop :=
  match s.phase with
  | .loadK | .fold4 | .collapse | .fold1 | .reduce => s.crc = 0
  | .idle | .head | .load0 | .tail8 | .tail1 => True

/-! ## Sizes -/

theorem sizes_cons {k n : Nat} (hk : 0 < k) (h : k ≤ n) (f : Nat → List Nat) :
    List.replicate (n / k) k ++ f (n % k) = k :: (List.replicate ((n - k) / k) k ++ f ((n - k) % k)) := by
  rw [Nat.div_eq_sub_div hk h, Nat.mod_eq_sub_mod h]
  rfl

theorem sizes_short {k n : Nat} (h : n < k) (f : Nat → List Nat) : List.replicate (n / k) k ++ f (n % k) = f n := by
  rw [Nat.div_eq_of_lt h, Nat.mod_eq_of_lt h]
  rfl

theorem headLength_step {p : Word64} {n : Nat} (hp : p.toNat % 16 ≠ 0) (hn : 1 ≤ n) :
    headLength p.toNat n = headLength (p + 1).toNat (n - 1) + 1 := by
  have : (p + 1).toNat % 16 = (p.toNat + 1) % 16 := by
    rw [BitVec.toNat_add, show (1 : Word64).toNat = 1 from rfl]; omega
  simp only [headLength, this]
  omega

theorem headLength_aligned {p n : Nat} (h : ¬(p % 16 ≠ 0 ∧ 1 ≤ n)) : headLength p n = 0 := by
  unfold headLength
  omega

/-! ## Rows -/

/-- What a row that consumes `k` bytes does to the three. -/
structure Moves (s t : State) (k : Nat) : Prop where
  sizes : (k = 0 ∧ remaining t = remaining s) ∨ (0 < k ∧ remaining s = k :: remaining t)
  inside : ∀ c, willBeInside s (k + c) ↔ willBeInside t c
  zero : CrcZero s → CrcZero t

theorem row_move {s t : State} {bs : List Byte} {p : Phase} (hrow : seqRow s = ⟨none, fun _ => p⟩) (hst : seqStep s = .next t)
    (ha : SeqAdvance s t bs) : t = s.setPhase p ∧ bs.length = 0 := by
  simp only [seqStep, hrow, Host.Outcome.next.injEq] at hst
  subst hst
  have : s.len.toNat + bs.length = s.len.toNat := ha.len
  exact ⟨rfl, by omega⟩

theorem row_micro {s t : State} {bs : List Byte} {u : MicroOp} {next : State → Phase} (hrow : seqRow s = ⟨some u, next⟩)
    (hst : seqStep s = .next t) (ha : SeqAdvance s t bs) :
    ∃ cs, t = (microResult u s cs).setPhase (next (microResult u s cs)) ∧ bs.length = u.readBytes ∧
      t.len.toNat = s.len.toNat - u.readBytes ∧ u.readBytes ≤ s.len.toNat := by
  simp only [seqStep, hrow] at hst
  rcases runMicro_cases u s with ⟨cs, hr, -, hd⟩ | ⟨hr, hn, hd⟩ | ⟨-, f, hd⟩ <;> rw [hd] at hst
  · obtain rfl := (Host.Outcome.next.inj hst).symm
    have hle : u.readBytes ≤ s.len.toNat := Nat.le_trans (by cases u <;> decide) hr.len
    have h64 : u.readBytes < 2 ^ 64 := by cases u <;> decide
    have hl : ((microResult u s cs).setPhase (next (microResult u s cs))).len.toNat = s.len.toNat - u.readBytes := by
      rw [State.setPhase_len, microResult_len, BitVec.toNat_sub_of_le]
      · rw [BitVec.toNat_ofNat, Nat.mod_eq_of_lt h64]
      · rw [BitVec.le_def, BitVec.toNat_ofNat, Nat.mod_eq_of_lt h64]; exact hle
    have := ha.len
    exact ⟨cs, rfl, by omega, hl, hle⟩
  · exfalso
    obtain rfl := (Host.Outcome.next.inj hst).symm
    have h0 : s.len.toNat = 0 := ha.ok
    have hle : u.readBytes ≤ s.len.toNat := Nat.le_trans (by cases u <;> decide) hr.len
    rw [show u.readBytes = 0 by omega] at hn
    simp at hn
  · cases hst

/-- Every row that does not fail moves along the sizes. -/
theorem seqStep_moves {s t : State} {bs : List Byte} (hok : SeqOk s) (hp : s.phase ≠ .idle) (hst : seqStep s = .next t)
    (ha : SeqAdvance s t bs) : Moves s t bs.length := by
  cases hph : s.phase with
  | idle => exact absurd hph hp
  | head =>
    by_cases hc : s.ptr.toNat % Config.blockBytes ≠ 0 ∧ 1 ≤ s.len.toNat
    · obtain ⟨cs, rfl, hk, hl, hle⟩ :=
        row_micro (u := .inj) (next := fun _ => .head) (by simp only [seqRow, hph, if_pos hc]) hst ha
      have hh : headLength s.ptr.toNat s.len.toNat = headLength (s.ptr + 1).toNat (s.len.toNat - 1) + 1 :=
        headLength_step hc.1 hc.2
      have hn : s.len.toNat - 1 - headLength (s.ptr + 1).toNat (s.len.toNat - 1) =
          s.len.toNat - (headLength (s.ptr + 1).toNat (s.len.toNat - 1) + 1) := by omega
      have hptr : ((microResult .inj s cs).setPhase .head).ptr = s.ptr + 1 := rfl
      have hl1 : ((microResult .inj s cs).setPhase .head).len.toNat = s.len.toNat - 1 := hl
      rw [hk]
      refine ⟨.inr ⟨by decide, ?_⟩, fun c => ?_, fun _ => trivial⟩
      · simp only [remaining, hph, State.setPhase_phase, hptr, hl1, microBytes, hh, hn]; rfl
      · simp only [willBeInside, hph, State.setPhase_phase, hptr, hl1, insideFold, hh, hn, MicroOp.readBytes]; omega
    · have hh : headLength s.ptr.toNat s.len.toNat = 0 := headLength_aligned hc
      by_cases hl : Config.engageBytes ≤ s.len.toNat
      · obtain ⟨rfl, hk⟩ := row_move (p := .load0) (by simp only [seqRow, hph, if_neg hc, if_pos hl]) hst ha
        have hl' : 32 ≤ s.len.toNat := hl
        rw [hk]
        refine ⟨.inl ⟨rfl, ?_⟩, fun c => ?_, fun _ => trivial⟩
        · simp [remaining, hph, microBytes, hh]
        · simp only [willBeInside, hph, State.setPhase_phase, State.setPhase_len, insideFold, hh]; omega
      · obtain ⟨rfl, hk⟩ := row_move (p := .tail8) (by simp only [seqRow, hph, if_neg hc, if_neg hl]) hst ha
        have hl' : s.len.toNat < 32 := Nat.lt_of_not_le hl
        rw [hk]
        refine ⟨.inl ⟨rfl, ?_⟩, fun c => ?_, fun _ => trivial⟩
        · simp [remaining, hph, microBytes, hh, alignedBytes, hl']
        · simp only [willBeInside, hph, State.setPhase_phase, insideFold, hh, iff_false]; omega
  | load0 =>
    obtain ⟨cs, rfl, hk, hl, hle⟩ := row_micro (u := .load0) (next := fun t => if t.four then .loadK else .fold1)
      (by simp only [seqRow, hph]) hst ha
    simp only [SeqOk, hph] at hok
    have hf : (microResult .load0 s cs).four = decide (128 ≤ s.len.toNat) := rfl
    rw [hk]
    by_cases h128 : 128 ≤ s.len.toNat
    · rw [if_pos (by rw [hf]; exact decide_eq_true h128)] at hl ⊢
      refine ⟨.inr ⟨by decide, ?_⟩, fun c => ?_, fun _ => rfl⟩
      · simp only [remaining, hph, State.setPhase_phase, hl, alignedBytes, MicroOp.readBytes, if_neg (Nat.not_lt.2 hok.2),
          if_neg (Nat.not_lt.2 h128), Nat.sub_sub]
      · simp only [willBeInside, hph, State.setPhase_phase, hl, MicroOp.readBytes]; omega
    · rw [if_neg (by rw [hf]; simpa using h128)] at hl ⊢
      refine ⟨.inr ⟨by decide, ?_⟩, fun c => ?_, fun _ => rfl⟩
      · simp only [remaining, hph, State.setPhase_phase, hl, alignedBytes, MicroOp.readBytes, if_neg (Nat.not_lt.2 hok.2),
          if_pos (Nat.lt_of_not_le h128)]
      · simp only [willBeInside, hph, State.setPhase_phase, hl, MicroOp.readBytes]; omega
  | loadK =>
    obtain ⟨cs, rfl, hk, hl, hle⟩ := row_micro (u := .loadK) (next := fun _ => .fold4) (by simp only [seqRow, hph]) hst ha
    rw [hk]
    refine ⟨.inr ⟨by decide, ?_⟩, fun c => ?_, fun h => ?_⟩
    · simp only [remaining, hph, State.setPhase_phase, hl, MicroOp.readBytes]
    · simp only [willBeInside, hph, State.setPhase_phase, hl, MicroOp.readBytes]; omega
    · simpa [CrcZero, hph, microResult] using h
  | fold4 =>
    by_cases hl : 64 ≤ s.len.toNat
    · obtain ⟨cs, rfl, hk, hl', hle⟩ := row_micro (u := .fold4) (next := fun _ => .fold4)
        (by simp only [seqRow, hph, if_pos hl]) hst ha
      rw [hk]
      refine ⟨.inr ⟨by decide, ?_⟩, fun c => ?_, fun h => ?_⟩
      · simp only [remaining, hph, State.setPhase_phase, hl', MicroOp.readBytes]
        exact sizes_cons (by decide) hl oneLaneBytes
      · simp only [willBeInside, hph, State.setPhase_phase, hl', MicroOp.readBytes]; omega
      · simpa [CrcZero, hph, microResult] using h
    · obtain ⟨rfl, hk⟩ := row_move (p := .collapse) (by simp only [seqRow, hph, if_neg hl]) hst ha
      rw [hk]
      refine ⟨.inl ⟨rfl, ?_⟩, fun c => ?_, fun h => by simpa [CrcZero, hph] using h⟩
      · simp only [remaining, hph, State.setPhase_phase, State.setPhase_len]
        exact (sizes_short (Nat.lt_of_not_le hl) oneLaneBytes).symm
      · simp [willBeInside, hph]
  | collapse =>
    obtain ⟨cs, rfl, hk, hl, hle⟩ := row_micro (u := .collapse) (next := fun _ => .fold1) (by simp only [seqRow, hph]) hst ha
    rw [hk]
    have hl0 : ((microResult .collapse s cs).setPhase .fold1).len.toNat = s.len.toNat := hl
    refine ⟨.inl ⟨rfl, ?_⟩, fun c => ?_, fun h => ?_⟩
    · simp only [remaining, hph, State.setPhase_phase, hl0]
    · simp only [willBeInside, hph, State.setPhase_phase, hl0, MicroOp.readBytes, Nat.zero_add]
    · simpa [CrcZero, hph, microResult] using h
  | fold1 =>
    by_cases hl : 16 ≤ s.len.toNat
    · obtain ⟨cs, rfl, hk, hl', hle⟩ := row_micro (u := .fold1) (next := fun _ => .fold1)
        (by simp only [seqRow, hph, if_pos hl]) hst ha
      rw [hk]
      refine ⟨.inr ⟨by decide, ?_⟩, fun c => ?_, fun h => ?_⟩
      · simp only [remaining, hph, State.setPhase_phase, hl', MicroOp.readBytes]
        exact sizes_cons (by decide) hl tailBytes
      · simp only [willBeInside, hph, State.setPhase_phase, hl', MicroOp.readBytes]; omega
      · simpa [CrcZero, hph, microResult] using h
    · obtain ⟨rfl, hk⟩ := row_move (p := .reduce) (by simp only [seqRow, hph, if_neg hl]) hst ha
      rw [hk]
      refine ⟨.inl ⟨rfl, ?_⟩, fun c => ?_, fun h => by simpa [CrcZero, hph] using h⟩
      · simp only [remaining, hph, State.setPhase_phase, State.setPhase_len]
        exact (sizes_short (Nat.lt_of_not_le hl) tailBytes).symm
      · simp only [willBeInside, hph, State.setPhase_phase, iff_false]; omega
  | reduce =>
    obtain ⟨cs, rfl, hk, hl, hle⟩ := row_micro (u := .reduce) (next := fun _ => .tail8) (by simp only [seqRow, hph]) hst ha
    rw [hk]
    have hl0 : ((microResult .reduce s cs).setPhase .tail8).len.toNat = s.len.toNat := hl
    refine ⟨.inl ⟨rfl, ?_⟩, fun c => ?_, fun _ => trivial⟩
    · simp only [remaining, hph, State.setPhase_phase, hl0]
    · simp only [willBeInside, hph, State.setPhase_phase]
  | tail8 =>
    by_cases hl : 8 ≤ s.len.toNat
    · obtain ⟨cs, rfl, hk, hl', hle⟩ := row_micro (u := .step8) (next := fun _ => .tail8)
        (by simp only [seqRow, hph, if_pos hl]) hst ha
      rw [hk]
      refine ⟨.inr ⟨by decide, ?_⟩, fun c => ?_, fun _ => trivial⟩
      · simp only [remaining, hph, State.setPhase_phase, hl', MicroOp.readBytes]
        exact sizes_cons (by decide) hl fun n => List.replicate n 1
      · simp only [willBeInside, hph, State.setPhase_phase]
    · obtain ⟨rfl, hk⟩ := row_move (p := .tail1) (by simp only [seqRow, hph, if_neg hl]) hst ha
      rw [hk]
      refine ⟨.inl ⟨rfl, ?_⟩, fun c => ?_, fun _ => trivial⟩
      · simp only [remaining, hph, State.setPhase_phase, State.setPhase_len]
        exact (sizes_short (Nat.lt_of_not_le hl) fun n => List.replicate n 1).symm
      · simp only [willBeInside, hph, State.setPhase_phase]
  | tail1 =>
    by_cases hl : 1 ≤ s.len.toNat
    · obtain ⟨cs, rfl, hk, hl', hle⟩ := row_micro (u := .inj) (next := fun _ => .tail1)
        (by simp only [seqRow, hph, if_pos hl]) hst ha
      rw [hk]
      refine ⟨.inr ⟨by decide, ?_⟩, fun c => ?_, fun _ => trivial⟩
      · simp only [remaining, hph, State.setPhase_phase, hl', MicroOp.readBytes]
        rw [show s.len.toNat = s.len.toNat - 1 + 1 by omega]; rfl
      · simp only [willBeInside, hph, State.setPhase_phase]
    · obtain ⟨rfl, hk⟩ := row_move (p := .idle) (by simp only [seqRow, hph, if_neg hl]) hst ha
      rw [hk]
      refine ⟨.inl ⟨rfl, ?_⟩, fun c => ?_, fun _ => trivial⟩
      · simp only [remaining, hph, State.setPhase_phase, show s.len.toNat = 0 by omega]; rfl
      · simp only [willBeInside, hph, State.setPhase_phase]

theorem stop_move {s : State} {p : Phase} (hrow : seqRow s = ⟨none, fun _ => p⟩) (hp : p ≠ .idle)
    (hst : seqStep s = .next (s.fail .buserr)) : False := by
  simp only [seqStep, hrow, Host.Outcome.next.injEq] at hst
  exact hp (congrArg State.phase hst)

theorem stop_micro {s : State} {u : MicroOp} {next : State → Phase} (hrow : seqRow s = ⟨some u, next⟩)
    (hnext : ∀ t, next t ≠ .idle) (hst : seqStep s = .next (s.fail .buserr)) :
    Ready u s ∧ memRead s.mem s.ptr.toNat u.readBytes = none := by
  simp only [seqStep, hrow] at hst
  rcases runMicro_cases u s with ⟨cs, hr, -, hd⟩ | ⟨hr, hn, -⟩ | ⟨-, f, hd⟩
  · rw [hd] at hst
    exact absurd (congrArg State.phase (Host.Outcome.next.inj hst)) (hnext _)
  · exact ⟨hr, hn⟩
  · rw [hd] at hst; cases hst

/-- A row that fails: the next micro-operation's bytes cannot all be read, and `CRC` is zero inside the fold and the register of
the bytes consumed outside it. -/
theorem seqStep_stops {s : State} (hp : s.phase ≠ .idle) (hst : seqStep s = .next (s.fail .buserr))
    (hn : ∃ k, k ≤ s.len.toNat ∧ memRead s.mem s.ptr.toNat k = none) :
    (∃ k ns, remaining s = k :: ns ∧ memRead s.mem s.ptr.toNat k = none) ∧
    (CrcZero s → willBeInside s 0 → s.crc = 0) ∧ (¬willBeInside s 0 → stands s = s.crc.toNat) := by
  cases hph : s.phase with
  | idle => exact absurd hph hp
  | head =>
    by_cases hc : s.ptr.toNat % Config.blockBytes ≠ 0 ∧ 1 ≤ s.len.toNat
    · obtain ⟨-, hr⟩ := stop_micro (u := .inj) (next := fun _ => .head) (by simp only [seqRow, hph, if_pos hc]) (by simp) hst
      have hh := headLength_step hc.1 hc.2
      refine ⟨⟨1, List.replicate (headLength (s.ptr + 1).toNat (s.len.toNat - 1)) 1 ++
        alignedBytes (s.len.toNat - headLength s.ptr.toNat s.len.toNat), ?_, hr⟩, fun _ h => ?_, fun _ => by simp only [stands, hph]⟩
      · simp only [remaining, hph, microBytes, hh, List.replicate_succ, List.cons_append]
      · simp [willBeInside, hph, insideFold] at h
    · by_cases hl : Config.engageBytes ≤ s.len.toNat
      · exact (stop_move (p := .load0) (by simp only [seqRow, hph, if_neg hc, if_pos hl]) (by decide) hst).elim
      · exact (stop_move (p := .tail8) (by simp only [seqRow, hph, if_neg hc, if_neg hl]) (by decide) hst).elim
  | load0 =>
    obtain ⟨h, hr⟩ := stop_micro (u := .load0) (next := fun t => if t.four then .loadK else .fold1) (by simp only [seqRow, hph])
      (fun t => by split <;> simp) hst
    have h32 : ¬s.len.toNat < 32 := Nat.not_lt.2 h.len
    refine ⟨?_, fun _ h => ?_, fun _ => by simp only [stands, hph]⟩
    · simp only [remaining, hph, alignedBytes, if_neg h32]
      split <;> exact ⟨16, _, rfl, hr⟩
    · simp [willBeInside, hph] at h
  | loadK =>
    obtain ⟨h, hr⟩ := stop_micro (u := .loadK) (next := fun _ => .fold4) (by simp only [seqRow, hph]) (by simp) hst
    have h112 : 112 ≤ s.len.toNat := h.len
    refine ⟨⟨48, _, by simp only [remaining, hph]; rfl, hr⟩, fun h _ => by simpa [CrcZero, hph] using h, fun h => ?_⟩
    simp only [willBeInside, hph] at h; omega
  | fold4 =>
    by_cases hl : 64 ≤ s.len.toNat
    · obtain ⟨-, hr⟩ := stop_micro (u := .fold4) (next := fun _ => .fold4) (by simp only [seqRow, hph, if_pos hl]) (by simp) hst
      have hx : remaining s = fourLaneBytes s.len.toNat := by simp only [remaining, hph]
      refine ⟨⟨64, _, hx.trans (sizes_cons (by decide) hl oneLaneBytes), hr⟩, fun h _ => by simpa [CrcZero, hph] using h, fun h => ?_⟩
      · simp only [willBeInside, hph] at h; omega
    · exact (stop_move (p := .collapse) (by simp only [seqRow, hph, if_neg hl]) (by decide) hst).elim
  | collapse =>
    obtain ⟨-, hr⟩ := stop_micro (u := .collapse) (next := fun _ => .fold1) (by simp only [seqRow, hph]) (by simp) hst
    simp [MicroOp.readBytes] at hr
  | fold1 =>
    by_cases hl : 16 ≤ s.len.toNat
    · obtain ⟨-, hr⟩ := stop_micro (u := .fold1) (next := fun _ => .fold1) (by simp only [seqRow, hph, if_pos hl]) (by simp) hst
      have hx : remaining s = oneLaneBytes s.len.toNat := by simp only [remaining, hph]
      refine ⟨⟨16, _, hx.trans (sizes_cons (by decide) hl tailBytes), hr⟩, fun h _ => by simpa [CrcZero, hph] using h, fun h => ?_⟩
      · simp only [willBeInside, hph] at h; omega
    · exact (stop_move (p := .reduce) (by simp only [seqRow, hph, if_neg hl]) (by decide) hst).elim
  | reduce =>
    obtain ⟨-, hr⟩ := stop_micro (u := .reduce) (next := fun _ => .tail8) (by simp only [seqRow, hph]) (by simp) hst
    simp [MicroOp.readBytes] at hr
  | tail8 =>
    by_cases hl : 8 ≤ s.len.toNat
    · obtain ⟨-, hr⟩ := stop_micro (u := .step8) (next := fun _ => .tail8) (by simp only [seqRow, hph, if_pos hl]) (by simp) hst
      have hx : remaining s = tailBytes s.len.toNat := by simp only [remaining, hph]
      refine ⟨⟨8, _, hx.trans (sizes_cons (by decide) hl (fun n => List.replicate n 1)), hr⟩, fun _ h => ?_, fun _ => by simp only [stands, hph]⟩
      · simp [willBeInside, hph] at h
    · exact (stop_move (p := .tail1) (by simp only [seqRow, hph, if_neg hl]) (by decide) hst).elim
  | tail1 =>
    by_cases hl : 1 ≤ s.len.toNat
    · obtain ⟨-, hr⟩ := stop_micro (u := .inj) (next := fun _ => .tail1) (by simp only [seqRow, hph, if_pos hl]) (by simp) hst
      refine ⟨⟨1, List.replicate (s.len.toNat - 1) 1, ?_, hr⟩, fun _ h => ?_, fun _ => by simp only [stands, hph]⟩
      · simp only [remaining, hph]
        conv_lhs => rw [show s.len.toNat = s.len.toNat - 1 + 1 by omega]
        rfl
      · simp [willBeInside, hph] at h
    · obtain ⟨k, hk, hr⟩ := hn
      obtain rfl : k = 0 := by omega
      simp at hr

theorem readable_of_memRead {m : Memory} {a n : Nat} {bs : List Byte} (h : memRead m a n = some bs) {j : Nat} (hj : j < n) :
    m.get (a + j) ≠ none := fun hg => by
  rw [memRead_eq_none.2 ⟨j, hj, hg⟩] at h
  cases h

/-- From a state the table can be in, with byte `k` of the range the first that cannot be read, the run ends in `BUSERR` after
the micro-operations that end before that byte. -/
theorem runSeq_stops {n k : Nat} {s : State} (hok : SeqOk s) (hn : seqMeasure s ≤ n) (hz : CrcZero s)
    (hfit : s.ptr.toNat + s.len.toNat ≤ 2 ^ 64) (hk : k < s.len.toNat)
    (hread : ∀ j, j < k → s.mem.get (s.ptr.toNat + j) ≠ none) (hnone : s.mem.get (s.ptr.toNat + k) = none) :
    ∃ u bs, runSeq n s = .next (u.fail .buserr) ∧ SeqReach s u bs ∧ bs.length = completedBytes (remaining s) k ∧
      (willBeInside s bs.length → u.crc = 0) ∧ (¬willBeInside s bs.length → stands u = u.crc.toNat) := by
  induction n generalizing s k with
  | zero =>
    unfold seqMeasure at hn
    omega
  | succ n ih =>
    have hp : s.phase ≠ .idle := fun hp => by
      have : s.len.toNat = 0 := by simpa [SeqOk, hp] using hok
      omega
    have hrun : ∀ t, seqStep s = .next t → runSeq (n + 1) s = runSeq n t := fun t ht => by
      simp only [runSeq, if_neg hp, ht]
    rcases seqStep_cases hok hp with ⟨t, bs, hst, ha⟩ | ⟨hst, l, -, hll, hl⟩
    · have hm := seqStep_moves hok hp hst ha
      have hbk : bs.length ≤ k := Nat.le_of_not_lt fun h => readable_of_memRead ha.read h hnone
      have hlen := ha.len
      have hptr : t.ptr.toNat = s.ptr.toNat + bs.length := by rw [ha.ptr]; exact ptr_toNat_add (by omega)
      obtain ⟨u, cs, hu, hre, hc, h1, h2⟩ := ih (s := t) (k := k - bs.length) ha.ok (by have := ha.measure; omega) (hm.zero hz)
        (by omega) (by omega)
        (fun j hj => by rw [ha.mem, hptr, Nat.add_assoc]; exact hread _ (by omega))
        (by rw [ha.mem, hptr, Nat.add_assoc, Nat.add_sub_cancel' hbk]; exact hnone)
      refine ⟨u, bs ++ cs, (hrun t hst).trans hu, .step hp hst ha hre, ?_, fun h => ?_, fun h => ?_⟩
      · rw [List.length_append, hc]
        rcases hm.sizes with ⟨h0, he⟩ | ⟨-, he⟩
        · rw [h0, he, Nat.zero_add, Nat.sub_zero]
        · rw [he, completedBytes, if_neg (Nat.not_lt.2 hbk)]
      · exact h1 ((hm.inside _).1 (by rwa [List.length_append] at h))
      · exact h2 fun h' => h (by rw [List.length_append]; exact (hm.inside _).2 h')
    · obtain ⟨⟨j, ns, hrem, hj⟩, h1, h2⟩ := seqStep_stops hp hst ⟨l, hll, hl⟩
      refine ⟨s, [], ?_, .refl s, ?_, h1 hz, h2⟩
      · rw [hrun _ hst]
        cases n <;> simp [runSeq]
      · obtain ⟨i, hi, hg⟩ := memRead_eq_none.1 hj
        have : k < j := Nat.lt_of_le_of_lt (Nat.le_of_not_lt fun h => hread i h hg) hi
        rw [hrem, completedBytes, if_pos this]
        rfl

/-- The same for a whole update. -/
theorem runUpdate_stops {m : Mode} {s : State} {k : Nat} (hfit : s.ptr.toNat + s.len.toNat ≤ 2 ^ 64) (hk : k < s.len.toNat)
    (hread : ∀ j, j < k → s.mem.get (s.ptr.toNat + j) ≠ none) (hnone : s.mem.get (s.ptr.toNat + k) = none) :
    ∃ u bs, runUpdate m s = .next (u.fail .buserr) ∧ SeqFrame (seqStart m s) u bs ∧
      bs.length = completedBytes (microBytes m s.ptr.toNat s.len.toNat) k ∧
      (m = .fold ∧ insideFold s.ptr.toNat s.len.toNat bs.length → u.crc = 0) ∧
      (¬(m = .fold ∧ insideFold s.ptr.toNat s.len.toNat bs.length) → u.crc = updateBlock s.crc bs) := by
  have hn : seqMeasure (seqStart m s) ≤ s.len.toNat + 16 := by
    rw [seqMeasure, show (seqStart m s).len = s.len from rfl]
    cases m <;> simp [seqStart, startPhase, Phase.rank]
  obtain ⟨u, bs, hu, hre, hc, h1, h2⟩ := runSeq_stops (s := seqStart m s) (n := s.len.toNat + 16) (k := k)
    (by cases m <;> trivial) hn (by cases m <;> trivial) hfit hk hread hnone
  have hcrc : stands u = u.crc.toNat → u.crc = updateBlock s.crc bs := fun h => BitVec.eq_of_toNat_eq (by
    rw [updateBlock_rem, ← h, hre.frame.stands, seqStart_stands])
  refine ⟨u, bs, hu, hre.frame, ?_, fun h => ?_, fun h => hcrc (h2 ?_)⟩
  · cases m <;> exact hc
  · obtain ⟨rfl, h⟩ := h; exact h1 h
  · cases m
    · exact fun hi => h ⟨rfl, hi⟩
    · exact id

end Sys2Proof.Machine
end

