-- ==== Sys2Proof/Tests/Slice0.lean ====
section
/-! SUPPORT. Decoding tests written out from R95 to R101, ill-formed words the checks refuse, single steps with the spec's own
worked values, and a witness for the hypotheses of every statement that has some. -/

namespace Sys2Proof.Tests

open Sys2Proof Sys2Proof.Machine

/-! ## Decoding (R95: `opcode` 7:0, `imm8` 15:8, `zero` 31:16) -/

theorem test_decode_nop : decode 0b0000000000000000_00000000_00000000 = .ok .nop := by decide
theorem test_decode_init : decode 0b0000000000000000_00000000_00000001 = .ok .init := by decide
theorem test_decode_injb : decode 0b0000000000000000_00110001_00000010 = .ok (.injb 0x31) := by decide
theorem test_decode_update : decode 0b0000000000000000_00000000_00000011 = .ok .update := by decide
theorem test_decode_updTable : decode 0b0000000000000000_00000000_00000100 = .ok .updTable := by decide
theorem test_decode_updFold : decode 0b0000000000000000_00000000_00000101 = .ok .updFold := by decide
theorem test_decode_final : decode 0b0000000000000000_00000000_00000110 = .ok .finalize := by decide

/-- R245's three examples of illegal words. -/
theorem test_decode_illegal :
    decode 0x00000107 = .error .opcode ∧ decode 0x00010000 = .error .zeroField ∧ decode 0x00000103 = .error .imm8 := by decide

/-- R101: `INJB b` is `(b << 8) | 0x02`. -/
theorem test_encode_injb : encode (.injb 0x31) = 0x00003102 := by decide

theorem test_decodeTableWord : decodeTableWord 32 0xFF02 = some (.injb 0xFF) ∧ decodeTableWord 32 7 = none := by decide

/-! ## WellFormed: one ill-formed word for each check -/

theorem test_opcode_refused : (CommandWord.mk 7 0 0).opcodeDefined = false ∧ (CommandWord.mk 7 0 0).legal = false := by decide
theorem test_imm8_refused : (CommandWord.mk 3 1 0).imm8Allowed = false ∧ (CommandWord.mk 3 1 0).legal = false := by decide
theorem test_zero_refused : (CommandWord.mk 2 0 1).zeroIsZero = false ∧ (CommandWord.mk 2 0 1).legal = false := by decide
theorem test_injb_wellFormed : (Instr.injb 0xFF).wellFormed = true := by decide

/-! ## Small states -/

/-- Consecutive bytes from an address up. -/
def bytesAt (a : Nat) : List Byte → Memory
  | [] => []
  | b :: bs => (a, b) :: bytesAt (a + 1) bs

/-- The bytes `k`, `k + 1`, … -/
def count (k n : Nat) : List Byte := (List.range n).map fun i => BitVec.ofNat 8 (k + i)

/-- After reset, with `n` bytes from `k` on at 0x1000 and the range `[ptr, ptr + len)`. -/
def ranged (k n : Nat) (ptr len : Word64) : State := { State.reset with mem := bytesAt 0x1000 (count k n), ptr := ptr, len := len }

/-- The digits `1` to `9` at 0x1000, as the range (R207's example). -/
def digits : State := ranged 0x31 9 0x1000 9

/-- The same on a device with neither capability. -/
def digitsPlain : State := { digits with cap := ⟨false, false⟩ }

/-- A stream in each of the other states. -/
def running (s : State) : State := { s with stream := .running }
def finalized (s : State) : State := { s with stream := .finalized, result := 0xFFFFFFFF }
def failed (s : State) : State := { s with stream := .failed, err := some .illcmd }

/-- What an outcome's next state says, if it is one. -/
def observe {α : Type} (f : State → α) : Host.Outcome State Fault Refusal → Option α
  | .next s => some (f s)
  | .fault _ => none
  | .refused _ => none

/-- `ACC[0]` after a micro-operation that completes. -/
def accAfter : Micro → Option Vec128
  | .done t => some t.acc0.value
  | .fail _ => none
  | .fault _ => none

/-! ## Single steps, with the spec's worked values -/

theorem test_nop : exec .nop (failed digits) = .next (failed digits) := by rfl

theorem test_init : observe (fun t => (t.crc, t.stream, t.err, t.ptr)) (exec .init (failed digits)) =
    some (0, .start, none, 0x1000) := by decide

/-- R206's example. -/
theorem test_injb : observe (fun t => (t.crc, t.total, t.stream)) (exec (.injb 0x31) State.reset) =
    some (0xD0F37027, 1, .running) := by decide +kernel

/-- R247's example. -/
theorem test_injb_overflow : observe (fun t => (t.err, t.total)) (exec (.injb 0) { State.reset with total := 0xFFFFFFFFFFFFFFFF }) =
    some (some .overflow, 0xFFFFFFFFFFFFFFFF) := by decide +kernel

/-- R207's example. -/
theorem test_update : observe (fun t => (t.crc, t.ptr, t.len, t.total, t.sel)) (exec .update digits) =
    some (0x89A1897F, 0x1009, 0, 9, .fold) := by decide +kernel

/-- R248's example: a range that runs past the last address. -/
theorem test_update_range : observe (fun t => (t.err, t.sel)) (exec .update { State.reset with ptr := 0xFFFFFFFFFFFFFFF0, len := 17 }) =
    some (some .range, .unresolved) := by decide +kernel

/-- R249's example in Table mode. -/
theorem test_updTable_buserr :
    observe (fun t => (t.ptr, t.len, t.total, t.err)) (exec .updTable (ranged 0 20 0x1000 0x20)) =
      some (0x1010, 0x10, 0x20, some .buserr) := by decide +kernel

theorem test_updTable : observe (fun t => (t.crc, t.ptr, t.sel)) (exec .updTable digitsPlain) =
    some (0x89A1897F, 0x1009, .unresolved) := by decide +kernel

/-- R175's example: the register 0xDEADBEEF and the bytes 00 to 1F. -/
theorem test_updFold : observe (fun t => (t.crc, t.len)) (exec .updFold { ranged 0 32 0x1000 32 with crc := 0xDEADBEEF }) =
    some (0xDA3575C8, 0) := by decide +kernel

/-- The accumulator inside that command: R168's example and then R172's. -/
theorem test_fold_micro_operations :
    accAfter (uLOAD0 { ranged 0 32 0x1000 32 with crc := 0xDEADBEEF }) = some 0xDEACBCEC0405060708090A0B0C0D0E0F ∧
    accAfter (uFOLD1 { ranged 0 32 0x1010 16 with acc0 := ⟨0xDEACBCEC0405060708090A0B0C0D0E0F, true⟩ }) =
      some 0x101112134871EFE4CBC1EED4BFC1F0C8 := by decide +kernel

theorem test_updFold_nocap : observe (fun t => t.err) (exec .updFold digitsPlain) = some (some .nocap) := by decide +kernel

/-- R210's example: after `INIT; INJB 0x00`. -/
theorem test_final : observe (fun t => (t.crc, t.result, t.stream)) (exec .finalize (running { State.reset with total := 1 })) =
    some (0x04C11DB7, 0xFB3EE248, .finalized) := by decide +kernel

theorem test_final_badstate : observe (fun t => t.err) (exec .finalize (finalized State.reset)) = some (some .badstate) := by decide

/-- The next step runs the word placed for it. -/
theorem test_withFetchWord :
    observe (fun t => (t.crc, t.reply)) (step (State.reset.withFetchWord 32 0x3102)) = some (0xD0F37027, some .ok) := by decide +kernel

/-- R245's example: an illegal word leaves `STATUS = 0x13`. -/
theorem test_illegal_word : observe (fun t => (t.status, t.reply)) (hostWrite 0x00 8 0x00000107 State.reset) =
    some (0x13, some .ok) := by decide +kernel

theorem test_reset_status : hostRead 0x08 8 State.reset = { State.reset with reply := some (.data 0) } := by rfl

/-- A store outside CFE that makes an address unreadable again removes its entry. -/
theorem test_memory_canonical :
    Memory.wf (bytesAt 0x1000 (count 0 3)) = true ∧ Memory.drop (Memory.put [] 5 1) 5 = [] ∧
    Memory.put (Memory.put [] 5 1) 3 2 = [(3, 2), (5, 1)] := by decide

/-! ## Witnesses -/

theorem test_witness_EncodeOfDecodeIsTheWord : decode 0x0000FF02 = .ok (.injb 0xFF) := by decide

theorem test_witness_StepRunsTheDecodedCommand :
    (State.reset.withFetchWord 32 1).phase = .idle ∧ (State.reset.withFetchWord 32 1).inbox = .write 0x00 8 1 :: [] ∧
    decode ((1 : Word64).setWidth 32) = .ok .init := by decide

theorem test_witness_HostEventsAreTakenInOrder :
    State.reset.phase = .idle ∧ State.reset.inbox = [] ∧
    (State.reset.setInbox [.read 0x08 8, .reset ⟨false, false⟩]).phase = .idle := by decide

theorem test_witness_CommandWordsInAndOutOfFailed :
    (failed digits).stream = .failed ∧ (0x00000006 : Word64).setWidth 32 ≠ (1 : Word32) ∧
    (0xFFFFFFFF00000001 : Word64).setWidth 32 = (1 : Word32) ∧ Instr.finalize ≠ .init ∧
    digits.stream ≠ .failed ∧ (CommandWord.ofWord ((0x00000007 : Word64).setWidth 32)).legal = false := by decide

theorem test_witness_UndefinedAccessesAnswerError :
    (hostRead 0x10 8 (failed digits)).reply = some .error ∧ (hostRead 0x30 8 digits).reply = some .error ∧
    (hostRead 0x30 8 (finalized digits)).reply = some (.data 0xFFFFFFFF) ∧
    (hostRead 0x68 8 digits).reply = some (.data 0x0000002004C11DB7) ∧ (hostRead 0x70 8 digits).reply = some .error ∧
    (hostRead 0x04 8 digits).reply = some .error ∧ (hostRead 0x08 4 digits).reply = some .error := by decide +kernel

theorem test_witness_CrcHostAccess :
    digits.stream ≠ .failed ∧ (failed digits).stream = .failed ∧ (running digits).takesBytes = true ∧
    (finalized digits).takesBytes = false := by decide

/-- `RESULT` in `Finalized` and in the state a stream is in before it. -/
theorem test_witness_PlainRegisterAccess :
    (finalized digits).stream = .finalized ∧ digits.stream ≠ .finalized ∧
    (hostRead 0x30 8 (finalized digits)).reply = some (.data 0xFFFFFFFF) ∧ (hostRead 0x30 8 digits).reply = some .error := by
  decide +kernel

/-- Data that differ only above a 32-bit register's width; `CRC` where it is writable and where it is not; reads on both sides
of the two `ERROR`s. -/
theorem test_witness_WidthsBoundReadsAndWrites :
    (0xFFFFFFFF00000003 : Word64).toNat % 2 ^ Reg.cmd.width = (3 : Word64).toNat % 2 ^ Reg.cmd.width ∧
    (hostRead Reg.mu.offset 8 digits).reply = some (.data 0x104D101DF) ∧
    observe (fun t => t.crc) (hostWrite Reg.crc.offset 8 0x1DEADBEEF (running digits)) = some 0xDEADBEEF ∧
    (running digits).takesBytes = true ∧ (finalized digits).stream = .finalized ∧ (failed digits).stream = .failed ∧
    ¬((Reg.result = .crc ∧ (finalized digits).stream = .failed) ∨
      (Reg.result = .result ∧ (finalized digits).stream ≠ .finalized)) := by
  decide +kernel

theorem test_witness_ChecksFailInOrder :
    (finalized digits).stream = .finalized ∧ raisesBadState .finalize = true ∧ digitsPlain.takesBytes = true ∧
    digitsPlain.cap.clmul = false ∧ { digits with total := 0xFFFFFFFFFFFFFFFF }.total.toNat + 1 > 2 ^ 64 - 1 ∧
    updateMode .updTable digits = some .table ∧
    { digits with total := 0xFFFFFFFFFFFFFFF7 }.total.toNat + digits.len.toNat > 2 ^ 64 - 1 ∧
    { digits with total := 0xFFFFFFFFFFFFFFF6 }.total.toNat + digits.len.toNat ≤ 2 ^ 64 - 1 ∧
    { digits with ptr := 0xFFFFFFFFFFFFFFF8 }.ptr.toNat + digits.len.toNat > 2 ^ 64 := by decide

theorem test_witness_hasCapability : hasCapability .updFold digits ∧ hasCapability .updTable digitsPlain :=
  ⟨fun _ => (by decide), nofun⟩

/-- R249's example: byte 20 of 32 is the first that cannot be read, and both modes have consumed 16 bytes before it. -/
theorem test_witness_BusErrorLeavesTheListedState :
    updateMode .updTable (ranged 0 20 0x1000 0x20) = some .table ∧ (ranged 0 20 0x1000 0x20).takesBytes = true ∧
    ((ranged 0 20 0x1000 0x20).total.toNat + (ranged 0 20 0x1000 0x20).len.toNat ≤ 2 ^ 64 - 1 ∧
      (ranged 0 20 0x1000 0x20).ptr.toNat + (ranged 0 20 0x1000 0x20).len.toNat ≤ 2 ^ 64) ∧
    memRead (ranged 0 20 0x1000 0x20).mem 0x1000 0x20 = none ∧
    (memRead (ranged 0 20 0x1000 0x20).mem 0x1000 0x10).isSome = true ∧
    (∀ j, j < 20 → (ranged 0 20 0x1000 0x20).mem.get (0x1000 + j) ≠ none) ∧
    (ranged 0 20 0x1000 0x20).mem.get (0x1000 + 20) = none ∧
    completedBytes (microBytes .table 0x1000 0x20) 20 = 16 ∧ completedBytes (microBytes .fold 0x1000 0x20) 20 = 16 := by
  decide +kernel

/-- Where completed micro-operations end, counted by hand from R177: 8 and 7 single bytes; two eights; and for 320 bytes from
0x1003, `h = 13`, `B = 19`, `t = 3`, so 13 single bytes, 16, 48, three times 64, two times 16, and 3 single bytes. -/
theorem test_completedBytes :
    completedBytes (microBytes .table 0 15) 14 = 14 ∧ completedBytes (microBytes .table 0 16) 15 = 8 ∧
    completedBytes (microBytes .fold 0x1003 320) 12 = 12 ∧ completedBytes (microBytes .fold 0x1003 320) 13 = 13 ∧
    completedBytes (microBytes .fold 0x1003 320) 30 = 29 ∧ completedBytes (microBytes .fold 0x1003 320) 77 = 77 ∧
    completedBytes (microBytes .fold 0x1003 320) 300 = 285 ∧ completedBytes (microBytes .fold 0x1003 320) 317 = 317 := by
  decide +kernel

theorem test_insideFold : insideFold 0x1000 0x20 16 ∧ ¬insideFold 0x1000 0x20 0 ∧ ¬insideFold 0x1000 0x20 32 ∧
    ¬insideFold 0x1000 31 8 := by
  simp [insideFold, headLength]

theorem test_witness_FailedStreamEmitsNoChecksum :
    (finalized { State.reset with crc := 0 }).Coherent ∧
    (hostRead 0x30 8 (finalized State.reset)).reply = some (.data 0xFFFFFFFF) ∧ (failed digits).stream = .failed :=
  ⟨⟨rfl, rfl, by decide, fun _ => (by decide), nofun, nofun, .inl rfl⟩,
    by decide, rfl⟩

theorem test_witness_InjbInjectsOneByte :
    (finalized digits).stream = .finalized ∧ { digits with total := 0xFFFFFFFFFFFFFFFF }.takesBytes = true ∧
    { digits with total := 0xFFFFFFFFFFFFFFFF }.total.toNat + 1 > 2 ^ 64 - 1 ∧
    { digits with total := 0xFFFFFFFFFFFFFFFE }.total.toNat + 1 ≤ 2 ^ 64 - 1 := by decide

/-- Accepted ranges: one that ends at the top of memory, and an empty one. -/
theorem test_witness_updates :
    digits.takesBytes = true ∧ digits.fits ∧ memRead digits.mem digits.ptr.toNat digits.len.toNat = some (count 0x31 9) ∧
    digits.cap.clmul = true ∧ digits.cap.vec = true ∧
    { State.reset with mem := bytesAt 0xFFFFFFFFFFFFFFFF [7], ptr := 0xFFFFFFFFFFFFFFFF, len := 1 }.fits ∧
    memRead (bytesAt 0xFFFFFFFFFFFFFFFF [7]) 0xFFFFFFFFFFFFFFFF 1 = some [7] ∧
    memRead State.reset.mem State.reset.ptr.toNat State.reset.len.toNat = some [] :=
  ⟨by decide, ⟨by decide, by decide⟩, by decide +kernel, by decide, by decide, ⟨by decide, by decide⟩, by decide, by decide⟩

theorem test_witness_FinalFoldsTheByteCount :
    (finalized digits).stream = .finalized ∧ (running { digits with total := 0xFFFFFFFFFFFFFFFF }).takesBytes = true ∧
    lengthBytes 0 = [] ∧ lengthBytes 256 = [0, 1] ∧ (lengthBytes (2 ^ 64 - 1)).length = 8 := by decide +kernel

theorem test_witness_exec_next :
    exec .init (failed digits) = .next (failed digits).startStream ∧ (failed digits).phase = .idle ∧
    updateMode (.injb 0) digits = none ∧ updateMode .update digitsPlain = some .table ∧
    (observe (fun t => t.len) (exec .update digitsPlain)).isSome = true := by
  refine ⟨rfl, ?_⟩
  decide +kernel

theorem test_witness_DispatcherResolvesOnce :
    observe (fun t => t.sel) (hostEvent (.write 0x00 8 3) digits) = some .fold ∧
    observe (fun t => t.sel) (hostEvent (.write 0x00 8 3) digitsPlain) = some .table ∧ digits.takesBytes = true ∧ digits.fits :=
  ⟨by decide +kernel, by decide +kernel, by decide, ⟨by decide, by decide⟩⟩

theorem test_witness_CommandsLeaveTheRestAlone :
    MicroOp.reduce ∉ [.load0, .loadK, .fold4, .collapse, .fold1] ∧ MicroOp.fold1 ∉ [.load0, .collapse] ∧
    updateMode .finalize digits = none ∧ Instr.updTable ≠ .update ∧ { digits with phase := .tail8 }.phase = .tail8 := by decide

theorem test_witness_OnlyOutsideStoresChangeMemory :
    digits.mem.wf = true ∧
    observe (fun t => t.mem.get 0x1000) (step (digits.setInbox [.store 0x1000 none])) = some none := by decide +kernel

theorem test_witness_CommandsAlwaysComplete : digits.phase = .idle := by decide

/-- A state inside a fold command: 128 bytes left, four written accumulators. -/
def folding : State :=
  { ranged 0 200 0x1000 128 with acc0 := ⟨1, true⟩, acc1 := ⟨2, true⟩, acc2 := ⟨3, true⟩, acc3 := ⟨4, true⟩, phase := .fold4 }

theorem test_witness_micro_operations :
    1 ≤ folding.len.toNat ∧ 112 ≤ folding.len.toNat ∧ folding.ptr.toNat % 16 = 0 ∧ folding.mem.get folding.ptr.toNat = some 0 ∧
    State.reset.mem.get State.reset.ptr.toNat = none ∧
    memRead folding.mem folding.ptr.toNat 8 = some (count 0 8) ∧
    memRead folding.mem folding.ptr.toNat 16 = some (count 0 16) ∧
    memRead folding.mem folding.ptr.toNat 48 = some (count 0 16 ++ count 16 16 ++ count 32 16) ∧
    memRead folding.mem folding.ptr.toNat 64 = some (count 0 16 ++ count 16 16 ++ count 32 16 ++ count 48 16) ∧
    memRead { folding with ptr := 0x10C0 }.mem 0x10C0 8 = some (count 192 8) ∧
    memRead { folding with ptr := 0x10C0 }.mem 0x10C0 16 = none ∧
    folding.acc0.written = true ∧ folding.acc1.written = true ∧ folding.acc2.written = true ∧ folding.acc3.written = true := by
  decide +kernel

theorem test_witness_FailEntryDiscardsTheFailingStep :
    (seqRow { folding with ptr := 0x10C0 }).micro = some .fold4 ∧
    runMicro .fold4 { folding with ptr := 0x10C0 } = .fail .buserr := by
  constructor
  · rfl
  · decide +kernel

theorem test_witness_generators :
    Config.crc32.inDomain = true ∧ (Generator.mk 3 3).inDomain = true ∧ (Generator.mk 64 (2 ^ 64 - 1)).inDomain = true ∧
    (Generator.mk 2 3).inDomain = false ∧ polymod Config.crc32 5 < 2 ^ 32 ∧
    (5 : Nat) ^^^ polymod Config.crc32 5 = gfMul 0 Config.crc32.poly := by decide +kernel

theorem test_witness_engines :
    (count 1 8).length = 8 ∧ (count 1 4).length = (count 9 4).length ∧ updateBlock 0 (count 0x31 9) = 0x89A1897F ∧
    (3 : Word64) ≠ 0 ∧ clmul64 3 3 = 5 ∧ k1lo.toNat < 2 ^ 32 ∧ k4hi.toNat < 2 ^ 32 := by decide +kernel

theorem test_witness_FoldStepsKeepTheRepresentation :
    OneLane { folding with acc0 := ⟨5, true⟩ } (List.replicate 15 0 ++ [5]) ∧
    FourLane { folding with acc0 := ⟨0, true⟩, acc1 := ⟨0, true⟩, acc2 := ⟨0, true⟩, acc3 := ⟨5, true⟩ }
      (List.replicate 63 0 ++ [5]) ∧
    (∃ t, runMicro .load0 folding = .done t) ∧ (∃ t, runMicro .fold1 folding = .done t) ∧
    (∃ t, runMicro .loadK folding = .done t) ∧ (∃ t, runMicro .fold4 folding = .done t) ∧
    (∃ t, runMicro .collapse folding = .done t) ∧ (∃ t, runMicro .reduce folding = .done t) := by
  refine ⟨⟨rfl, by decide +kernel⟩, ⟨rfl, by decide +kernel⟩, ⟨_, rfl⟩, ⟨_, rfl⟩, ⟨_, rfl⟩, ⟨_, rfl⟩, ⟨_, rfl⟩, ⟨_, rfl⟩⟩

theorem test_witness_FoldAgreesWithTable : digits.ptr.toNat + digits.len.toNat ≤ 2 ^ 64 := by decide

/-- The events of a stream in pieces: a byte, four bytes, the rest where `PTR` was left after a `NOP` and a read, and one byte of a
buffer refilled between two updates. -/
def pieces : List HostEvent :=
  eventsOf ([.cmd (.injb 0x30)] ++ (Pseudo.upd 0x1000 4).expand ++ [.cmd .nop, .rd .status, .wr .len 5, .cmd .updFold]) ++
    .store 0x1000 (some 0x3A) :: eventsOf (Pseudo.updt 0x1000 1).expand

theorem test_witness_StreamsComputeThePosixChecksum :
    digits.phase = .idle ∧ injectedBytes pieces digits.cursor = some (count 0x30 11) ∧ pieces.length = 12 ∧
    injectedBytes pieces digitsPlain.cursor = none ∧ injectedBytes (eventsOf (Pseudo.seed 1).expand) digits.cursor = none := by
  decide +kernel

theorem test_witness_CksumAnswersThePosixChecksum :
    (digits.setInbox (eventsOf (Pseudo.cksum 0x1000 9).expand)).phase = .idle ∧ (0x1000 : Word64).toNat + (9 : Word64).toNat ≤ 2 ^ 64 ∧
    memRead digits.mem (0x1000 : Word64).toNat (9 : Word64).toNat = some (count 0x31 9) ∧
    (eventsOf (Pseudo.cksum 0x1000 9).expand).length = 6 := by decide +kernel

/-- One byte at 0x1000, beside a state with another byte outside the range and other hidden state. -/
def oneByte : State := ranged 7 1 0x1000 1
def oneByteElse : State := { oneByte with mem := [(0x1000, 7), (0x1001, 1)], acc0 := ⟨5, true⟩, acc3 := ⟨9, false⟩, four := true }

theorem test_witness_BytesOutsideTheRangeDoNotMatter :
    SameButHidden oneByte oneByteElse ∧ oneByte.mem ≠ oneByteElse.mem ∧ oneByte.acc0 ≠ oneByteElse.acc0 ∧
    ∀ a, oneByte.ptr.toNat ≤ a → a < oneByte.ptr.toNat + oneByte.len.toNat → oneByteElse.mem.get a = oneByte.mem.get a := by
  refine ⟨⟨rfl, rfl, rfl, rfl, rfl, rfl, rfl, rfl, rfl, rfl, rfl, rfl⟩, by decide, by decide, fun a h1 h2 => ?_⟩
  have h3 : 0x1000 ≤ a := h1
  have h4 : a < 0x1001 := h2
  obtain rfl : a = 0x1000 := by omega
  decide

theorem test_witness_StepsKeepTheStateCoherent :
    State.reset.Coherent ∧ observe (fun t => t.stream) (step (State.reset.setInbox [commandEvent 3])) = some .running ∧
    Memory.wf (bytesAt 0x1000 (count 0 4)) = true :=
  ⟨⟨rfl, rfl, by decide, nofun, fun _ => rfl, fun _ => rfl, .inl rfl⟩, by decide +kernel, by decide +kernel⟩

end Sys2Proof.Tests
end

section
/-! What `MemRead` gives (spec/00_scope.md R14). -/

namespace Sys2Proof.Machine

/-- Element `k` of the bytes read is what address `a + k` answers (R14): the slice of length one at `k`. -/
theorem get_add_of_memRead {m : Memory} {a n k : Nat} {bs : List Byte} (h : memRead m a n = some bs) (hk : k < n) :
    m.get (a + k) = bs[k]? := by
  have hlen : k < bs.length := memRead_length h ▸ hk
  have hslice : memRead m (a + k) 1 = some ((bs.drop k).take 1) := memRead_slice h hk
  rw [memRead_one, List.take_one, List.head?_drop, List.getElem?_eq_getElem hlen, Option.map_eq_some_iff] at hslice
  obtain ⟨b, hget, hb⟩ := hslice
  rw [hget, List.getElem?_eq_getElem hlen, List.singleton_inj.1 hb]

/-- The bytes a read gives are determined by its addresses: a second list of that length with those elements is the one read. -/
theorem memRead_eq_some {m : Memory} {a n : Nat} {bs : List Byte} :
    memRead m a n = some bs ↔ bs.length = n ∧ ∀ k, k < n → m.get (a + k) = bs[k]? := by
  constructor
  · exact fun h => ⟨memRead_length h, fun k hk => get_add_of_memRead h hk⟩
  · rintro ⟨hlen, hget⟩
    cases hread : memRead m a n with
    | none =>
      obtain ⟨k, hk, hnone⟩ := memRead_eq_none.1 hread
      have hin : bs[k]? = some bs[k] := List.getElem?_eq_getElem (hlen ▸ hk)
      rw [hget k hk, hin] at hnone
      cases hnone
    | some cs =>
      have hcs : cs = bs := List.ext_getElem?' fun k hk => by
        have hk' : k < n := by simpa [memRead_length hread, hlen] using hk
        rw [← get_add_of_memRead hread hk', hget k hk']
      rw [hcs]

/-- Settles O32: success by `memRead_eq_some`, failure by `memRead_eq_none`. -/
theorem memReadReadsEveryByte : Obligations.MemReadReadsEveryByte :=
  fun _ _ _ => ⟨fun _ => memRead_eq_some, memRead_eq_none⟩

end Sys2Proof.Machine
end

section
/-! What the host port answers at a register of the map (spec/30_encoding.md R90 to R93). -/

namespace Sys2Proof.Machine

/-! ## Accesses by register -/

/-- A read of a register that answers a value. -/
theorem hostRead_of_some {r : Reg} {s : State} {v : Word64} (h : readReg r s = some v) :
    hostRead r.offset 8 s = s.setReply (.data v) := by
  simp only [hostRead, selectReg_offset, h]

/-- A read of a register that answers no value. -/
theorem hostRead_of_none {r : Reg} {s : State} (h : readReg r s = none) :
    hostRead r.offset 8 s = s.setReply .error := by
  simp only [hostRead, selectReg_offset, h]

/-- A write to a register of the map is answered `OK` after its effect. -/
theorem hostWrite_offset (r : Reg) (v : Word64) (s : State) :
    hostWrite r.offset 8 v s = thenReply .ok (writeReg r v s) := by
  simp only [hostWrite, selectReg_offset]

/-- A write whose effect is the state `t`. -/
theorem hostWrite_of_next {r : Reg} {v : Word64} {s t : State} (h : writeReg r v s = .next t) :
    hostWrite r.offset 8 v s = .next (t.setReply .ok) := by
  rw [hostWrite_offset, h, thenReply]

/-! ## The values read -/

theorem xpowMod_crc32_128 : xpowMod Config.crc32 128 = 0xE8A45605 := by decide +kernel

theorem xpowMod_crc32_192 : xpowMod Config.crc32 192 = 0xC5B9CD4C := by decide +kernel

theorem xpowMod_crc32_512 : xpowMod Config.crc32 512 = 0xE6228B11 := by decide +kernel

theorem xpowMod_crc32_576 : xpowMod Config.crc32 576 = 0x8833794C := by decide +kernel

theorem mu_crc32 : mu Config.crc32 = 0x104D101DF := by decide +kernel

/-- The fields of `STATUS` stand at the bits of R38, and nothing above them. -/
theorem extractLsb'_fields (e : BitVec 4) (l t : BitVec 2) :
    ((e ++ l ++ t).setWidth 64).extractLsb' 0 2 = t ∧
    ((e ++ l ++ t).setWidth 64).extractLsb' 2 2 = l ∧
    ((e ++ l ++ t).setWidth 64).extractLsb' 4 4 = e ∧
    ((e ++ l ++ t).setWidth 64).extractLsb' 8 56 = 0 := by
  refine ⟨?_, ?_, ?_, ?_⟩ <;> apply BitVec.eq_of_getLsbD_eq <;> intro i hi <;>
    simp only [BitVec.getLsbD_extractLsb', BitVec.getLsbD_setWidth, BitVec.getLsbD_append]
  · simp [hi, show i < 64 by omega]
  · simp [hi, show 2 + i < 64 by omega, show ¬ 2 + i < 2 by omega]
  · simp [hi, show 4 + i < 64 by omega, show ¬ 4 + i < 2 by omega, show ¬ 4 + i - 2 < 2 by omega,
      show 4 + i - 2 - 2 = i by omega]
  · simp [show ¬ 8 + i < 2 by omega, show ¬ 8 + i - 2 < 2 by omega, BitVec.getLsbD_of_ge e (8 + i - 2 - 2) (by omega)]

/-- The two bits of `CAP` stand at the bits of R34, and nothing above them. -/
theorem capWord_bits (s : State) :
    (s.capWord.setWidth 64).getLsbD 0 = s.cap.clmul ∧ (s.capWord.setWidth 64).getLsbD 1 = s.cap.vec ∧
    (s.capWord.setWidth 64).extractLsb' 2 62 = (0 : BitVec 62) := by
  unfold State.capWord
  cases s.cap.clmul <;> cases s.cap.vec <;> decide

/-- Settles O11: the four powers and the quotient evaluated once, the registers read from them. -/
theorem constantRegistersReadTheirValues : Obligations.ConstantRegistersReadTheirValues := by
  intro s v
  have word {n k : Nat} (h : n = k) : some (BitVec.ofNat 64 n) = some (BitVec.ofNat 64 k) := by rw [h]
  refine ⟨hostRead_of_some (r := .k1lo) (word xpowMod_crc32_128),
    hostRead_of_some (r := .k1hi) (word xpowMod_crc32_192),
    hostRead_of_some (r := .k4lo) (word xpowMod_crc32_512),
    hostRead_of_some (r := .k4hi) (word xpowMod_crc32_576),
    hostRead_of_some (r := .mu) (word mu_crc32),
    hostRead_of_some (r := .poly) rfl,
    xpowMod_crc32_128, xpowMod_crc32_192, xpowMod_crc32_512, xpowMod_crc32_576, mu_crc32, ?_⟩
  simp only [List.forall_mem_cons, List.not_mem_nil, false_implies, implies_true, and_true]
  exact ⟨hostWrite_of_next (r := .k1lo) rfl, hostWrite_of_next (r := .k1hi) rfl, hostWrite_of_next (r := .k4lo) rfl,
    hostWrite_of_next (r := .k4hi) rfl, hostWrite_of_next (r := .mu) rfl, hostWrite_of_next (r := .poly) rfl⟩

/-- Settles O12: the three codes stand at their bits by `extractLsb'_fields`. -/
theorem statusReadsItsThreeFields : Obligations.StatusReadsItsThreeFields := by
  refine ⟨fun s => ⟨s.status.setWidth 64, hostRead_of_some (r := .status) rfl, ?_⟩,
    fun s v => hostWrite_of_next (r := .status) rfl⟩
  obtain ⟨hstream, hsel, herr, habove⟩ := extractLsb'_fields (errCode s.err) s.sel.code s.stream.code
  refine ⟨hstream.trans ?_, hsel.trans ?_, herr.trans ?_, habove⟩
  · cases s.stream <;> rfl
  · cases s.sel <;> rfl
  · rcases s.err with _ | c
    · rfl
    · cases c <;> rfl

/-- Settles O13: reads turn on `Failed`, writes on the states that take bytes. -/
theorem crcHostAccess : Obligations.CrcHostAccess := by
  intro s v
  have hlow : low32 v = v.extractLsb' 0 32 := BitVec.setWidth_eq_extractLsb' (by decide)
  refine ⟨fun h => hostRead_of_some (r := .crc) (if_neg h), fun h => hostRead_of_none (r := .crc) (if_pos h),
    fun h => ?_, fun h => ?_⟩
  · have hw : writeReg .crc v s = .next (s.setCrc (low32 v)) := congrArg _ (if_pos h)
    rw [hlow] at hw
    exact hostWrite_of_next (r := .crc) hw
  · have hw : writeReg .crc v s = .next s := congrArg _ (if_neg (Bool.eq_false_iff.1 h))
    exact hostWrite_of_next (r := .crc) hw

/-- Settles O14, register by register. -/
theorem plainRegisterAccess : Obligations.PlainRegisterAccess := by
  intro s v
  exact ⟨hostRead_of_some (r := .ptr) rfl, hostWrite_of_next (r := .ptr) rfl,
    hostRead_of_some (r := .len) rfl, hostWrite_of_next (r := .len) rfl,
    hostRead_of_some (r := .total) rfl, hostWrite_of_next (r := .total) rfl,
    ⟨s.capWord.setWidth 64, hostRead_of_some (r := .cap) rfl, capWord_bits s⟩, hostWrite_of_next (r := .cap) rfl,
    fun h => hostRead_of_some (r := .result) (if_pos h), fun h => hostRead_of_none (r := .result) (if_neg h),
    hostWrite_of_next (r := .result) rfl, hostRead_of_some (r := .cmd) rfl⟩

end Sys2Proof.Machine
end

section
/-! A command word the decoder knows runs as its command, in `Failed` too (spec/43_commands.md R200). -/

namespace Sys2Proof.Machine

/-- A word that decodes selects a row of the opcode map, which builds its command. -/
theorem exists_row_of_decode {w : Word32} {i : Instr} (h : decode w = .ok i) :
    ∃ r ∈ opTable, r.selects w = true ∧ r.build (CommandWord.ofWord w).imm8 = i := by
  unfold decode at h
  split at h
  · rename_i r hr
    exact ⟨r, List.mem_of_find?_eq_some hr, List.find?_some (p := fun r : OpRow => r.selects w) hr, Except.ok.inj h⟩
  · cases h

/-- `INIT` has one word. -/
theorem eq_initWord_of_decode {w : Word32} (h : decode w = .ok .init) : w = initWord := by
  obtain ⟨r, hr, hsel, hbuild⟩ := exists_row_of_decode h
  simp only [opTable, List.mem_cons, List.not_mem_nil, or_false] at hr
  rcases hr with rfl | rfl | rfl | rfl | rfl | rfl | rfl <;> cases hbuild
  exact (word32_and_full w).symm.trans (of_decide_eq_true hsel)

/-- The test of `Failed` that precedes the decoder (R200 step 1) and the one inside each command agree. -/
theorem executeWord_of_decode {w : Word32} {i : Instr} (h : decode w = .ok i) (s : State) :
    executeWord w s = exec i s := by
  by_cases hs : s.stream = .failed
  · by_cases hw : w = initWord
    · have hi : i = .init := Except.ok.inj (h.symm.trans (by rw [hw]; decide))
      simp only [executeWord, hs, if_pos hw, hi]
    · have hi : i ≠ .init := fun hi => hw (eq_initWord_of_decode (hi ▸ h))
      simp only [executeWord, hs, if_neg hw, exec_of_failed hs hi]
  · cases hstream : s.stream with
    | failed => exact absurd hstream hs
    | start | running | finalized => simp only [executeWord, hstream, h]

/-- Settles O6, by `executeWord_of_decode`. -/
theorem stepRunsTheDecodedCommand : Obligations.StepRunsTheDecodedCommand := by
  intro s rest v i hidle hinbox hdecode
  have htake : takeEvent s = hostWrite Reg.cmd.offset 8 v (s.setInbox rest) := by
    simp only [takeEvent, hinbox, hostEvent, Reg.offset]
  rw [step_of_idle hidle, htake, hostWrite_offset, writeReg, low32, executeWord_of_decode hdecode]

end Sys2Proof.Machine
end

section
/-! The invariant between commands, kept by every event (spec/10_state.md R21 to R45, spec/43_commands.md R203). -/

namespace Sys2Proof.Machine

variable {s t : State}

/-! ## What the invariant asks in each state of the stream -/

/-- `SEL` is unresolved or what the capability flags say (R203). -/
def State.SelFollowsCap (s : State) : Prop :=
  s.sel = .unresolved ∨ s.sel = (if s.foldCapable then Sel.fold else Sel.table)

/-- In `Failed` the invariant asks for a cause. -/
theorem State.Coherent.of_failed (hidle : t.phase = .idle) (hmem : t.mem.wf = true) (hsel : t.SelFollowsCap)
    (hstream : t.stream = .failed) (herr : t.err ≠ none) : t.Coherent where
  idle := hidle
  memory := hmem
  err_iff := by simp [hstream, herr]
  finalized := by simp [hstream]
  unfinished := by simp [hstream]
  fresh := by simp [hstream]
  resolved := hsel

/-- In `Running` it asks for no cause and a clear `RESULT`. -/
theorem State.Coherent.of_running (hidle : t.phase = .idle) (hmem : t.mem.wf = true) (hsel : t.SelFollowsCap)
    (hstream : t.stream = .running) (herr : t.err = none) (hresult : t.result = 0) : t.Coherent where
  idle := hidle
  memory := hmem
  err_iff := by simp [hstream, herr]
  finalized := by simp [hstream]
  unfinished _ := hresult
  fresh := by simp [hstream]
  resolved := hsel

/-- In `Start` it asks, besides, that nothing is counted. -/
theorem State.Coherent.of_start (hidle : t.phase = .idle) (hmem : t.mem.wf = true) (hsel : t.SelFollowsCap)
    (hstream : t.stream = .start) (herr : t.err = none) (hresult : t.result = 0) (htotal : t.total = 0) : t.Coherent where
  idle := hidle
  memory := hmem
  err_iff := by simp [hstream, herr]
  finalized := by simp [hstream]
  unfinished _ := hresult
  fresh _ := htotal
  resolved := hsel

/-- In `Finalized` it asks that `RESULT` is the complement of `CRC`. -/
theorem State.Coherent.of_finalized (hidle : t.phase = .idle) (hmem : t.mem.wf = true) (hsel : t.SelFollowsCap)
    (hstream : t.stream = .finalized) (herr : t.err = none) (hresult : t.result = ~~~ t.crc) : t.Coherent where
  idle := hidle
  memory := hmem
  err_iff := by simp [hstream, herr]
  finalized _ := hresult
  unfinished := by simp [hstream]
  fresh := by simp [hstream]
  resolved := hsel

/-! ## Updates of the state -/

theorem resetWith_coherent (straps : Straps) {m : Memory} (hm : m.wf = true) (q : List HostEvent) :
    (State.resetWith straps m q).Coherent :=
  .of_start rfl hm (.inl rfl) rfl rfl rfl rfl

section Coherent

variable (h : s.Coherent)
include h

/-- The response, the queue, `PTR` and `LEN` are outside the invariant. -/
theorem State.Coherent.setReply (r : Reply) : (s.setReply r).Coherent := { h with }

theorem State.Coherent.setInbox (q : List HostEvent) : (s.setInbox q).Coherent := { h with }

theorem State.Coherent.setPtr (v : Word64) : (s.setPtr v).Coherent := { h with }

theorem State.Coherent.setLen (v : Word64) : (s.setLen v).Coherent := { h with }

/-- `CRC` is tied to `RESULT` in `Finalized` alone. -/
theorem State.Coherent.setCrc (hs : s.stream ≠ .finalized) (v : Word32) : (s.setCrc v).Coherent :=
  { h with finalized := fun hf => absurd hf hs }

theorem State.Coherent.storeByte (addr : Word64) (b : Option Byte) : (s.storeByte addr b).Coherent :=
  { h with memory := Memory.set_wf addr.isLt h.memory }

theorem State.Coherent.fail (c : FailCode) : (s.fail c).Coherent :=
  .of_failed rfl h.memory h.resolved rfl (Option.some_ne_none c)

theorem State.Coherent.startStream : s.startStream.Coherent :=
  .of_start h.idle h.memory h.resolved rfl rfl rfl rfl

theorem State.Coherent.err_of_takesBytes (ht : s.takesBytes = true) : s.err = none :=
  h.err_iff.2 (ne_failed_of_takesBytes ht)

/-- What an update leaves in `SEL`: the memo, or the mode that the capability flags say. -/
theorem State.Coherent.accepted_selFollowsCap (i : Instr) : (accepted i s).SelFollowsCap := by
  have hresolve : s.resolvedMode.sel = (if s.foldCapable then Sel.fold else Sel.table) := by
    unfold State.resolvedMode
    rcases h.resolved with hsel | hsel
    · rw [hsel]; cases s.foldCapable <;> rfl
    · rw [hsel]; cases s.foldCapable <;> rfl
  cases i with
  | update => exact .inr hresolve
  | nop | init | injb | updTable | updFold | finalize => exact h.resolved

/-- An update ends in `Running`, or in `Failed` with the cause `BUSERR`. -/
theorem State.Coherent.runUpdate_accepted {i : Instr} {m : Mode} (ht : s.takesBytes = true)
    (hrun : runUpdate m (accepted i s) = .next t) : t.Coherent := by
  obtain ⟨u, hu, hidle, -, hresult, hsel, hcap, hmem, -, -, hend, -⟩ := runUpdate_frame m (accepted i s)
  obtain rfl : u = t := Host.Outcome.next.inj (hu.symm.trans hrun)
  have hwf : u.mem.wf = true := hmem ▸ h.memory
  have hfollows : u.SelFollowsCap := by
    unfold State.SelFollowsCap State.foldCapable
    rw [hsel, hcap]
    exact h.accepted_selFollowsCap i
  rcases hend with ⟨hstream, herr⟩ | ⟨hstream, herr⟩
  · exact .of_running hidle hwf hfollows hstream (herr.trans (h.err_of_takesBytes ht))
      (hresult.trans (h.unfinished (takesBytes_cases ht)))
  · exact .of_failed hidle hwf hfollows hstream (herr ▸ Option.some_ne_none _)

/-! ## Commands and events -/

theorem exec_keeps_coherent {i : Instr} (hexec : exec i s = .next t) : t.Coherent := by
  cases exec_cases hexec with
  | ignored => exact h
  | started => exact h.startStream
  | raised c => exact h.fail c
  | injected b _ ht _ =>
    exact .of_running h.idle h.memory h.resolved rfl (h.err_of_takesBytes ht) (h.unfinished (takesBytes_cases ht))
  | finished _ ht => exact .of_finalized h.idle h.memory h.resolved rfl (h.err_of_takesBytes ht) rfl
  | updated _ _ _ ht _ _ hrun => exact h.runUpdate_accepted ht hrun

theorem executeWord_keeps_coherent {w : Word32} (hexec : executeWord w s = .next t) : t.Coherent := by
  rcases executeWord_cases w s with hill | hignored | ⟨i, -, hi⟩
  · cases hill.symm.trans hexec
    exact h.fail .illcmd
  · cases hignored.symm.trans hexec
    exact h
  · exact exec_keeps_coherent h (hi.symm.trans hexec)

theorem writeReg_keeps_coherent {r : Reg} {v : Word64} (hwrite : writeReg r v s = .next t) : t.Coherent := by
  cases r with
  | cmd => exact executeWord_keeps_coherent h hwrite
  | crc =>
    cases hwrite
    split
    · rename_i hw
      have ht : s.takesBytes = true := hw
      exact h.setCrc (of_decide_eq_false (isFinalized_of_takesBytes ht)) _
    · exact h
  | ptr => cases hwrite; exact h.setPtr v
  | len => cases hwrite; exact h.setLen v
  | status | total | result | cap | k1lo | k1hi | k4lo | k4hi | mu | poly => cases hwrite; exact h

theorem hostWrite_keeps_coherent {off size : Nat} {v : Word64} (hwrite : hostWrite off size v s = .next t) :
    t.Coherent := by
  unfold hostWrite at hwrite
  split at hwrite
  · cases hwrite
    exact h.setReply .error
  · obtain ⟨u, hu, rfl⟩ := thenReply_next hwrite
    exact (writeReg_keeps_coherent h hu).setReply .ok

theorem hostEvent_keeps_coherent {e : HostEvent} (hevent : hostEvent e s = .next t) : t.Coherent := by
  cases e with
  | write off size v => exact hostWrite_keeps_coherent h hevent
  | read off size =>
    obtain ⟨r, hr⟩ := hostRead_eq off size s
    cases hevent
    rw [hr]
    exact h.setReply r
  | reset straps => cases hevent; exact resetWith_coherent straps h.memory _
  | store addr b => cases hevent; exact h.storeByte addr b

theorem takeEvent_keeps_coherent (htake : takeEvent s = .next t) : t.Coherent := by
  unfold takeEvent at htake
  split at htake
  · cases htake; exact h
  · exact hostEvent_keeps_coherent (h.setInbox _) htake

end Coherent

/-- Settles O59: between commands a step takes an event, and every event keeps the invariant. -/
theorem stepsKeepTheStateCoherent : Obligations.StepsKeepTheStateCoherent :=
  fun _ _ h hstep => takeEvent_keeps_coherent h ((step_of_idle h.idle).symm.trans hstep)

end Sys2Proof.Machine
end

section
/-! What commands, micro-operations and steps leave unchanged (spec/20_memory.md R61, R62, R74). -/

namespace Sys2Proof.Machine

variable {i : Instr} {s t : State}

/-! ## Commands -/

/-- What a command that answers `t` from `s` leaves unchanged, hidden state apart (R181). -/
structure ExecFrame (i : Instr) (s t : State) : Prop where
  mem : t.mem = s.mem
  cap : t.cap = s.cap
  inbox : t.inbox = s.inbox
  reply : t.reply = s.reply
  phase : s.phase = .idle → t.phase = .idle
  sel : i ≠ .update → t.sel = s.sel
  result : i ≠ .init → i ≠ .finalize → t.result = s.result
  range : updateMode i s = none → t.ptr = s.ptr ∧ t.len = s.len

/-- Only `UPDATE` resolves the dispatcher (R203). -/
theorem selAfter_of_ne_update (s : State) (h : i ≠ .update) : selAfter i s = s.sel := by
  cases i with
  | update => exact absurd rfl h
  | nop | init | injb | updTable | updFold | finalize => rfl

theorem runUpdate_accepted_frame {m : Mode} (hmode : updateMode i s = some m)
    (hrun : runUpdate m (accepted i s) = .next t) : ExecFrame i s t := by
  obtain ⟨u, hu, hidle, -, hresult, hsel, hcap, hmem, hinbox, hreply, -⟩ := runUpdate_frame m (accepted i s)
  obtain rfl : u = t := Host.Outcome.next.inj (hu.symm.trans hrun)
  exact
    { mem := hmem
      cap := hcap
      inbox := hinbox
      reply := hreply
      phase := fun _ => hidle
      sel := fun hi => hsel.trans (selAfter_of_ne_update s hi)
      result := fun _ _ => hresult
      range := fun hnone => by rw [hmode] at hnone; cases hnone }

/-- Every command has that frame, one case per way it can end. -/
theorem exec_frame (h : exec i s = .next t) : ExecFrame i s t := by
  cases exec_cases h with
  | ignored => exact ⟨rfl, rfl, rfl, rfl, id, fun _ => rfl, fun _ _ => rfl, fun _ => ⟨rfl, rfl⟩⟩
  | started hi => exact ⟨rfl, rfl, rfl, rfl, id, fun _ => rfl, fun hne _ => absurd hi hne, fun _ => ⟨rfl, rfl⟩⟩
  | raised c => exact ⟨rfl, rfl, rfl, rfl, fun _ => rfl, fun _ => rfl, fun _ _ => rfl, fun _ => ⟨rfl, rfl⟩⟩
  | injected b => exact ⟨rfl, rfl, rfl, rfl, id, fun _ => rfl, fun _ _ => rfl, fun _ => ⟨rfl, rfl⟩⟩
  | finished hi => exact ⟨rfl, rfl, rfl, rfl, id, fun _ => rfl, fun _ hne => absurd hi hne, fun _ => ⟨rfl, rfl⟩⟩
  | updated m t hmode _ _ _ hrun => exact runUpdate_accepted_frame hmode hrun

/-! ## Micro-operations and rows -/

theorem eq_microResult_of_runMicro {u : MicroOp} (h : runMicro u s = .done t) : ∃ bs, t = microResult u s bs := by
  rcases runMicro_cases u s with ⟨bs, -, -, hdone⟩ | ⟨-, -, hfail⟩ | ⟨-, f, hfault⟩
  · exact ⟨bs, Micro.done.inj (h.symm.trans hdone)⟩
  · cases h.symm.trans hfail
  · cases h.symm.trans hfault

/-- `ACC` is written by the five micro-operations of R40 alone. -/
theorem microResult_accs {u : MicroOp} (s : State) (bs : List Byte)
    (h : u ∉ [MicroOp.load0, .loadK, .fold4, .collapse, .fold1]) :
    (microResult u s bs).acc0 = s.acc0 ∧ (microResult u s bs).acc1 = s.acc1 ∧
    (microResult u s bs).acc2 = s.acc2 ∧ (microResult u s bs).acc3 = s.acc3 := by
  cases u with
  | inj | step8 | reduce => exact ⟨rfl, rfl, rfl, rfl⟩
  | load0 | loadK | fold4 | collapse | fold1 => exact absurd (by decide) h

/-- `FOUR` is written by the two micro-operations of R46 alone. -/
theorem microResult_four {u : MicroOp} (s : State) (bs : List Byte) (h : u ∉ [MicroOp.load0, .collapse]) :
    (microResult u s bs).four = s.four := by
  cases u with
  | inj | step8 | loadK | fold4 | fold1 | reduce => rfl
  | load0 | collapse => exact absurd (by decide) h

theorem seqRow_of_tail8 (h : s.phase = .tail8) :
    seqRow s = if 8 ≤ s.len.toNat then ⟨some .step8, fun _ => .tail8⟩ else ⟨none, fun _ => .tail1⟩ := by
  simp only [seqRow, h]

theorem seqRow_of_tail1 (h : s.phase = .tail1) :
    seqRow s = if 1 ≤ s.len.toNat then ⟨some .inj, fun _ => .tail1⟩ else ⟨none, fun _ => .idle⟩ := by
  simp only [seqRow, h]

/-- The tail's rows issue the table engine's micro-operations and stay in the tail until the command ends (R176). -/
theorem seqRow_of_tail (t : State) (h : s.phase = .tail8 ∨ s.phase = .tail1) :
    (seqRow s).micro ∈ [none, some .step8, some .inj] ∧ (seqRow s).next t ∈ [.tail8, .tail1, .idle] := by
  rcases h with h | h
  · rw [seqRow_of_tail8 h]
    split <;> simp
  · rw [seqRow_of_tail1 h]
    split <;> simp

/-- Settles O29: the frame of commands, the registers each micro-operation writes, and the rows of the tail. -/
theorem commandsLeaveTheRestAlone : Obligations.CommandsLeaveTheRestAlone := by
  refine ⟨fun i s t hexec => ?_, fun u s t hmicro => ?_, rfl, fun s t => seqRow_of_tail t⟩
  · have hf := exec_frame hexec
    exact ⟨fun a => by rw [hf.mem], hf.cap, hf.inbox, hf.reply, hf.phase, hf.sel, hf.result, hf.range⟩
  · obtain ⟨bs, rfl⟩ := eq_microResult_of_runMicro hmicro
    exact ⟨microResult_accs s bs, microResult_four s bs⟩

/-! ## Events and steps -/

theorem executeWord_mem {w : Word32} (h : executeWord w s = .next t) : t.mem = s.mem := by
  rcases executeWord_cases w s with hill | hignored | ⟨i, -, hi⟩
  · cases hill.symm.trans h; rfl
  · cases hignored.symm.trans h; rfl
  · exact (exec_frame (hi.symm.trans h)).mem

theorem writeReg_mem {r : Reg} {v : Word64} (h : writeReg r v s = .next t) : t.mem = s.mem := by
  cases r with
  | cmd => exact executeWord_mem h
  | crc => cases h; split <;> rfl
  | ptr | len | status | total | result | cap | k1lo | k1hi | k4lo | k4hi | mu | poly => cases h; rfl

theorem hostWrite_mem {off size : Nat} {v : Word64} (h : hostWrite off size v s = .next t) : t.mem = s.mem := by
  unfold hostWrite at h
  split at h
  · cases h; rfl
  · obtain ⟨u, hu, rfl⟩ := thenReply_next h
    exact (State.setReply_mem u .ok).trans (writeReg_mem hu)

/-- Only a store event changes memory, at its own address (R62, R74). -/
theorem hostEvent_mem {e : HostEvent} (h : hostEvent e s = .next t) :
    t.mem = s.mem ∨ ∃ addr b, e = .store addr b ∧ t.mem = s.mem.set addr.toNat b := by
  cases e with
  | write off size v => exact .inl (hostWrite_mem h)
  | read off size =>
    obtain ⟨r, hr⟩ := hostRead_eq off size s
    cases h
    exact .inl (by rw [hr]; rfl)
  | reset straps => cases h; exact .inl rfl
  | store addr b => cases h; exact .inr ⟨addr, b, rfl, rfl⟩

theorem takeEvent_mem (h : takeEvent s = .next t) :
    t.mem = s.mem ∨ ∃ addr b rest, s.inbox = .store addr b :: rest ∧ t.mem = s.mem.set addr.toNat b := by
  unfold takeEvent at h
  split at h
  · cases h; exact .inl rfl
  · rename_i e rest hinbox
    rcases hostEvent_mem h with hmem | ⟨addr, b, rfl, hmem⟩
    · exact .inl hmem
    · exact .inr ⟨addr, b, rest, hinbox, hmem⟩

/-- A step inside a command is a row and stores nothing; between commands it takes an event. -/
theorem step_mem (h : step s = .next t) :
    t.mem = s.mem ∨ ∃ addr b rest, s.inbox = .store addr b :: rest ∧ t.mem = s.mem.set addr.toNat b := by
  by_cases hidle : s.phase = .idle
  · exact takeEvent_mem ((step_of_idle hidle).symm.trans h)
  · exact .inl (seqStep_mem ((step_of_busy hidle).symm.trans h))

/-- Settles O31, by `step_mem` and what a memory answers after one address was set. -/
theorem onlyOutsideStoresChangeMemory : Obligations.OnlyOutsideStoresChangeMemory := by
  intro s t hwf hstep
  rcases step_mem hstep with hmem | ⟨addr, b, rest, hinbox, hmem⟩
  · rw [hmem]
    exact ⟨hwf, .inl fun _ => rfl⟩
  · rw [hmem]
    refine ⟨Memory.set_wf addr.isLt hwf, .inr ⟨addr, b, rest, hinbox, ?_, fun a ha => ?_⟩⟩
    · rw [Memory.get_set hwf, if_pos rfl]
    · rw [Memory.get_set hwf, if_neg ha]

end Sys2Proof.Machine
end

section
/-! What a command does depends on its range and the visible registers alone (spec/20_memory.md R60, spec/42_fold_engine.md R178,
R181). An update's visible end is a function of the bytes of the range (`runUpdate_done`, `runUpdate_stops`), and its checks look
at visible registers. -/

namespace Sys2Proof.Machine

/-- Two outcomes are next states that agree on what the host can see. -/
def NextAlike (o o' : Host.Outcome State Fault Refusal) : Prop :=
  ∃ t t', o = .next t ∧ o' = .next t' ∧ SameButHidden t t'

/-- Two states alike but for hidden state and memory, whose memories answer the same on the range of the first. -/
structure SameInRange (s s' : State) : Prop extends SameButHidden s s' where
  get_eq : ∀ a, s.ptr.toNat ≤ a → a < s.ptr.toNat + s.len.toNat → s'.mem.get a = s.mem.get a

/-- A failing read has a first address that fails. -/
theorem exists_first_of_memRead_eq_none {m : Memory} {a n : Nat} (h : memRead m a n = none) :
    ∃ k, k < n ∧ (∀ j, j < k → m.get (a + j) ≠ none) ∧ m.get (a + k) = none := by
  have hex : ∃ k, k < n ∧ m.get (a + k) = none := memRead_eq_none.1 h
  obtain ⟨hlt, hnone⟩ := Nat.find_spec hex
  exact ⟨Nat.find hex, hlt, fun j hj hget => Nat.find_min hex hj ⟨hj.trans hlt, hget⟩, hnone⟩

theorem State.setPhase_self {s : State} {p : Phase} (h : s.phase = p) : s.setPhase p = s := by
  subst h
  rfl

variable {s s' : State}

/-! ## Updates of two such states -/

section SameButHidden

variable (h : SameButHidden s s')
include h

theorem SameButHidden.fail (c : FailCode) : SameButHidden (s.fail c) (s'.fail c) :=
  { h with stream := rfl, err := rfl, phase := rfl }

theorem SameButHidden.startStream : SameButHidden s.startStream s'.startStream :=
  { h with crc := rfl, total := rfl, result := rfl, err := rfl, stream := rfl }

theorem SameButHidden.setCrc {v v' : Word32} (hv : v' = v) : SameButHidden (s.setCrc v) (s'.setCrc v') :=
  { h with crc := hv }

theorem SameButHidden.setSel (v : Sel) : SameButHidden (s.setSel v) (s'.setSel v) :=
  { h with sel := rfl }

theorem SameButHidden.count {k k' : Word64} (hk : k' = k) : SameButHidden (s.count k) (s'.count k') :=
  { h with total := by rw [State.count_total, State.count_total, h.total, hk], stream := rfl }

theorem SameButHidden.finish {v v' : Word32} (hv : v' = v) : SameButHidden (s.finish v) (s'.finish v') :=
  { h with result := hv, stream := rfl }

/-! ## Checks look at visible registers -/

theorem SameButHidden.isFinalized_eq : s'.isFinalized = s.isFinalized := by
  rw [State.isFinalized, State.isFinalized, h.stream]

theorem SameButHidden.overflows_eq (k : Nat) : s'.overflows k = s.overflows k := by
  rw [State.overflows, State.overflows, h.total]

theorem SameButHidden.outOfRange_eq : s'.outOfRange = s.outOfRange := by
  rw [State.outOfRange, State.outOfRange, h.ptr, h.len]

theorem SameButHidden.foldCapable_eq : s'.foldCapable = s.foldCapable := by
  rw [State.foldCapable, State.foldCapable, h.cap]

theorem SameButHidden.resolvedMode_eq : s'.resolvedMode = s.resolvedMode := by
  rw [State.resolvedMode, State.resolvedMode, h.sel, h.foldCapable_eq]

theorem SameButHidden.nextAlike : NextAlike (.next s) (.next s') := ⟨s, s', rfl, rfl, h⟩

theorem SameButHidden.raise (c : FailCode) : NextAlike (raise s c) (raise s' c) := (h.fail c).nextAlike

theorem SameButHidden.unlessFailed {o o' : Host.Outcome State Fault Refusal} (ho : NextAlike o o') :
    NextAlike (unlessFailed s o) (unlessFailed s' o') := by
  unfold Machine.unlessFailed
  rw [h.stream]
  cases s.stream with
  | failed => exact h.nextAlike
  | start | running | finalized => exact ho

end SameButHidden

theorem NextAlike.ite {p p' : Prop} [Decidable p] [Decidable p'] {o o' q q' : Host.Outcome State Fault Refusal} (hp : p' ↔ p)
    (ho : NextAlike o o') (hq : NextAlike q q') : NextAlike (if p then o else q) (if p' then o' else q') := by
  by_cases h : p
  · rwa [if_pos h, if_pos (hp.2 h)]
  · rwa [if_neg h, if_neg (fun hp' => h (hp.1 hp'))]

/-! ## Updates -/

/-- Two runs of the sequencer that injected the same bytes and left the same `CRC` agree, `PHASE` set alike. -/
theorem SeqFrame.alike {m : Mode} {t t' : State} {bs : List Byte} (hf : SeqFrame (seqStart m s) t bs)
    (hf' : SeqFrame (seqStart m s') t' bs) (h : SameButHidden s s') (hcrc : t'.crc = t.crc) (p : Phase) :
    SameButHidden (t.setPhase p) (t'.setPhase p) where
  crc := hcrc
  ptr := by
    have hptr : t.ptr = s.ptr + BitVec.ofNat 64 bs.length := hf.ptr
    have hptr' : t'.ptr = s'.ptr + BitVec.ofNat 64 bs.length := hf'.ptr
    exact hptr'.trans (by rw [h.ptr, State.setPhase_ptr, hptr])
  len := BitVec.eq_of_toNat_eq (by
    have hlen : t.len.toNat + bs.length = s.len.toNat := hf.len
    have hlen' : t'.len.toNat + bs.length = s'.len.toNat := hf'.len
    rw [h.len] at hlen'
    exact Nat.add_right_cancel (hlen'.trans hlen.symm))
  total := hf'.total.trans (h.total.trans hf.total.symm)
  result := hf'.result.trans (h.result.trans hf.result.symm)
  stream := hf'.stream.trans (h.stream.trans hf.stream.symm)
  sel := hf'.sel.trans (h.sel.trans hf.sel.symm)
  err := hf'.err.trans (h.err.trans hf.err.symm)
  cap := hf'.cap.trans (h.cap.trans hf.cap.symm)
  phase := rfl
  inbox := hf'.inbox.trans (h.inbox.trans hf.inbox.symm)
  reply := hf'.reply.trans (h.reply.trans hf.reply.symm)

section SameInRange

variable (h : SameInRange s s')
include h

/-- A read inside the range gives the same from both. -/
theorem SameInRange.memRead_eq {n : Nat} (hn : n ≤ s.len.toNat) :
    memRead s'.mem s'.ptr.toNat n = memRead s.mem s.ptr.toNat n := by
  rw [h.ptr]
  exact memRead_congr fun a hge hlt => h.get_eq a hge (by omega)

/-- A range that can be read: both inject its bytes. -/
theorem SameInRange.runUpdate_readable (m : Mode) (hfit : s.ptr.toNat + s.len.toNat ≤ 2 ^ 64) {bs : List Byte}
    (hread : memRead s.mem s.ptr.toNat s.len.toNat = some bs) : NextAlike (runUpdate m s) (runUpdate m s') := by
  have hfit' : s'.ptr.toNat + s'.len.toNat ≤ 2 ^ 64 := by rwa [h.ptr, h.len]
  have hread' : memRead s'.mem s'.ptr.toNat s'.len.toNat = some bs := by
    rw [h.len, h.memRead_eq (Nat.le_refl _), hread]
  obtain ⟨t, hrun, hf, hp, -, hcrc⟩ := runUpdate_done (m := m) hfit hread
  obtain ⟨t', hrun', hf', hp', -, hcrc'⟩ := runUpdate_done (m := m) hfit' hread'
  refine ⟨t, t', hrun, hrun', ?_⟩
  have halike := hf.alike hf' h.toSameButHidden (by rw [hcrc', hcrc, h.crc]) .idle
  rwa [State.setPhase_self hp, State.setPhase_self hp'] at halike

/-- A range that cannot be read: both stop before the same byte, with the same bytes injected. -/
theorem SameInRange.runUpdate_unreadable (m : Mode) (hfit : s.ptr.toNat + s.len.toNat ≤ 2 ^ 64)
    (hread : memRead s.mem s.ptr.toNat s.len.toNat = none) : NextAlike (runUpdate m s) (runUpdate m s') := by
  obtain ⟨k, hk, hsome, hnone⟩ := exists_first_of_memRead_eq_none hread
  have hget : ∀ j, j < s.len.toNat → s'.mem.get (s'.ptr.toNat + j) = s.mem.get (s.ptr.toNat + j) := fun j hj => by
    rw [h.ptr]
    exact h.get_eq _ (Nat.le_add_right _ _) (Nat.add_lt_add_left hj _)
  have hfit' : s'.ptr.toNat + s'.len.toNat ≤ 2 ^ 64 := by rwa [h.ptr, h.len]
  obtain ⟨u, bs, hrun, hf, hlen, hin, hout⟩ := runUpdate_stops (m := m) hfit hk hsome hnone
  obtain ⟨u', bs', hrun', hf', hlen', hin', hout'⟩ := runUpdate_stops (s := s') (m := m) hfit' (by rwa [h.len])
    (fun j hj => by rw [hget j (hj.trans hk)]; exact hsome j hj) ((hget k hk).trans hnone)
  have hbs : bs' = bs := by
    have hlen_eq : bs'.length = bs.length := by rw [hlen', hlen, h.ptr, h.len]
    have hle : u.len.toNat + bs.length = s.len.toNat := hf.len
    have hr : memRead s.mem s.ptr.toNat bs.length = some bs := hf.read hfit
    have hr' : memRead s'.mem s'.ptr.toNat bs'.length = some bs' := hf'.read hfit'
    rw [hlen_eq, h.memRead_eq (by omega), hr] at hr'
    exact (Option.some.inj hr').symm
  subst hbs
  have hcrc : u'.crc = u.crc := by
    rw [h.ptr, h.len] at hin' hout'
    by_cases hfold : m = .fold ∧ insideFold s.ptr.toNat s.len.toNat bs'.length
    · rw [hin hfold, hin' hfold]
    · rw [hout hfold, hout' hfold, h.crc]
  exact ⟨_, _, hrun, hrun', (hf.alike hf' h.toSameButHidden hcrc .idle).fail .buserr⟩

theorem SameInRange.runUpdate (m : Mode) (hfit : s.ptr.toNat + s.len.toNat ≤ 2 ^ 64) :
    NextAlike (runUpdate m s) (runUpdate m s') := by
  cases hread : memRead s.mem s.ptr.toNat s.len.toNat with
  | none => exact h.runUpdate_unreadable m hfit hread
  | some bs => exact h.runUpdate_readable m hfit hread

/-! ## Commands -/

theorem SameInRange.acceptUpdate (m : Mode) (v : Sel) :
    NextAlike (acceptUpdate m s (s.setSel v)) (acceptUpdate m s' (s'.setSel v)) := by
  unfold Machine.acceptUpdate
  rw [h.len, h.overflows_eq, h.outOfRange_eq]
  by_cases hover : s.overflows s.len.toNat = true
  · rw [if_pos hover, if_pos hover]
    exact h.raise .overflow
  by_cases hrange : s.outOfRange = true
  · rw [if_neg hover, if_neg hover, if_pos hrange, if_pos hrange]
    exact h.raise .range
  rw [if_neg hover, if_neg hover, if_neg hrange, if_neg hrange]
  have haccepted : SameInRange ((s.setSel v).count s.len) ((s'.setSel v).count s.len) :=
    { (h.setSel v).count rfl with get_eq := h.get_eq }
  exact haccepted.runUpdate m (not_outOfRange.1 (Bool.eq_false_iff.2 hrange))

/-- Every command answers next states that agree, by the checks and the effect of its own rule. -/
theorem SameInRange.exec (i : Instr) : NextAlike (exec i s) (exec i s') := by
  have hfin : s'.isFinalized = true ↔ s.isFinalized = true := by rw [h.isFinalized_eq]
  have hkeep : s'.setSel s.sel = s' := by rw [← h.sel]; rfl
  have hexplicit : ∀ m, NextAlike (Machine.acceptUpdate m s s) (Machine.acceptUpdate m s' s') := fun m => by
    have haccept := h.acceptUpdate m s.sel
    rwa [hkeep] at haccept
  cases i with
  | nop => exact h.nextAlike
  | init => exact h.startStream.nextAlike
  | injb b =>
    refine h.unlessFailed (.ite hfin (h.raise .badstate) (.ite (by rw [h.overflows_eq]) (h.raise .overflow) ?_))
    exact ((h.setCrc (by rw [h.crc])).count rfl).nextAlike
  | update =>
    have haccept := h.acceptUpdate s.resolvedMode s.resolvedMode.sel
    refine h.unlessFailed (.ite hfin (h.raise .badstate) ?_)
    rw [State.resolve, State.resolve, h.resolvedMode_eq]
    exact haccept
  | updTable => exact h.unlessFailed (.ite hfin (h.raise .badstate) (hexplicit .table))
  | updFold =>
    exact h.unlessFailed (.ite hfin (h.raise .badstate) (.ite (by rw [h.foldCapable_eq]) (h.raise .nocap) (hexplicit .fold)))
  | finalize =>
    have hlength : foldLength s'.total s'.crc = foldLength s.total s.crc := by rw [h.total, h.crc]
    refine h.unlessFailed (.ite hfin (h.raise .badstate) ?_)
    exact ((h.setCrc hlength).finish (by rw [hlength])).nextAlike

end SameInRange

/-- Settles O58: the outcomes by `SameInRange.exec`, the memories by the frame of commands. -/
theorem bytesOutsideTheRangeDoNotMatter : Obligations.BytesOutsideTheRangeDoNotMatter := by
  intro i s s' hsame hget
  obtain ⟨t, t', ht, ht', halike⟩ := SameInRange.exec ⟨hsame, hget⟩ i
  exact ⟨t, t', ht, ht', halike, fun a => by rw [(exec_frame ht).mem], fun a => by rw [(exec_frame ht').mem]⟩

end Sys2Proof.Machine
end

section
/-! The decoder and the encoder are inverse to each other (spec/30_encoding.md R95 to R98): a word decodes to a command exactly when
it is that command's encoding. -/

namespace Sys2Proof

/-! ## Fields and words -/

theorem CommandWord.toWord_injective : Function.Injective CommandWord.toWord :=
  Function.LeftInverse.injective CommandWord.ofWord_toWord

/-- The word of the fields is masked field by field. -/
theorem CommandWord.toWord_and (c m : CommandWord) :
    c.toWord &&& m.toWord = (CommandWord.mk (c.opcode &&& m.opcode) (c.imm8 &&& m.imm8) (c.zero &&& m.zero)).toWord :=
  BitVec.and_append.trans (congrArg (· ++ (c.opcode &&& m.opcode)) BitVec.and_append)

/-- A word is a command's encoding exactly when its fields are the command's. -/
theorem eq_encode_iff {w : Word32} {i : Instr} : w = encode i ↔ CommandWord.ofWord w = i.fields := by
  rw [← CommandWord.toWord_injective.eq_iff, CommandWord.toWord_ofWord, encode]

/-- The mask of `INJB` fixes its opcode and the zero field, and leaves its immediate free. -/
theorem and_injbMask_eq_iff {w : Word32} :
    w &&& 0xFFFF00FF = 0x00000002 ↔ w = encode (.injb (w.extractLsb' 8 8)) := by
  have hmask : (0xFFFF00FF : Word32) = (CommandWord.mk (BitVec.allOnes 8) 0 (BitVec.allOnes 16)).toWord := by decide
  have hvalue : (0x00000002 : Word32) = (CommandWord.mk 2 0 0).toWord := by decide
  have hfields : w &&& 0xFFFF00FF = 0x00000002 ↔ (CommandWord.ofWord w).opcode = 2 ∧ (CommandWord.ofWord w).zero = 0 := by
    conv_lhs => rw [← CommandWord.toWord_ofWord w, hmask, hvalue, CommandWord.toWord_and,
      CommandWord.toWord_injective.eq_iff, BitVec.and_allOnes, BitVec.and_allOnes]
    simp
  rw [hfields, eq_encode_iff]
  simp [Instr.fields, CommandWord.ofWord]

/-! ## Decoding -/

/-- A word that selects a row of the opcode map is the encoding of the command the row builds. -/
theorem eq_encode_of_selects {w : Word32} {r : OpRow} (hr : r ∈ opTable) (h : r.selects w = true) :
    w = encode (r.build (CommandWord.ofWord w).imm8) := by
  have hmatch : w &&& r.mask = r.value := of_decide_eq_true h
  simp only [opTable, List.mem_cons, List.not_mem_nil, or_false] at hr
  rcases hr with rfl | rfl | rfl | rfl | rfl | rfl | rfl
  case inr.inr.inl => exact and_injbMask_eq_iff.1 hmatch
  all_goals
    obtain rfl : w = _ := (word32_and_full w).symm.trans hmatch
    decide

theorem decode_encode_injb (b : Byte) : decode (encode (.injb b)) = .ok (.injb b) := by
  have hword : CommandWord.ofWord (encode (.injb b)) = ⟨2, b, 0⟩ := CommandWord.ofWord_toWord _
  have hopcode : (encode (.injb b)).extractLsb' 0 8 = 2 := congrArg CommandWord.opcode hword
  have himm : (encode (.injb b)).extractLsb' 8 8 = b := congrArg CommandWord.imm8 hword
  have hnop : encode (.injb b) ≠ 0x00000000 := fun h => absurd (h ▸ hopcode) (by decide)
  have hinit : encode (.injb b) ≠ 0x00000001 := fun h => absurd (h ▸ hopcode) (by decide)
  have hinjb : encode (.injb b) &&& 0xFFFF00FF = 0x00000002 := and_injbMask_eq_iff.2 (by rw [himm])
  simp only [decode, opTable, List.find?_cons, OpRow.selects, word32_and_full, hnop, hinit, hinjb, decide_true, decide_false,
    hword]

@[simp] theorem decode_encode (i : Instr) : decode (encode i) = .ok i := by
  cases i with
  | injb b => exact decode_encode_injb b
  | nop | init | update | updTable | updFold | finalize => decide

/-- A word decodes to a command exactly when it is that command's encoding. -/
theorem decode_eq_ok_iff {w : Word32} {i : Instr} : decode w = .ok i ↔ w = encode i := by
  constructor
  · intro h
    obtain ⟨r, hr, hsel, rfl⟩ := Machine.exists_row_of_decode h
    exact eq_encode_of_selects hr hsel
  · rintro rfl
    exact decode_encode i

theorem encode_injective : Function.Injective encode := fun i _ h =>
  Except.ok.inj ((decode_encode i).symm.trans (decode_eq_ok_iff.2 h))

/-! ## Legal words -/

theorem CommandWord.legal_iff (c : CommandWord) :
    c.legal = true ↔ c.opcode.toNat ≤ 6 ∧ (c.imm8 = 0 ∨ c.opcode = 2) ∧ c.zero = 0 := by
  simp [legal, opcodeDefined, imm8Allowed, zeroIsZero, and_assoc]

theorem Instr.wellFormed_eq_true (i : Instr) : i.wellFormed = true := by
  cases i with
  | injb b => exact (CommandWord.legal_iff _).2 ⟨by simp [fields], .inr rfl, rfl⟩
  | nop | init | update | updTable | updFold | finalize => decide

/-- Legal fields are a command's (R98). -/
theorem CommandWord.exists_eq_fields {c : CommandWord} (h : c.legal = true) : ∃ i : Instr, c = i.fields := by
  obtain ⟨opcode, imm8, zero⟩ := c
  obtain ⟨hopcode, himm, hzero⟩ := (legal_iff _).1 h
  obtain rfl : zero = 0 := hzero
  rcases himm with rfl | rfl
  · have hrow : opcode = 0 ∨ opcode = 1 ∨ opcode = 2 ∨ opcode = 3 ∨ opcode = 4 ∨ opcode = 5 ∨ opcode = 6 := by
      bv_omega
    rcases hrow with rfl | rfl | rfl | rfl | rfl | rfl | rfl
    exacts [⟨.nop, rfl⟩, ⟨.init, rfl⟩, ⟨.injb 0, rfl⟩, ⟨.update, rfl⟩, ⟨.updTable, rfl⟩, ⟨.updFold, rfl⟩, ⟨.finalize, rfl⟩]
  · exact ⟨.injb imm8, rfl⟩

/-- The words that decode are exactly the legal ones (R98). -/
theorem exists_decode_eq_ok_iff {w : Word32} : (∃ i, decode w = .ok i) ↔ (CommandWord.ofWord w).legal = true := by
  simp only [decode_eq_ok_iff, eq_encode_iff]
  constructor
  · rintro ⟨i, hi⟩
    rw [hi]
    exact i.wellFormed_eq_true
  · exact CommandWord.exists_eq_fields

/-! ## All commands -/

/-- Every command once: `INJB` with each of its immediates, and the six others. -/
def allInstrs : List Instr :=
  [.nop, .init, .update, .updTable, .updFold, .finalize] ++ (List.finRange 256).map fun k => .injb (BitVec.ofFin k)

theorem mem_allInstrs (i : Instr) : i ∈ allInstrs := by
  cases i with
  | injb b => exact List.mem_append_right _ (List.mem_map.2 ⟨b.toFin, List.mem_finRange _, rfl⟩)
  | nop | init | update | updTable | updFold | finalize => simp [allInstrs]

theorem length_allInstrs : allInstrs.length = 262 := by simp [allInstrs]

theorem nodup_allInstrs : allInstrs.Nodup := by
  refine List.Nodup.append (by decide) (List.Nodup.map ?_ (List.nodup_finRange 256)) ?_
  · intro j k h
    exact congrArg BitVec.toFin (Instr.injb.inj h)
  · simp

/-! ## The statements of the encoding -/

/-- Settles O1: `Instr.wellFormed_eq_true` and `decode_encode`. -/
theorem decodeOfEncodeIsTheCommand : Obligations.DecodeOfEncodeIsTheCommand :=
  fun i => ⟨i.wellFormed_eq_true, decode_encode i⟩

/-- Settles O2, by `decode_eq_ok_iff`. -/
theorem encodeOfDecodeIsTheWord : Obligations.EncodeOfDecodeIsTheWord :=
  fun _ _ h => (decode_eq_ok_iff.1 h).symm

/-- Settles O3: a full mask compares the word with the one encoding of the row's command, `INJB`'s mask by
`and_injbMask_eq_iff`. -/
theorem opcodeMapRowsSelectTheirCommand : Obligations.OpcodeMapRowsSelectTheirCommand := by
  intro w
  have full {v : Word32} {i : Instr} (h : v = encode i) : w &&& 0xFFFFFFFF = v ↔ decode w = .ok i := by
    rw [word32_and_full, decode_eq_ok_iff, h]
  exact ⟨full (by decide), full (by decide), and_injbMask_eq_iff.trans decode_eq_ok_iff.symm, full (by decide),
    full (by decide), full (by decide), full (by decide)⟩

/-- Settles O4: the legal words by `exists_decode_eq_ok_iff`, the list as the encodings of all commands. -/
theorem legalWordsAreExactly262 : Obligations.LegalWordsAreExactly262 := by
  refine ⟨fun w => exists_decode_eq_ok_iff.trans (CommandWord.legal_iff _), allInstrs.map encode,
    nodup_allInstrs.map encode_injective, (List.length_map _).trans length_allInstrs, fun w => ?_⟩
  rw [List.mem_map]
  exact exists_congr fun i => ⟨fun ⟨_, h⟩ => decode_eq_ok_iff.2 h.symm, fun h => ⟨mem_allInstrs i, (decode_eq_ok_iff.1 h).symm⟩⟩

/-- Settles O5: each word is its command's encoding. -/
theorem writtenOutWordsDecode : Obligations.WrittenOutWordsDecode := by
  simp only [Obligations.WrittenOutWordsDecode, decode_eq_ok_iff]
  decide

end Sys2Proof
end

section
/-! Which accesses the host port answers `ERROR`, and what widths the registers have (spec/30_encoding.md R91 to R93). -/

namespace Sys2Proof.Machine

/-! ## Commands and writes complete -/

variable {s : State}

theorem unlessFailed_next {o : Host.Outcome State Fault Refusal} (h : ∃ t, o = .next t) : ∃ t, unlessFailed s o = .next t := by
  by_cases hs : s.stream = .failed
  · exact ⟨s, by simp only [unlessFailed, hs]⟩
  · rwa [unlessFailed_of_ne hs]

theorem ite_next {p : Prop} [Decidable p] {o o' : Host.Outcome State Fault Refusal} (h : ∃ t, o = .next t)
    (h' : ∃ t, o' = .next t) : ∃ t, (if p then o else o') = .next t := by
  by_cases hp : p
  · rwa [if_pos hp]
  · rwa [if_neg hp]

theorem acceptUpdate_next (m : Mode) (s a : State) : ∃ t, acceptUpdate m s a = .next t := by
  obtain ⟨t, ht, -⟩ := runUpdate_frame m (a.count s.len)
  exact ite_next ⟨_, rfl⟩ (ite_next ⟨_, rfl⟩ ⟨t, ht⟩)

/-- Every command has a next state: its checks raise, and its effect completes. -/
theorem exec_next (i : Instr) (s : State) : ∃ t, exec i s = .next t := by
  cases i with
  | nop | init => exact ⟨_, rfl⟩
  | injb b => exact unlessFailed_next (ite_next ⟨_, rfl⟩ (ite_next ⟨_, rfl⟩ ⟨_, rfl⟩))
  | update => exact unlessFailed_next (ite_next ⟨_, rfl⟩ (acceptUpdate_next ..))
  | updTable => exact unlessFailed_next (ite_next ⟨_, rfl⟩ (acceptUpdate_next ..))
  | updFold => exact unlessFailed_next (ite_next ⟨_, rfl⟩ (ite_next ⟨_, rfl⟩ (acceptUpdate_next ..)))
  | finalize => exact unlessFailed_next (ite_next ⟨_, rfl⟩ ⟨_, rfl⟩)

theorem executeWord_next (w : Word32) (s : State) : ∃ t, executeWord w s = .next t := by
  rcases executeWord_cases w s with hill | hignored | ⟨i, -, hi⟩
  · exact ⟨_, hill⟩
  · exact ⟨_, hignored⟩
  · rw [hi]
    exact exec_next i s

theorem writeReg_next (r : Reg) (v : Word64) (s : State) : ∃ t, writeReg r v s = .next t := by
  cases r with
  | cmd => exact executeWord_next _ s
  | status | crc | ptr | len | total | result | cap | k1lo | k1hi | k4lo | k4hi | mu | poly => exact ⟨_, rfl⟩

/-! ## The register map -/

theorem Reg.offset_bounds (r : Reg) : r.offset % 8 = 0 ∧ r.offset < 0x70 := by cases r <;> decide

theorem Reg.offset_injective : Function.Injective Reg.offset := fun r r' h =>
  Option.some.inj ((selectReg_offset r).symm.trans (h ▸ selectReg_offset r'))

/-- Every multiple of 8 below 0x70 is a register's offset. -/
theorem exists_offset_eq {off : Nat} (h8 : off % 8 = 0) (hlt : off < 0x70) : ∃ r : Reg, r.offset = off := by
  obtain ⟨k, rfl⟩ := Nat.dvd_of_mod_eq_zero h8
  have hall : ∀ k < 14, ∃ r ∈ Reg.all, r.offset = 8 * k := by decide
  obtain ⟨r, -, hr⟩ := hall k (by omega)
  exact ⟨r, hr⟩

/-- An access outside R91's list selects no register. -/
theorem selectReg_eq_none {off size : Nat} (h : size ≠ 8 ∨ off % 8 ≠ 0 ∨ 0x70 ≤ off) : selectReg off size = none := by
  cases hsel : selectReg off size with
  | none => rfl
  | some r =>
    obtain ⟨rfl, rfl⟩ := selectReg_some hsel
    have := r.offset_bounds
    omega

/-! ## Reads -/

/-- The two reads that answer `ERROR` at a defined offset (R21, R25). -/
theorem readReg_eq_none_iff {r : Reg} :
    readReg r s = none ↔ (r = .crc ∧ s.stream = .failed) ∨ (r = .result ∧ s.stream ≠ .finalized) := by
  cases r <;> simp [readReg]

/-- Any other read of a register answers a value. -/
theorem hostRead_eq_error_iff {r : Reg} :
    hostRead r.offset 8 s = s.setReply .error ↔ (r = .crc ∧ s.stream = .failed) ∨ (r = .result ∧ s.stream ≠ .finalized) := by
  rw [← readReg_eq_none_iff]
  cases hread : readReg r s with
  | none => simp [hostRead_of_none hread]
  | some d =>
    rw [hostRead_of_some hread]
    constructor
    · intro h
      cases congrArg State.reply h
    · nofun

/-- Settles O10: `selectReg` knows R91's offsets alone, every write completes, and two reads answer no value. -/
theorem undefinedAccessesAnswerError : Obligations.UndefinedAccessesAnswerError := by
  intro s off size v
  constructor
  · intro h
    have hsel := selectReg_eq_none h
    exact ⟨by rw [hostWrite, hsel]; rfl, by rw [hostRead, hsel]; rfl⟩
  · rintro ⟨rfl, h8, hlt⟩
    obtain ⟨r, rfl⟩ := exists_offset_eq h8 hlt
    refine ⟨?_, ?_, fun hne => ?_⟩
    · obtain ⟨t, ht⟩ := writeReg_next r v s
      exact ⟨_, hostWrite_of_next ht, rfl⟩
    · have hcrc : r.offset = 0x10 ↔ r = .crc := Reg.offset_injective.eq_iff (b := .crc)
      have hresult : r.offset = 0x30 ↔ r = .result := Reg.offset_injective.eq_iff (b := .result)
      rw [hcrc, hresult]
      exact hostRead_eq_error_iff
    · cases hread : readReg r s with
      | none => exact absurd (hostRead_of_none hread) hne
      | some d => exact ⟨d, hostRead_of_some hread⟩

/-! ## Widths -/

theorem low32_eq_extractLsb' (v : Word64) : low32 v = v.extractLsb' 0 32 := BitVec.setWidth_eq_extractLsb' (by decide)

/-- A write sees the low bits of the register's width alone. -/
theorem writeReg_congr {r : Reg} {v v' : Word64} (h : v.toNat % 2 ^ r.width = v'.toNat % 2 ^ r.width) (s : State) :
    writeReg r v s = writeReg r v' s := by
  have low (hl : v.toNat % 2 ^ 32 = v'.toNat % 2 ^ 32) : low32 v = low32 v' := BitVec.eq_of_toNat_eq (by simpa [low32] using hl)
  have whole (hw : v.toNat % 2 ^ 64 = v'.toNat % 2 ^ 64) : v = v' := BitVec.eq_of_toNat_eq (by
    rwa [Nat.mod_eq_of_lt v.isLt, Nat.mod_eq_of_lt v'.isLt] at hw)
  cases r with
  | cmd => rw [writeReg, writeReg, low h]
  | crc => rw [writeReg, writeReg, low h]
  | ptr => rw [whole h]
  | len => rw [whole h]
  | status | total | result | cap | k1lo | k1hi | k4lo | k4hi | mu | poly => rfl

/-- The number a register holds (R92, R93). -/
def registerValue (r : Reg) (s : State) : Nat :=
  match r with
  | .cmd => 0
  | .status => s.status.toNat
  | .crc => s.crc.toNat
  | .ptr => s.ptr.toNat
  | .len => s.len.toNat
  | .total => s.total.toNat
  | .result => s.result.toNat
  | .cap => s.cap.clmul.toNat + 2 * s.cap.vec.toNat
  | .k1lo => xpowMod Config.crc32 128
  | .k1hi => xpowMod Config.crc32 192
  | .k4lo => xpowMod Config.crc32 512
  | .k4hi => xpowMod Config.crc32 576
  | .mu => mu Config.crc32
  | .poly => 0x2004C11DB7

theorem capWord_toNat (s : State) : s.capWord.toNat = s.cap.clmul.toNat + 2 * s.cap.vec.toNat := by
  unfold State.capWord
  cases s.cap.clmul <;> cases s.cap.vec <;> decide

theorem registerValue_lt (r : Reg) (s : State) : registerValue r s < 2 ^ r.width := by
  cases r with
  | cmd | poly => simp [registerValue, Reg.width]
  | status => exact s.status.isLt
  | crc => exact s.crc.isLt
  | ptr => exact s.ptr.isLt
  | len => exact s.len.isLt
  | total => exact s.total.isLt
  | result => exact s.result.isLt
  | cap => exact (capWord_toNat s).symm.trans_lt s.capWord.isLt
  | k1lo | k1hi | k4lo | k4hi => exact (xpow32_lt _).trans (by decide)
  | mu => rw [registerValue, mu_crc32]; decide

/-- A register read answers the number it holds, zero-extended. -/
theorem toNat_of_readReg {r : Reg} {d : Word64} (h : readReg r s = some d) : d.toNat = registerValue r s := by
  have hwide {w : Nat} (x : BitVec w) (hw : w ≤ 64) : (x.setWidth 64).toNat = x.toNat := BitVec.toNat_setWidth_of_le hw
  cases r with
  | cmd | ptr | len | total => cases h; rfl
  | status => cases h; exact hwide _ (by decide)
  | cap => cases h; exact (hwide _ (by decide)).trans (capWord_toNat s)
  | crc => obtain ⟨-, hd⟩ := Option.ite_none_left_eq_some.1 h; cases hd; exact hwide _ (by decide)
  | result => obtain ⟨-, hd⟩ := Option.ite_none_right_eq_some.1 h; cases hd; exact hwide _ (by decide)
  | k1lo => exact Option.some.inj h ▸ toNat_ofNat_xpow 128
  | k1hi => exact Option.some.inj h ▸ toNat_ofNat_xpow 192
  | k4lo => exact Option.some.inj h ▸ toNat_ofNat_xpow 512
  | k4hi => exact Option.some.inj h ▸ toNat_ofNat_xpow 576
  | mu => rw [← Option.some.inj h, muWord, registerValue, mu_crc32]; rfl
  | poly => exact Option.some.inj h ▸ (by decide : polyWord.toNat = 0x2004C11DB7)

/-- Settles O15: writes by `writeReg_congr` and the register's own rule, reads by `toNat_of_readReg`. -/
theorem widthsBoundReadsAndWrites : Obligations.WidthsBoundReadsAndWrites := by
  intro r s v v'
  refine ⟨fun h => ?_, ?_, ?_, ?_, ?_, ?_, fun h => hostRead_eq_error_iff.2 h, fun h => ?_⟩
  · rw [hostWrite_offset, hostWrite_offset, writeReg_congr h]
  · rintro rfl
    rw [hostWrite_offset, writeReg, low32_eq_extractLsb']
  · rintro rfl
    exact hostWrite_of_next (r := .ptr) rfl
  · rintro rfl
    exact hostWrite_of_next (r := .len) rfl
  · rintro rfl ht
    obtain ⟨-, -, hwrite, -⟩ := crcHostAccess s v
    exact hwrite ht
  · rintro (hmem | ⟨rfl, hs⟩)
    · refine hostWrite_of_next ?_
      fin_cases hmem <;> rfl
    · obtain ⟨-, -, -, hwrite⟩ := crcHostAccess s v
      exact hwrite (by rcases hs with hs | hs <;> simp [State.takesBytes, hs])
  · cases hread : readReg r s with
    | none => exact absurd (readReg_eq_none_iff.1 hread) h
    | some d => exact ⟨d, hostRead_of_some hread, toNat_of_readReg hread ▸ registerValue_lt r s, toNat_of_readReg hread⟩

end Sys2Proof.Machine
end

section
/-! Host programs as runs of the machine: one event a step, and the six transactions of `CKSUM` (spec/30_encoding.md R90, R102,
spec/43_commands.md R212). -/

namespace Sys2Proof.Machine

variable {s : State}

/-! ## One step an event -/

/-- Between commands a step takes the oldest event. -/
theorem step_of_inbox {e : HostEvent} {rest : List HostEvent} (hidle : s.phase = .idle) (hinbox : s.inbox = e :: rest) :
    step s = hostEvent e (s.setInbox rest) := by
  rw [step_of_idle hidle, takeEvent, hinbox]

/-- Settles O7: an empty queue by `takeEvent`, any other by `step_of_inbox`. -/
theorem hostEventsAreTakenInOrder : Obligations.HostEventsAreTakenInOrder := fun s hidle =>
  ⟨fun hnone => by rw [step_of_idle hidle, takeEvent, hnone], fun _ _ => step_of_inbox hidle⟩

/-- The transaction of a command word runs the command. -/
theorem hostEvent_commandEvent (i : Instr) (s : State) : hostEvent (commandEvent (encode i)) s = thenReply .ok (exec i s) := by
  have hlow : low32 ((encode i).setWidth 64) = encode i := BitVec.setWidth_setWidth_of_le _ (by decide)
  rw [commandEvent, hostEvent, hostWrite_offset, writeReg, hlow, executeWord_of_decode (decode_encode i)]

section Step

variable {t : State} {rest : List HostEvent} (hidle : s.phase = .idle)
include hidle

/-- The line `<MNEMONIC>` of a program (R101). -/
theorem step_command {i : Instr} (hinbox : s.inbox = (HostLine.cmd i).event :: rest) (h : exec i (s.setInbox rest) = .next t) :
    step s = .next (t.setReply .ok) := by
  rw [step_of_inbox hidle hinbox, HostLine.event, hostEvent_commandEvent, h, thenReply]

/-- The line `WR <reg>, <value>` of a program (R101). -/
theorem step_write {r : Reg} {v : Word64} (hinbox : s.inbox = (HostLine.wr r v).event :: rest)
    (h : writeReg r v (s.setInbox rest) = .next t) : step s = .next (t.setReply .ok) := by
  rw [step_of_inbox hidle hinbox, HostLine.event, hostEvent, hostWrite_of_next h]

/-- The line `RD <reg>` of a program (R101), where the register answers a value. -/
theorem step_read {r : Reg} {v : Word64} (hinbox : s.inbox = (HostLine.rd r).event :: rest) (h : readReg r s = some v) :
    step s = .next ((s.setInbox rest).setReply (.data v)) := by
  have hread : readReg r (s.setInbox rest) = some v := by rw [← h]; cases r <;> rfl
  rw [step_of_inbox hidle hinbox, HostLine.event, hostEvent, hostRead_of_some hread]

end Step

/-- A word written out as a number is read back. -/
theorem tableWord_toNat (w : Word32) : tableWord 32 w.toNat = w := by
  rw [tableWord, Nat.mod_eq_of_lt w.isLt, BitVec.ofNat_toNat, BitVec.setWidth_eq]

/-- Settles O8: the placed word is the command's transaction, at the head of the queue. -/
theorem fetchedWordRunsNext : Obligations.FetchedWordRunsNext := by
  intro s i
  constructor
  · rw [decodeTableWord, tableWord_toNat, decode_encode]
  · rw [State.withFetchWord, tableWord_toNat, step_of_inbox rfl rfl, hostEvent_commandEvent]
    rfl

/-! ## What the commands of `CKSUM` leave -/

/-- An accepted update of a readable range ends as R207 says, whichever of the three commands it is. -/
theorem exec_updateEnd {i : Instr} {m : Mode} {bs : List Byte} (hmode : updateMode i s = some m) (ht : s.takesBytes = true)
    (hfits : s.fits) (hcap : hasCapability i s) (hread : memRead s.mem s.ptr.toNat s.len.toNat = some bs) :
    ∃ t, exec i s = .next t ∧ UpdateEnd s bs (selAfter i s) t := by
  obtain ⟨t, hrun, hf, hphase, hlen, hcrc⟩ := runUpdate_done (m := m) (s := accepted i s) hfits.2 hread
  have hptr : t.ptr = s.ptr + BitVec.ofNat 64 bs.length := hf.ptr
  refine ⟨t, (exec_accepted hmode ht hfits hcap).trans hrun, ?_⟩
  exact
    { crc := hcrc
      ptr := by rw [hptr, memRead_length hread, BitVec.ofNat_toNat, BitVec.setWidth_eq, BitVec.add_def]
      len := hlen
      total := hf.total.trans (BitVec.add_def ..)
      stream := hf.stream
      sel_eq := hf.sel
      result := hf.result
      err := hf.err
      cap := hf.cap
      phase := hphase
      memory := fun a => by rw [hf.mem]; rfl
      inbox := hf.inbox
      reply := hf.reply }

theorem exec_finalize (ht : s.takesBytes = true) :
    exec .finalize s = .next ((s.setCrc (foldLength s.total s.crc)).finish (~~~ foldLength s.total s.crc)) := by
  have hchecks : ¬ s.isFinalized = true := Bool.eq_false_iff.1 (isFinalized_of_takesBytes ht)
  exact (unlessFailed_of_ne (ne_failed_of_takesBytes ht) _).trans (if_neg hchecks)

/-! ## The checksum -/

theorem updateBlock_zero (m : List Byte) : updateBlock 0 m = rawRemainder m := by
  apply BitVec.eq_of_toNat_eq
  rw [updateBlock_rem, rawRemainder, BitVec.toNat_ofNat, Nat.mod_eq_of_lt (rem32_lt _), messageRem]
  simp

theorem foldl_updateOneByte (bs : List Byte) (crc : Word32) : bs.foldl updateOneByte crc = updateBlock crc bs := by
  induction bs generalizing crc with
  | nil => exact (updateBlock_nil crc).symm
  | cons b bs ih => rw [List.foldl_cons, ih, ← updateBlock_one, ← updateBlock_append, List.singleton_append]

/-- Eight bytes are enough for a 64-bit count. -/
theorem lengthBytesLoop_eight {n : Nat} (h : n < 2 ^ 64) : lengthBytesLoop 8 n = lengthBytes n := by
  have hbits : n < 256 ^ bitlength n := (lt_two_pow_bitlength n).trans_le (Nat.pow_le_pow_left (by decide) _)
  exact (lengthBytesLoop_fuel 8 n h _ (Nat.le_max_left ..)).symm.trans
    (lengthBytesLoop_fuel _ n hbits _ (Nat.le_max_right ..))

/-- `FINAL` injects the minimal little-endian bytes of the count (R210). -/
theorem foldLength_eq (total : Word64) (crc : Word32) : foldLength total crc = updateBlock crc (lengthBytes total.toNat) := by
  rw [foldLength, lengthLoop_eq 8 total total.isLt, lengthBytesLoop_eight total.isLt, foldl_updateOneByte]

/-- The complement of a message's register with its byte count folded in is the message's checksum (R212). -/
theorem not_foldLength_updateBlock {m : List Byte} {n : Word64} (h : m.length = n.toNat) :
    ~~~ foldLength n (updateBlock 0 m) = posixCksum m := by
  rw [foldLength_eq, ← updateBlock_append, updateBlock_zero, posixCksum, h]

/-! ## The six transactions -/

/-- A fresh stream with the range `[p, p + n)` and the events `rest` to come. -/
def freshRange (s : State) (p n : Word64) (rest : List HostEvent) : State :=
  ((s.startStream.setPtr p).setLen n).setInbox rest

theorem runSteps_freshRange {p n : Word64} {rest : List HostEvent} (hidle : s.phase = .idle)
    (hinbox : s.inbox = eventsOf [.cmd .init, .wr .ptr p, .wr .len n] ++ rest) :
    runSteps 3 s = .next ((freshRange s p n rest).setReply .ok) := by
  let s₁ := ((s.setInbox (eventsOf [.wr .ptr p, .wr .len n] ++ rest)).startStream).setReply .ok
  let s₂ := ((s₁.setInbox (eventsOf [.wr .len n] ++ rest)).setPtr p).setReply .ok
  have hinit : step s = .next s₁ := step_command hidle hinbox rfl
  have hptr : step s₁ = .next s₂ := step_write hidle rfl rfl
  have hlen : step s₂ = .next (((s₂.setInbox rest).setLen n).setReply .ok) := step_write hidle rfl rfl
  exact (runSteps_succ 2 hinit).trans ((runSteps_succ 1 hptr).trans (runSteps_succ 0 hlen))

/-- `FINAL`, which leaves `c` in `CRC`, then the read of `RESULT`. -/
theorem runSteps_finalize_read {c : Word32} {rest : List HostEvent} (hidle : s.phase = .idle) (ht : s.takesBytes = true)
    (hinbox : s.inbox = eventsOf [.cmd .finalize, .rd .result] ++ rest) (hc : foldLength s.total s.crc = c) :
    runSteps 2 s = .next ((((s.setInbox rest).setCrc c).finish (~~~ c)).setReply (.data ((~~~ c).setWidth 64))) := by
  let f := (((s.setInbox (eventsOf [.rd .result] ++ rest)).setCrc c).finish (~~~ c)).setReply .ok
  have hfinal : step s = .next f := step_command hidle hinbox (hc ▸ exec_finalize ht)
  have hread : step f = .next ((f.setInbox rest).setReply (.data ((~~~ c).setWidth 64))) :=
    step_read (s := f) (r := .result) hidle rfl rfl
  exact (runSteps_succ 1 hfinal).trans (runSteps_succ 0 hread)

/-- Settles O56: `INIT` and the range, an accepted update that ends as `exec_updateEnd` says, and `FINAL` on its register. -/
theorem cksumAnswersThePosixChecksum : Obligations.CksumAnswersThePosixChecksum := by
  intro s p n bs rest hidle hfit hread hinbox
  let a := (freshRange s p n (eventsOf [.cmd .update, .cmd .finalize, .rd .result] ++ rest)).setReply .ok
  have hfresh : runSteps 3 s = .next a := runSteps_freshRange hidle hinbox
  have hcount : (0 : Word64).toNat + n.toNat ≤ 2 ^ 64 - 1 := by simpa using Nat.le_sub_one_of_lt n.isLt
  obtain ⟨u, hexec, hend⟩ := exec_updateEnd (i := .update) (s := a.setInbox (eventsOf [.cmd .finalize, .rd .result] ++ rest))
    rfl rfl ⟨hcount, hfit⟩ nofun hread
  have hcrc : u.crc = updateBlock 0 bs := hend.crc
  have htotal : u.total = n := hend.total.trans ((BitVec.add_def (0 : Word64) n).symm.trans (BitVec.zero_add n))
  have hupdate : step a = .next (u.setReply .ok) := step_command hidle rfl hexec
  have hlast := runSteps_finalize_read (s := u.setReply .ok) hend.phase (by simp [State.takesBytes, hend.stream]) hend.inbox rfl
  refine ⟨_, ((runSteps_add 3 3 hfresh).trans (runSteps_succ 2 hupdate)).trans hlast, ?_, htotal⟩
  rw [State.setReply_reply, State.setReply_total, State.setReply_crc, htotal, hcrc,
    not_foldLength_updateBlock (memRead_length hread)]

end Sys2Proof.Machine
end

section
/-! The constant derivation for every generator of the domain (spec/40_constants.md R121 to R128): the laws of the remainder,
the powers' remainders, and the quotient `mu`. -/

namespace Sys2Proof.Machine

variable {g : Generator}

/-! ## The laws of the remainder -/

theorem Cong.gfMul {a b c d : Nat} (h : Cong g a b) (k : Cong g c d) : Cong g (gfMul a c) (gfMul b d) :=
  (h.gfMul_right c).trans (k.gfMul_left b)

theorem polymod_of_lt (hg : g.inDomain = true) {a : Nat} (h : a < 2 ^ g.width) : polymod g a = a :=
  (eq_polymod hg h (Cong.refl a)).symm

theorem polymod_xor (hg : g.inDomain = true) (a b : Nat) : polymod g (a ^^^ b) = polymod g a ^^^ polymod g b :=
  (eq_polymod hg (Nat.xor_lt_two_pow (polymod_lt hg a) (polymod_lt hg b)) ((polymod_cong g a).xor (polymod_cong g b))).symm

/-- A remainder may be taken of both factors first. -/
theorem polymod_gfMul (hg : g.inDomain = true) (a b : Nat) :
    polymod g (gfMul a b) = polymod g (gfMul (polymod g a) (polymod g b)) :=
  (polymod_eq_iff hg).2 ((polymod_cong g a).gfMul (polymod_cong g b))

/-! ## The powers -/

/-! The checked derivations answer a value in the domain alone (R128). -/

theorem xpowModChecked_of_inDomain (hg : g.inDomain = true) (e : Nat) : xpowModChecked g e = some (xpowMod g e) := if_pos hg

theorem xpowModChecked_of_not_inDomain (hg : g.inDomain = false) (e : Nat) : xpowModChecked g e = none :=
  if_neg (Bool.eq_false_iff.1 hg)

theorem muChecked_of_not_inDomain (hg : g.inDomain = false) : muChecked g = none := if_neg (Bool.eq_false_iff.1 hg)

theorem xpowMod_eq_polymod (hg : g.inDomain = true) (e : Nat) : xpowMod g e = polymod g (1 <<< e) :=
  have ⟨hlt, hcong⟩ := xpowMod_cong hg e
  eq_polymod hg hlt hcong

/-! ## The quotient -/

/-- The remainder of `Mu`'s division takes the turns of `polymod`. -/
theorem muLoop_fst (n rem q : Nat) : (muLoop g n rem q).1 = polymodLoop g n rem := by
  induction n generalizing rem q with
  | zero => rfl
  | succ n ih =>
    rw [muLoop, polymodLoop]
    split
    · exact ih _ _
    · rfl

/-- The final remainder is `x^(2·width)` modulo `P`. -/
theorem muDivision_fst (g : Generator) : (muDivision g).1 = polymod g (1 <<< (2 * g.width)) := by
  rw [muDivision, muLoop_fst, polymod, bitlength_two_pow]

/-- A bit set in a place that was clear. -/
theorem or_two_pow_eq_xor {q k : Nat} (h : q.testBit k = false) : q ||| 1 <<< k = q ^^^ 1 <<< k := by
  apply Nat.eq_of_testBit_eq
  intro i
  rw [Nat.testBit_or, Nat.testBit_xor, Nat.one_shiftLeft, Nat.testBit_two_pow]
  by_cases hi : k = i
  · subst hi
    simp [h]
  · simp [hi]

/-- The division keeps `rem ^^^ q ⊗ P`, as long as the quotient is clear in the places of the turns to come: each turn moves
`P`, shifted, from the remainder to the product. -/
theorem muLoop_xor_gfMul (hg : g.inDomain = true) (n : Nat) {rem q : Nat}
    (hclear : ∀ j, j + g.width < bitlength rem → q.testBit j = false) :
    (muLoop g n rem q).1 ^^^ gfMul (muLoop g n rem q).2 g.poly = rem ^^^ gfMul q g.poly := by
  induction n generalizing rem q with
  | zero => rfl
  | succ n ih =>
    rw [muLoop]
    split
    case isFalse => rfl
    case isTrue hw =>
      have hlower := bitlength_reduce_lt hg hw
      generalize hk : bitlength rem - 1 - g.width = k at hlower ⊢
      have hplace : q ||| 1 <<< k = q ^^^ 1 <<< k := or_two_pow_eq_xor (hclear k (by omega))
      rw [ih, hplace, gfMul_xor_left, gfMul_two_pow_left]
      · rw [Nat.xor_assoc, Nat.xor_comm (gfMul q g.poly), Nat.xor_xor_cancel_left]
      · intro j hj
        have hne : k ≠ j := by omega
        rw [Nat.testBit_or, hclear j (by omega), Nat.one_shiftLeft, Nat.testBit_two_pow_of_ne hne, Bool.or_false]

/-- The division of `x^(2·width)`: remainder plus quotient times `P`. -/
theorem muDivision_fst_xor_gfMul_mu (hg : g.inDomain = true) :
    (muDivision g).1 ^^^ gfMul (mu g) g.poly = 1 <<< (2 * g.width) := by
  rw [mu, muDivision, muLoop_xor_gfMul hg _ fun j _ => Nat.zero_testBit j, gfMul_zero_left, Nat.xor_zero]

theorem gfMul_mu (hg : g.inDomain = true) :
    gfMul (mu g) g.poly = 1 <<< (2 * g.width) ^^^ polymod g (1 <<< (2 * g.width)) := by
  rw [← muDivision_fst, ← muDivision_fst_xor_gfMul_mu hg, Nat.xor_comm, Nat.xor_xor_cancel_left]

/-- The degrees of `mu` and of `P` add up to `2·width`. -/
theorem bitlength_mu (hg : g.inDomain = true) : bitlength (mu g) = g.width + 1 := by
  have hrem : bitlength (polymod g (1 <<< (2 * g.width))) ≤ g.width := bitlength_le_iff.2 (polymod_lt hg _)
  have hpoly := bitlength_poly hg
  have hproduct : bitlength (gfMul (mu g) g.poly) = 2 * g.width + 1 := by
    rw [gfMul_mu hg, bitlength_xor_of_lt, bitlength_two_pow]
    rw [bitlength_two_pow]
    omega
  have hmu : mu g ≠ 0 := fun h => by simp [h] at hproduct
  have hpoly0 : g.poly ≠ 0 := fun h => by simp [h] at hpoly
  have hsum := bitlength_gfMul hmu hpoly0
  omega

/-! ## The statements of the constants -/

/-- Settles O42: `polymod_lt` and `polymod_cong`, uniqueness by `eq_polymod`, and the laws. -/
theorem polymodIsTheRemainder : Obligations.PolymodIsTheRemainder := fun g hg a b =>
  ⟨polymod_lt hg a, polymod_cong g a, fun _ q hr hq => eq_polymod hg hr ⟨q, hq⟩, polymod_xor hg a b, polymod_gfMul hg a b,
    polymod_of_lt hg⟩

/-- Settles O43: in the domain `xpowMod_eq_polymod`, outside it the refusal. -/
theorem xpowModIsThePowersRemainder : Obligations.XpowModIsThePowersRemainder := fun _ =>
  ⟨fun hg e => ⟨xpowMod_eq_polymod hg e, xpowModChecked_of_inDomain hg e⟩,
    fun hg e => ⟨xpowModChecked_of_not_inDomain hg e, muChecked_of_not_inDomain hg⟩⟩

/-- Settles O44: the product by `gfMul_mu`, the remainder by `muDivision_fst`, the degree by `bitlength_mu`. -/
theorem muIsTheQuotient : Obligations.MuIsTheQuotient := by
  refine ⟨fun g hg => ?_, mu_crc32⟩
  rw [xpowMod_eq_polymod hg]
  refine ⟨?_, muDivision_fst g, bitlength_mu hg⟩
  rw [gfMul_mu hg, Nat.xor_comm, Nat.xor_xor_cancel_left]

end Sys2Proof.Machine
end

section
/-! The table engine (spec/41_table_engine.md R141 to R150): the tables and the steps are remainders, linear in register and
message, and a register followed by its own bytes leaves zero. -/

namespace Sys2Proof.Machine

/-! ## One byte -/

/-- Linearity in the pair of register and byte, from that of the remainder. -/
theorem updateOneByte_xor (c c' : Word32) (b b' : Byte) :
    updateOneByte (c ^^^ c') (b ^^^ b') = updateOneByte c b ^^^ updateOneByte c' b' := by
  apply BitVec.eq_of_toNat_eq
  rw [BitVec.toNat_xor, updateOneByte_rem, updateOneByte_rem, updateOneByte_rem, ← rem32_xor, BitVec.toNat_xor,
    BitVec.toNat_xor, Nat.shiftLeft_xor_distrib, Nat.shiftLeft_xor_distrib, Nat.xor_assoc, Nat.xor_left_comm (c'.toNat <<< 8),
    ← Nat.xor_assoc]

theorem table_xor (k : Nat) (a b : Byte) : table k (a ^^^ b) = table k a ^^^ table k b := by
  apply BitVec.eq_of_toNat_eq
  simp only [table_rem, BitVec.toNat_xor, Nat.shiftLeft_xor_distrib, rem32_xor]

@[simp] theorem table_zero_byte (k : Nat) : table k 0 = 0 := by
  apply BitVec.eq_of_toNat_eq
  rw [table_rem]
  simp [rem32_zero]

theorem table_one_byte (k : Nat) : (table k 1).toNat = xpowMod Config.crc32 (32 + 8 * k) :=
  (table_rem k 1).trans (xpowMod_eq_polymod crc32_inDomain _).symm

/-- A zero register shifts out nothing, so the byte itself is the index. -/
theorem updateOneByte_zero_left (b : Byte) : updateOneByte 0 b = table 0 b := by
  simp [updateOneByte, table]

@[simp] theorem updateOneByte_zero_zero : updateOneByte 0 0 = 0 :=
  (updateOneByte_zero_left 0).trans (table_zero_byte 0)

/-- The register's own top byte makes the index zero. -/
theorem updateOneByte_top (crc : Word32) : updateOneByte crc (crc.extractLsb' 24 8) = crc <<< 8 := by
  have hindex : crc.extractLsb' 24 8 ^^^ crc.extractLsb' 24 8 = 0 := BitVec.xor_self
  have hzero : table0 0 = 0 := table_zero_byte 0
  rw [updateOneByte, hindex, hzero]
  exact BitVec.xor_zero

/-! ## A block of bytes -/

theorem updateBlock_cons (crc : Word32) (b : Byte) (m : List Byte) :
    updateBlock crc (b :: m) = updateBlock (updateOneByte crc b) m := by
  rw [← updateBlock_one, ← updateBlock_append, List.singleton_append]

theorem updateBlock_eq_messageRemainder (crc : Word32) (m : List Byte) : updateBlock crc m = messageRemainder crc m := by
  apply BitVec.eq_of_toNat_eq
  rw [updateBlock_rem, messageRemainder, BitVec.toNat_ofNat, Nat.mod_eq_of_lt (rem32_lt _), messageRem]

/-- Linearity in the pair of register and message, byte by byte. -/
theorem updateBlock_zipWith_xor {m n : List Byte} (h : m.length = n.length) (c c' : Word32) :
    updateBlock (c ^^^ c') (List.zipWith (· ^^^ ·) m n) = updateBlock c m ^^^ updateBlock c' n := by
  induction m generalizing n c c' with
  | nil =>
    rw [List.length_eq_zero_iff.1 h.symm]
    simp
  | cons a m ih =>
    cases n with
    | nil => cases h
    | cons b n => simp only [List.zipWith_cons_cons, updateBlock_cons, updateOneByte_xor, ih (Nat.succ.inj h)]

/-- Leading zero bytes leave a zero register. -/
theorem updateBlock_zero_replicate (n : Nat) : updateBlock 0 (List.replicate n 0) = 0 := by
  induction n with
  | zero => exact updateBlock_nil 0
  | succ n ih => rw [List.replicate_succ, updateBlock_cons, updateOneByte_zero_zero, ih]

/-- `k` zero bytes lead from `TABLE[0]` to `TABLE[k]` (R142). -/
theorem updateBlock_table_zero (k : Nat) (b : Byte) : updateBlock (table 0 b) (List.replicate k 0) = table k b := by
  induction k with
  | zero => exact updateBlock_nil _
  | succ k ih => rw [List.replicate_succ', updateBlock_append, ih, updateBlock_one, table]

/-- A table entry is what one byte among zeros leaves (R149). -/
theorem updateBlock_zero_set {n i : Nat} (h : i < n) (b : Byte) :
    updateBlock 0 ((List.replicate n 0).set i b) = table (n - 1 - i) b := by
  have hsplit : (List.replicate n (0 : Byte)).set i b = List.replicate i 0 ++ b :: List.replicate (n - (i + 1)) 0 := by
    rw [List.set_eq_take_append_cons_drop, if_pos (by simpa using h), List.take_replicate, List.drop_replicate,
      Nat.min_eq_left h.le]
  rw [hsplit, updateBlock_append, updateBlock_zero_replicate, updateBlock_cons, updateOneByte_zero_left,
    updateBlock_table_zero, Nat.add_comm, Nat.sub_sub]

/-! ## A register as bytes -/

/-- The register's bytes, most significant first: its natural order (R150). -/
def registerBytes (crc : Word32) : List Byte :=
  [crc.extractLsb' 24 8, crc.extractLsb' 16 8, crc.extractLsb' 8 8, crc.extractLsb' 0 8]

theorem be_registerBytes (crc : Word32) : be (registerBytes crc) = crc.toNat := by
  rw [← le_reverse]
  exact (le_bytes crc 4).trans (Nat.mod_eq_of_lt crc.isLt)

/-- A register followed by its own bytes: `(crc << 32) ^ (crc << 32)` is zero before the division. -/
theorem updateBlock_registerBytes (crc : Word32) : updateBlock crc (registerBytes crc) = 0 := by
  apply BitVec.eq_of_toNat_eq
  rw [updateBlock_rem, messageRem, be_registerBytes]
  exact (congrArg rem32 (Nat.xor_self _)).trans rem32_zero

/-- By linearity the register moves into the bytes: what is taken from it, `updateBlock_registerBytes`, is zero. -/
theorem updateBlock_zero_seeded (crc : Word32) {m : List Byte} (h : 4 ≤ m.length) :
    updateBlock 0 (seeded crc m) = updateBlock crc m := by
  match m, h with
  | b0 :: b1 :: b2 :: b3 :: rest, _ =>
    have hself : crc ^^^ crc = 0 := BitVec.xor_self
    have hfour : updateBlock (crc ^^^ crc) (List.zipWith (· ^^^ ·) [b0, b1, b2, b3] (registerBytes crc)) =
        updateBlock crc [b0, b1, b2, b3] := by
      rw [updateBlock_zipWith_xor (m := [b0, b1, b2, b3]) (n := registerBytes crc) rfl, updateBlock_registerBytes]
      exact BitVec.xor_zero
    calc updateBlock 0 (seeded crc (b0 :: b1 :: b2 :: b3 :: rest))
      _ = updateBlock 0 (List.zipWith (· ^^^ ·) [b0, b1, b2, b3] (registerBytes crc) ++ rest) := rfl
      _ = updateBlock (updateBlock crc [b0, b1, b2, b3]) rest := by
        rw [updateBlock_append, ← hfour, hself]
      _ = updateBlock crc (b0 :: b1 :: b2 :: b3 :: rest) := (updateBlock_append crc [b0, b1, b2, b3] rest).symm

/-! ## The statements of the table engine -/

/-- Settles O45: the remainder by `table_rem`, and an entry observed by `updateBlock_zero_set`. -/
theorem tablesHoldRemainders : Obligations.TablesHoldRemainders := fun k a b =>
  ⟨table_rem k b, table_xor k a b, table_zero_byte k, table_one_byte k, fun _ hi => updateBlock_zero_set hi b⟩

/-- Settles O46: the remainder by `updateOneByte_rem`, the corner cases by the index they look up. -/
theorem updateOneByteIsARemainder : Obligations.UpdateOneByteIsARemainder := fun crc b =>
  ⟨rfl, updateOneByte_rem crc b, updateOneByte_zero_zero, updateOneByte_zero_left b, updateOneByte_top crc⟩

/-- Settles O47: both are `update_block` on the eight bytes. -/
theorem step8IsEightOneByteSteps : Obligations.Step8IsEightOneByteSteps := fun crc bs hlen => by
  rw [← updateBlock_eight crc hlen, foldl_updateOneByte]

/-- Settles O48: linearity by `updateBlock_zipWith_xor`, the seed by `updateBlock_zero_seeded`. -/
theorem updateBlockIsTheMessageRemainder : Obligations.UpdateBlockIsTheMessageRemainder := fun crc crc' m n =>
  ⟨(foldl_updateOneByte m crc).symm, updateBlock_eq_messageRemainder crc m, updateBlock_append crc m n,
    fun hlen => updateBlock_zipWith_xor hlen crc crc', fun hlen => (updateBlock_zero_seeded crc hlen).symm⟩

/-- Settles O49, by `updateBlock_registerBytes`. -/
theorem residueIsZero : Obligations.ResidueIsZero := by
  refine fun crc m => ⟨updateBlock_registerBytes crc, fun hcrc => ?_⟩
  rw [updateBlock_append, hcrc]
  exact updateBlock_registerBytes crc

/-- Settles O36: both read without alignment, so `LEN` alone makes them ready. -/
theorem tableMicroOperations : Obligations.TableMicroOperations := by
  refine fun s => ⟨fun hlen => ?_, fun hlen => ?_⟩
  · have hready : Ready .inj s := ⟨hlen, nofun, trivial⟩
    have hread : memRead s.mem s.ptr.toNat MicroOp.inj.readBytes = (s.mem.get s.ptr.toNat).map fun b => [b] :=
      memRead_one s.mem s.ptr.toNat
    exact ⟨fun b hb => runMicro_done (bs := [b]) hready (by rw [hread, hb, Option.map_some]),
      fun hnone => runMicro_fail hready (by rw [hread, hnone, Option.map_none])⟩
  · have hready : Ready .step8 s := ⟨hlen, nofun, trivial⟩
    exact ⟨fun _ => runMicro_done hready, runMicro_fail hready⟩

end Sys2Proof.Machine
end

section
/-! The fold engine's datapath (spec/42_fold_engine.md R161 to R167): the bits and laws of the multiply, the byte reversal and
the loads, and the fold. -/

namespace Sys2Proof.Machine

/-! ## The multiply -/

/-- The term of bit `j` of `b` at bit `n`. -/
def clmulBit (a b : Word64) (n j : Nat) : Bool := decide (j ≤ n) && a.getLsbD (n - j) && b.getLsbD j

/-- Bit `n` of the first `k` terms, one bit of `b` at a time (R161). -/
theorem getLsbD_clmulTerms (a b : Word64) {k : Nat} (hk : k ≤ 64) (n : Nat) :
    (clmulTerms a b k).getLsbD n = ((List.range k).map (clmulBit a b n)).foldl xor false := by
  induction k with
  | zero => exact BitVec.getLsbD_zero
  | succ k ih =>
    have hterm : (if b.getLsbD k then a.setWidth 128 <<< k else 0 : Vec128).getLsbD n = clmulBit a b n k := by
      have hwide : 64 ≤ n - k → a.getLsbD (n - k) = false := BitVec.getLsbD_of_ge a _
      cases hb : b.getLsbD k with
      | false => simp [clmulBit, hb]
      | true =>
        simp only [clmulBit, hb, if_true, BitVec.getLsbD_shiftLeft, BitVec.getLsbD_setWidth, Bool.and_true]
        by_cases hkn : k ≤ n
        · by_cases hn : n - k < 64
          · simp [hkn, show n < 128 by omega, show n - k < 128 by omega]
          · simp [hwide (by omega)]
        · simp [hkn, show n < k by omega]
    rw [clmulTerms, BitVec.getLsbD_xor, ih (by omega), hterm, List.range_succ, List.map_append, List.foldl_append]
    rfl

/-- The degree of a product is at most the sum of the degrees, a zero factor included. -/
theorem bitlength_gfMul_le (a b : Nat) : bitlength (gfMul a b) ≤ bitlength a + bitlength b - 1 := by
  by_cases ha : a = 0
  · simp [ha]
  by_cases hb : b = 0
  · simp [hb]
  exact (bitlength_gfMul ha hb).le

/-- A product of operands of `i` and `j` bits has `i + j - 1`. -/
theorem clmul64_lt {a b : Word64} {i j : Nat} (ha : a.toNat < 2 ^ i) (hb : b.toNat < 2 ^ j) :
    (clmul64 a b).toNat < 2 ^ (i + j - 1) := by
  rw [clmul64_toNat, ← bitlength_le_iff]
  have hproduct := bitlength_gfMul_le a.toNat b.toNat
  have hi := bitlength_le_iff.2 ha
  have hj := bitlength_le_iff.2 hb
  omega

theorem clmul64_comm (a b : Word64) : clmul64 a b = clmul64 b a := by
  apply BitVec.eq_of_toNat_eq
  rw [clmul64_toNat, clmul64_toNat, gfMul_comm]

theorem clmul64_zero (a : Word64) : clmul64 a 0 = 0 :=
  BitVec.eq_of_toNat_eq ((clmul64_toNat a 0).trans (gfMul_zero _))

theorem clmul64_one (a : Word64) : clmul64 a 1 = a.setWidth 128 := by
  apply BitVec.eq_of_toNat_eq
  rw [clmul64_toNat, gfMul_comm, BitVec.toNat_setWidth_of_le (by decide)]
  exact gfMul_one_left _

theorem clmul64_xor_left (a c b : Word64) : clmul64 (a ^^^ c) b = clmul64 a b ^^^ clmul64 c b := by
  apply BitVec.eq_of_toNat_eq
  rw [BitVec.toNat_xor, clmul64_toNat, clmul64_toNat, clmul64_toNat, BitVec.toNat_xor, gfMul_xor_left]

/-- Settles O50: the bits term by term, the laws by those of the product of naturals. -/
theorem carrylessProductLaws : Obligations.CarrylessProductLaws := by
  refine fun a b c => ⟨getLsbD_clmulTerms a b (Nat.le_refl _), clmul64_toNat a b, ?_, clmul64_comm a b, clmul64_zero a,
    clmul64_one a, clmul64_xor_left a c b, fun ha hb => ?_⟩
  · exact Nat.testBit_eq_false_of_lt (clmul64_lt a.isLt b.isLt)
  · have hne {x : Word64} (hx : x ≠ 0) : x.toNat ≠ 0 := fun h => hx (BitVec.eq_of_toNat_eq h)
    rw [clmul64_toNat]
    exact bitlength_gfMul (hne ha) (hne hb)

/-! ## Bytes -/

/-- A vector is determined by its lane bytes. -/
theorem laneBytes_injective : Function.Injective laneBytes := fun v w h =>
  BitVec.eq_of_toNat_eq ((le_laneBytes v).symm.trans ((congrArg le h).trans (le_laneBytes w)))

@[simp] theorem brev128_brev128 (v : Vec128) : brev128 (brev128 v) = v :=
  laneBytes_injective (by rw [laneBytes_brev128, laneBytes_brev128, List.reverse_reverse])

theorem getElem_laneBytes (v : Vec128) {i : Nat} (h : i < (laneBytes v).length) :
    (laneBytes v)[i] = v.extractLsb' (8 * i) 8 := by
  simp [laneBytes]

/-- Byte `i` of the reversal is byte `15 - i` (R164). -/
theorem extractLsb'_brev128 (v : Vec128) {i : Nat} (h : i < 16) :
    (brev128 v).extractLsb' (8 * i) 8 = v.extractLsb' (8 * (15 - i)) 8 := by
  have hi : i < (laneBytes (brev128 v)).length := by rwa [length_laneBytes]
  rw [← getElem_laneBytes _ hi]
  simp only [laneBytes_brev128, List.getElem_reverse, getElem_laneBytes, length_laneBytes]

/-- The accumulator's bytes, most significant first (R165). -/
theorem accBytes_eq_map (v : Vec128) : accBytes v = (List.range 16).map fun i => v.extractLsb' (120 - 8 * i) 8 := by
  refine List.map_congr_left fun i hi => ?_
  have hlt : i < 16 := List.mem_range.1 hi
  rw [extractLsb'_brev128 v hlt, show 8 * (15 - i) = 120 - 8 * i by omega]

/-- Settles O51: the reversal through the lane bytes, the block load by `loadBlock_eq`. -/
theorem blockLoadIsBigEndian : Obligations.BlockLoadIsBigEndian :=
  ⟨fun v => ⟨brev128_brev128 v, fun _ hi => extractLsb'_brev128 v hi, accBytes_eq_map v⟩,
    fun m a => ⟨rfl, loadBlock_eq m a⟩⟩

/-! ## The fold -/

theorem foldAcc_xor (a b : Vec128) (klo khi : Word64) :
    foldAcc (a ^^^ b) klo khi = foldAcc a klo khi ^^^ foldAcc b klo khi := by
  simp only [foldAcc, BitVec.extractLsb'_xor, clmul64_xor_left]
  ac_rfl

theorem foldAcc_zero (klo khi : Word64) : foldAcc 0 klo khi = 0 :=
  calc foldAcc 0 klo khi
    _ = foldAcc (0 ^^^ 0) klo khi := rfl
    _ = foldAcc 0 klo khi ^^^ foldAcc 0 klo khi := foldAcc_xor 0 0 klo khi
    _ = 0 := BitVec.xor_self

/-- With 32-bit constants each product has at most 95 bits (R166). -/
theorem foldAcc_lt (a : Vec128) {klo khi : Word64} (hlo : klo.toNat < 2 ^ 32) (hhi : khi.toNat < 2 ^ 32) :
    (foldAcc a klo khi).toNat < 2 ^ 95 := by
  rw [foldAcc, BitVec.toNat_xor]
  exact Nat.xor_lt_two_pow (clmul64_lt (BitVec.isLt _) hhi) (clmul64_lt (BitVec.isLt _) hlo)

/-- Settles O52: the degrees by `foldK1_rem` and `foldK4_rem`, the rest from the multiply. -/
theorem foldMovesUpTheDegree : Obligations.FoldMovesUpTheDegree := fun a b =>
  ⟨foldK1_rem a, foldK4_rem a, fun klo khi => ⟨foldAcc_xor a b klo khi, foldAcc_zero klo khi, foldAcc_lt a⟩⟩

end Sys2Proof.Machine
end

section
/-! The fold micro-operations: their effects, and the bytes their accumulators stand for (spec/42_fold_engine.md R168 to R175,
R179). -/

namespace Sys2Proof.Machine

variable {s t : State} {m bs : List Byte}

/-! ## Effects -/

/-- Settles O37: an aligned `PTR` and the bound on `LEN` make both ready; three blocks are the parts of their 48 bytes. -/
theorem loadMicroOperations : Obligations.LoadMicroOperations := by
  refine fun s hptr => ⟨fun hlen => ?_, fun hlen => ?_⟩
  · have hready : Ready .load0 s := ⟨hlen, fun _ => hptr, trivial⟩
    exact ⟨fun _ => runMicro_done hready, runMicro_fail hready⟩
  · have hready : Ready .loadK s := ⟨hlen, fun _ => hptr, trivial⟩
    refine ⟨fun b1 b2 b3 h1 h2 h3 hread => ?_, runMicro_fail hready⟩
    have hb1 : (b1 ++ b2 ++ b3).take 16 = b1 := by simp [h1]
    have hb2 : ((b1 ++ b2 ++ b3).drop 16).take 16 = b2 := by simp [h1, h2]
    have hb3 : ((b1 ++ b2 ++ b3).drop 32).take 16 = b3 := by
      rw [List.drop_left' (by simp [h1, h2]), List.take_of_length_le h3.le]
    rw [runMicro_done hready hread, microResult, hb1, hb2, hb3]
    rfl

/-- Settles O38: four blocks are the parts of their 64 bytes. -/
theorem fold4MicroOperation : Obligations.Fold4MicroOperation := by
  intro s hlen hptr w0 w1 w2 w3
  have hready : Ready .fold4 s := ⟨hlen, fun _ => hptr, w0, w1, w2, w3⟩
  refine ⟨fun b0 b1 b2 b3 h0 h1 h2 h3 hread => ?_, runMicro_fail hready⟩
  have hb0 : (b0 ++ b1 ++ b2 ++ b3).take 16 = b0 := by simp [h0]
  have hb1 : ((b0 ++ b1 ++ b2 ++ b3).drop 16).take 16 = b1 := by simp [h0, h1]
  have hb2 : ((b0 ++ b1 ++ b2 ++ b3).drop 32).take 16 = b2 := by
    rw [List.append_assoc, List.drop_left' (by simp [h0, h1]), List.take_left' h2]
  have hb3 : ((b0 ++ b1 ++ b2 ++ b3).drop 48).take 16 = b3 := by
    rw [List.drop_left' (by simp [h0, h1, h2]), List.take_of_length_le h3.le]
  rw [runMicro_done hready hread, microResult, hb0, hb1, hb2, hb3]
  rfl

/-- Settles O39: `uCOLLAPSE` reads no byte and is ready in any position; `uFOLD1` as the loads. -/
theorem k1FoldMicroOperations : Obligations.K1FoldMicroOperations := by
  refine fun s w0 => ⟨fun w1 w2 w3 => ?_, fun hlen hptr => ?_⟩
  · have hready : Ready .collapse s := ⟨Nat.zero_le _, nofun, w0, w1, w2, w3⟩
    exact ⟨_, _, _, rfl, rfl, rfl, runMicro_done (bs := []) hready rfl⟩
  · have hready : Ready .fold1 s := ⟨hlen, fun _ => hptr, w0⟩
    exact ⟨fun _ => runMicro_done hready, runMicro_fail hready⟩

/-- Settles O40: the reduction reads no byte, and its value is `reduce_rem`. -/
theorem reduceMicroOperation : Obligations.ReduceMicroOperation := fun s w0 =>
  have hready : Ready .reduce s := ⟨Nat.zero_le _, nofun, w0⟩
  ⟨_, runMicro_done (bs := []) hready rfl, rfl, reduce_rem s.acc0.value⟩

/-! ## The seed -/

theorem be_zipWith_xor {m n : List Byte} (h : m.length = n.length) : be (List.zipWith (· ^^^ ·) m n) = be m ^^^ be n := by
  induction m generalizing n with
  | nil =>
    rw [List.length_eq_zero_iff.1 h.symm]
    rfl
  | cons a m ih =>
    cases n with
    | nil => cases h
    | cons b n =>
      have hl : m.length = n.length := Nat.succ.inj h
      have hz : (List.zipWith (· ^^^ ·) m n).length = n.length := by simp [hl]
      rw [List.zipWith_cons_cons, be_cons, be_cons, be_cons, ih hl, hz, hl, BitVec.toNat_xor, Nat.shiftLeft_xor_distrib]
      ac_rfl

/-- The seed lies over the first four bytes of the message. -/
theorem be_seeded (crc : Word32) (h : 4 ≤ m.length) : be (seeded crc m) = crc.toNat <<< (8 * (m.length - 4)) ^^^ be m := by
  match m, h with
  | b0 :: b1 :: b2 :: b3 :: rest, _ =>
    calc be (seeded crc (b0 :: b1 :: b2 :: b3 :: rest))
      _ = be (List.zipWith (· ^^^ ·) [b0, b1, b2, b3] (registerBytes crc) ++ rest) := rfl
      _ = crc.toNat <<< (8 * rest.length) ^^^ (be [b0, b1, b2, b3] <<< (8 * rest.length) ^^^ be rest) := by
        rw [be_append, be_zipWith_xor (m := [b0, b1, b2, b3]) (n := registerBytes crc) rfl, be_registerBytes,
          Nat.shiftLeft_xor_distrib]
        ac_rfl
      _ = crc.toNat <<< (8 * rest.length) ^^^ be ([b0, b1, b2, b3] ++ rest) := by rw [be_append]

/-! ## What the accumulators stand for -/

/-- A micro-operation that completes has read its bytes. -/
theorem eq_microResult_of_read {u : MicroOp} (h : runMicro u s = .done t)
    (hread : memRead s.mem s.ptr.toNat u.readBytes = some bs) : t = microResult u s bs := by
  rcases runMicro_cases u s with ⟨cs, -, hcs, hdone⟩ | ⟨-, -, hfail⟩ | ⟨-, f, hfault⟩
  · cases hread.symm.trans hcs
    exact Micro.done.inj (h.symm.trans hdone)
  · cases h.symm.trans hfail
  · cases h.symm.trans hfault

/-- The block with the register over its top four bytes reads as the seeded bytes. -/
theorem load0_acc_toNat {crc : Word32} (hlen : bs.length = 16) :
    (blockOf bs ^^^ (crc.setWidth 128 <<< 96)).toNat = be (seeded crc bs) := by
  have hcrc : (crc.setWidth 128 <<< 96 : Vec128).toNat = crc.toNat <<< 96 := by
    have := crc.isLt
    rw [BitVec.toNat_shiftLeft, BitVec.toNat_setWidth_of_le (by decide), Nat.shiftLeft_eq, Nat.mod_eq_of_lt (by omega)]
  rw [BitVec.toNat_xor, blockOf_toNat hlen.le, hcrc, be_seeded crc (by omega), hlen, Nat.xor_comm]

/-- Appending bytes to what a polynomial stands for. -/
theorem rem32_append {x n : Nat} (h : rem32 x = rem32 (be m)) (hn : 8 * bs.length = n) :
    rem32 (x <<< n ^^^ be bs) = rem32 (be (m ++ bs)) := by
  rw [be_append, hn, rem32_xor, rem32_xor, rem32_shift_congr h]

theorem oneLane_load0 (h : runMicro .load0 s = .done t) (hread : memRead s.mem s.ptr.toNat 16 = some bs) :
    OneLane t (seeded s.crc bs) := by
  obtain rfl := eq_microResult_of_read h hread
  exact ⟨rfl, congrArg rem32 (load0_acc_toNat (memRead_length hread))⟩

theorem oneLane_fold1 (h : runMicro .fold1 s = .done t) (hm : OneLane s m)
    (hread : memRead s.mem s.ptr.toNat 16 = some bs) : OneLane t (m ++ bs) := by
  obtain rfl := eq_microResult_of_read h hread
  obtain ⟨hcrc, hacc⟩ := hm
  have hlen := memRead_length hread
  exact ⟨hcrc, (fold1_stands s.acc0.value hlen).trans (rem32_append hacc (by rw [hlen]))⟩

theorem fourLane_loadK (h : runMicro .loadK s = .done t) (hm : OneLane s m)
    (hread : memRead s.mem s.ptr.toNat 48 = some bs) : FourLane t (m ++ bs) := by
  obtain rfl := eq_microResult_of_read h hread
  obtain ⟨hcrc, hacc⟩ := hm
  have hlen := memRead_length hread
  exact ⟨hcrc, (congrArg rem32 (loadK_stands hlen)).trans (rem32_append hacc (by rw [hlen]))⟩

theorem fourLane_fold4 (h : runMicro .fold4 s = .done t) (hm : FourLane s m)
    (hread : memRead s.mem s.ptr.toNat 64 = some bs) : FourLane t (m ++ bs) := by
  obtain rfl := eq_microResult_of_read h hread
  obtain ⟨hcrc, hacc⟩ := hm
  have hlen := memRead_length hread
  exact ⟨hcrc, (fold4_stands hlen).trans (rem32_append hacc (by rw [hlen]))⟩

theorem oneLane_collapse (h : runMicro .collapse s = .done t) (hm : FourLane s m) : OneLane t m := by
  obtain rfl := eq_microResult_of_read (bs := []) h rfl
  obtain ⟨hcrc, hacc⟩ := hm
  exact ⟨hcrc, (collapse_stands s []).trans hacc⟩

theorem crc_of_reduce (h : runMicro .reduce s = .done t) (hm : OneLane s m) : t.crc = rawRemainder m := by
  obtain rfl := eq_microResult_of_read (bs := []) h rfl
  obtain ⟨-, hacc⟩ := hm
  apply BitVec.eq_of_toNat_eq
  rw [rawRemainder, BitVec.toNat_ofNat, Nat.mod_eq_of_lt (rem32_lt _)]
  exact (reduce_rem s.acc0.value).trans (rem32_shift_congr hacc 32)

/-- Settles O53, one lemma per micro-operation. -/
theorem foldStepsKeepTheRepresentation : Obligations.FoldStepsKeepTheRepresentation := fun _ _ _ _ =>
  ⟨oneLane_load0, oneLane_fold1, fourLane_loadK, fourLane_fold4, oneLane_collapse, crc_of_reduce⟩

end Sys2Proof.Machine
end

section
/-! The sequencer's table and R177's program do the same: the rest of the program from each phase on, unrolled row by row
(spec/42_fold_engine.md R176, R177). -/

namespace Sys2Proof.Machine

variable {s t : State} {u : MicroOp}

/-! ## The rest of the program, phase by phase -/

/-- The last loop, with nothing after it. -/
def programTail1 (s : State) : Progress := (whileLen 1 .inj s).andThen .going

def programTail8 (s : State) : Progress := (whileLen 8 .step8 s).andThen programTail1

def programReduce (s : State) : Progress := (doMicro .reduce s).andThen programTail8

def programFold1 (s : State) : Progress := (whileLen 16 .fold1 s).andThen programReduce

def programCollapse (s : State) : Progress := (doMicro .collapse s).andThen programFold1

def programFold4 (s : State) : Progress := (whileLen 64 .fold4 s).andThen programCollapse

def programLoadK (s : State) : Progress := (doMicro .loadK s).andThen programFold4

def programLoad0 (s : State) : Progress :=
  (doMicro .load0 s).andThen fun t => if t.four then programLoadK t else programFold1 t

/-- The condition of the head's loop: `PTR` is not aligned and a byte is left. -/
def inHead (s : State) : Bool := decide (s.ptr.toNat % Config.blockBytes ≠ 0) && decide (1 ≤ s.len.toNat)

def programHead (s : State) : Progress :=
  (whileMicro inHead .inj s.len.toNat s).andThen fun t =>
    if Config.engageBytes ≤ t.len.toNat then programLoad0 t else programTail8 t

/-- The rest of R177's program from where the table stands in a phase. -/
def programFrom : Phase → State → Progress
  | .idle => .going
  | .head => programHead
  | .load0 => programLoad0
  | .loadK => programLoadK
  | .fold4 => programFold4
  | .collapse => programCollapse
  | .fold1 => programFold1
  | .reduce => programReduce
  | .tail8 => programTail8
  | .tail1 => programTail1

theorem Progress.andThen_assoc (p : Progress) (f g : State → Progress) :
    (p.andThen f).andThen g = p.andThen fun s => (f s).andThen g := by
  cases p <;> rfl

theorem Progress.andThen_going (p : Progress) : p.andThen .going = p := by
  cases p <;> rfl

/-- The two loops every command ends with. -/
theorem whileLen_andThen_tail (p : Progress) :
    (p.andThen (whileLen 8 .step8)).andThen (whileLen 1 .inj) = p.andThen programTail8 := by
  have htail1 : programTail1 = whileLen 1 .inj := funext fun s => Progress.andThen_going _
  rw [Progress.andThen_assoc, ← htail1]
  rfl

/-- The four-way phase, the single accumulator's loop and the reduction, then the tail. -/
theorem programFourWay_andThen (s : State) :
    (((programFourWay s).andThen (whileLen 16 .fold1)).andThen (doMicro .reduce)).andThen programTail8 =
      if s.four then programLoadK s else programFold1 s := by
  unfold programFourWay
  split
  · simp only [Progress.andThen_assoc]; rfl
  · exact Progress.andThen_assoc ..

/-- The whole program is the rest from its start row. -/
theorem programUpdate_eq (m : Mode) (s : State) : programUpdate m s = programFrom (startPhase m) s.forgetAccs := by
  cases m with
  | table => exact whileLen_andThen_tail _
  | fold =>
    have hload : ∀ t, ((((doMicro .load0 t).andThen programFourWay).andThen (whileLen 16 .fold1)).andThen
        (doMicro .reduce)).andThen programTail8 = programLoad0 t := fun t => by
      rw [Progress.andThen_assoc, Progress.andThen_assoc, Progress.andThen_assoc]
      simp only [← Progress.andThen_assoc, programFourWay_andThen]
      rfl
    calc programUpdate .fold s
      _ = (programFold s.forgetAccs).andThen programTail8 := whileLen_andThen_tail _
      _ = programHead s.forgetAccs := by
        refine (Progress.andThen_assoc ..).trans (congrArg _ (funext fun t => ?_))
        split
        · exact hload t
        · rfl

/-! ## One row of the program -/

/-- A micro-operation that completes shortens `LEN` by the bytes it reads. -/
theorem len_of_doMicro (h : doMicro u s = .going t) : t.len.toNat + u.readBytes = s.len.toNat := by
  unfold doMicro at h
  rcases runMicro_cases u s with ⟨bs, hready, -, hrun⟩ | ⟨-, -, hrun⟩ | ⟨-, f, hrun⟩
  · simp only [hrun] at h
    cases h
    have hle : u.readBytes ≤ s.len.toNat := Nat.le_trans (by cases u <;> decide) hready.len
    have hlt : u.readBytes < 2 ^ 64 := hle.trans_lt s.len.isLt
    rw [microResult_len, BitVec.toNat_sub_of_le, BitVec.toNat_ofNat, Nat.mod_eq_of_lt hlt, Nat.sub_add_cancel hle]
    rwa [BitVec.le_def, BitVec.toNat_ofNat, Nat.mod_eq_of_lt hlt]
  · simp only [hrun] at h
    cases h
  · simp only [hrun] at h
    cases h

theorem whileMicro_of_not {cond : State → Bool} (hc : cond s = false) (n : Nat) : whileMicro cond u n s = .going s := by
  cases n <;> simp [whileMicro, hc]

section While

variable {cond : State → Bool} (hcond : ∀ s, cond s = true → 1 ≤ s.len.toNat) (hreads : 1 ≤ u.readBytes)
include hcond hreads

/-- A loop that reads takes at most `LEN` turns, so fuel beyond them changes nothing. -/
theorem whileMicro_fuel {n k : Nat} (hn : s.len.toNat ≤ n) (hk : s.len.toNat ≤ k) :
    whileMicro cond u n s = whileMicro cond u k s := by
  induction n generalizing s k with
  | zero =>
    have hc : cond s = false := Bool.eq_false_iff.2 fun hc => absurd (hcond s hc) (by omega)
    rw [whileMicro_of_not hc, whileMicro_of_not hc]
  | succ n ih =>
    cases hc : cond s with
    | false => rw [whileMicro_of_not hc, whileMicro_of_not hc]
    | true =>
      obtain ⟨k, rfl⟩ : ∃ j, k = j + 1 := Nat.exists_eq_succ_of_ne_zero (by have := hcond s hc; omega)
      simp only [whileMicro, hc, if_true]
      cases hturn : doMicro u s with
      | going t =>
        have hlen := len_of_doMicro hturn
        exact ih (by omega) (by omega)
      | ended => rfl
      | stopped => rfl

/-- A loop that reads is one turn, then the same loop. -/
theorem whileMicro_unroll (s : State) : whileMicro cond u s.len.toNat s =
    if cond s then (doMicro u s).andThen fun t => whileMicro cond u t.len.toNat t else .going s := by
  cases hc : cond s with
  | false => exact whileMicro_of_not hc _
  | true =>
    obtain ⟨n, hn⟩ : ∃ n, s.len.toNat = n + 1 := Nat.exists_eq_succ_of_ne_zero (by have := hcond s hc; omega)
    simp only [hn, whileMicro, hc, if_true]
    cases hturn : doMicro u s with
    | going t =>
      have hlen := len_of_doMicro hturn
      exact whileMicro_fuel hcond hreads (by omega) (Nat.le_refl _)
    | ended => rfl
    | stopped => rfl

/-- A loop and what follows it: one turn and then the same, or what follows. -/
theorem whileMicro_andThen (f : State → Progress) (s : State) : (whileMicro cond u s.len.toNat s).andThen f =
    if cond s then (doMicro u s).andThen fun t => (whileMicro cond u t.len.toNat t).andThen f else f s := by
  rw [whileMicro_unroll hcond hreads]
  split
  · exact Progress.andThen_assoc ..
  · rfl

end While

/-- What the program does from a phase on when the table takes a row there: the row's micro-operation, then the rest from the
row's next phase. -/
def rowThen (row : SeqRow) (s : State) : Progress :=
  match row.micro with
  | none => programFrom (row.next s) s
  | some u => (doMicro u s).andThen fun t => programFrom (row.next t) t

/-- A phase that loops while `LEN` is enough and then moves on. -/
theorem programFrom_of_loop {p q : Phase} {k : Nat} (hk : 1 ≤ k) (hreads : 1 ≤ u.readBytes)
    (hp : ∀ s, programFrom p s = (whileLen k u s).andThen (programFrom q)) (s : State) :
    programFrom p s = rowThen (if k ≤ s.len.toNat then ⟨some u, fun _ => p⟩ else ⟨none, fun _ => q⟩) s := by
  have hcond : ∀ t : State, decide (k ≤ t.len.toNat) = true → 1 ≤ t.len.toNat := fun t ht =>
    hk.trans (of_decide_eq_true ht)
  have hturn := whileMicro_andThen hcond hreads (programFrom q) s
  rw [hp, whileLen, hturn]
  by_cases hl : k ≤ s.len.toNat
  · rw [if_pos (decide_eq_true hl), if_pos hl]
    exact congrArg _ (funext fun t => (hp t).symm)
  · rw [if_neg (by simpa using hl), if_neg hl]
    rfl

/-- The head's loop, and the choice after it. -/
theorem programHead_eq_rowThen (s : State) : programHead s = rowThen (seqRow (s.setPhase .head)) s := by
  have hcond : ∀ t : State, inHead t = true → 1 ≤ t.len.toNat := fun t ht => by
    simpa using (Bool.and_eq_true_iff.1 ht).2
  have hrow : seqRow (s.setPhase .head) =
      if inHead s then ⟨some .inj, fun _ => .head⟩
      else if Config.engageBytes ≤ s.len.toNat then ⟨none, fun _ => .load0⟩ else ⟨none, fun _ => .tail8⟩ :=
    if_congr (by simp [inHead]) rfl rfl
  rw [hrow, programHead, whileMicro_andThen hcond (by decide)]
  split
  · rfl
  · split <;> rfl

/-- The program follows the table, row by row. -/
theorem programFrom_eq_rowThen {p : Phase} (hp : p ≠ .idle) (s : State) :
    programFrom p s = rowThen (seqRow (s.setPhase p)) s := by
  cases p with
  | idle => exact absurd rfl hp
  | head => exact programHead_eq_rowThen s
  | load0 =>
    exact congrArg (doMicro .load0 s).andThen
      (funext fun t => (apply_ite (fun q => programFrom q t) (t.four = true) .loadK .fold1).symm)
  | loadK | collapse | reduce => rfl
  | fold4 => exact programFrom_of_loop (q := .collapse) (by decide) (by decide) (fun _ => rfl) s
  | fold1 => exact programFrom_of_loop (q := .reduce) (by decide) (by decide) (fun _ => rfl) s
  | tail8 => exact programFrom_of_loop (q := .tail1) (by decide) (by decide) (fun _ => rfl) s
  | tail1 => exact programFrom_of_loop (q := .idle) (by decide) (by decide) (fun _ => rfl) s

/-! ## A run of the table -/

/-- A micro-operation does not look at `PHASE`, unless it stops. -/
theorem runMicro_setPhase (u : MicroOp) (s : State) (p : Phase) :
    (∃ t, runMicro u (s.setPhase p) = .done (t.setPhase p) ∧ runMicro u s = .done t) ∨
    (runMicro u (s.setPhase p) = .fail .buserr ∧ runMicro u s = .fail .buserr) ∨
    ∃ f, runMicro u (s.setPhase p) = .fault f := by
  rcases runMicro_cases u (s.setPhase p) with ⟨bs, hready, hread, hrun⟩ | ⟨hready, hread, hrun⟩ | ⟨-, hfault⟩
  · have hs : Ready u s := hready.setPhase s.phase
    exact .inl ⟨microResult u s bs, by rw [hrun, microResult_setPhase], runMicro_done hs hread⟩
  · have hs : Ready u s := hready.setPhase s.phase
    exact .inr (.inl ⟨hrun, runMicro_fail hs hread⟩)
  · exact .inr (.inr hfault)

/-- The next phase of a row does not turn on `PHASE`: at most on `FOUR`. -/
theorem seqRow_next_setPhase (s t : State) (p : Phase) : (seqRow s).next (t.setPhase p) = (seqRow s).next t := by
  unfold seqRow
  repeat' split
  all_goals rfl

/-- A row of the table and the program's statement for it: both go on from one state, both fail, or the table stops. -/
theorem seqStep_setPhase (s : State) (p : Phase) :
    (∃ t q, seqStep (s.setPhase p) = .next (t.setPhase q) ∧ rowThen (seqRow (s.setPhase p)) s = programFrom q t) ∨
    (seqStep (s.setPhase p) = .next (s.fail .buserr) ∧ rowThen (seqRow (s.setPhase p)) s = .ended (s.fail .buserr)) ∨
    ∃ f, seqStep (s.setPhase p) = .fault f := by
  have hnext := seqRow_next_setPhase (s.setPhase p)
  unfold seqStep rowThen
  cases (seqRow (s.setPhase p)).micro with
  | none => exact .inl ⟨s, _, by rw [hnext]; rfl, rfl⟩
  | some u =>
    rcases runMicro_setPhase u s p with ⟨t, hrun, hprogram⟩ | ⟨hrun, hprogram⟩ | ⟨f, hrun⟩
    · exact .inl ⟨t, _, by simp only [hrun, hnext]; rfl, by simp only [doMicro, hprogram]; rfl⟩
    · exact .inr (.inl ⟨by simp only [hrun]; rfl, by simp only [doMicro, hprogram]; rfl⟩)
    · exact .inr (.inr ⟨f, by simp only [hrun]⟩)

/-- A run of the table that answers a state answers the program's. -/
theorem programFrom_outcome_of_runSeq {n : Nat} {s t : State} {p : Phase} (h : runSeq n (s.setPhase p) = .next t) :
    (programFrom p s).outcome = .next t := by
  obtain rfl | hp := eq_or_ne p .idle
  · rwa [runSeq_of_idle rfl] at h
  cases n with
  | zero => cases (if_neg hp).symm.trans h
  | succ n =>
    have hrun := (if_neg hp).symm.trans h
    rw [programFrom_eq_rowThen hp]
    rcases seqStep_setPhase s p with ⟨v, q, hrow, hprogram⟩ | ⟨hrow, hprogram⟩ | ⟨f, hrow⟩
    · rw [hrow] at hrun
      rw [hprogram]
      exact programFrom_outcome_of_runSeq (n := n) (s := v) (p := q) hrun
    · rw [hrow] at hrun
      rw [hprogram]
      exact (runSeq_of_idle rfl n).symm.trans hrun
    · rw [hrow] at hrun
      cases hrun

/-- Settles O34: every update answers a state, and the program follows its rows. -/
theorem sequencerRunsTheProgram : Obligations.SequencerRunsTheProgram := by
  intro m s
  obtain ⟨t, hrun, -⟩ := runUpdate_frame m s
  rw [programUpdate_eq, programFrom_outcome_of_runSeq hrun, hrun]

end Sys2Proof.Machine
end

section
/-! No command and no step between commands stops (spec/42_fold_engine.md R176, R178, spec/43_commands.md R200, R202). -/

namespace Sys2Proof.Machine

variable {s : State}

/-- An outcome that is a state between commands. -/
def NextIdle (o : Host.Outcome State Fault Refusal) : Prop := ∃ t, o = .next t ∧ t.phase = .idle

section Idle

variable (hidle : s.phase = .idle)
include hidle

/-- A command started between commands runs to its end (R176, R200). -/
theorem exec_nextIdle (i : Instr) : NextIdle (exec i s) := by
  obtain ⟨t, ht⟩ := exec_next i s
  exact ⟨t, ht, (exec_frame ht).phase hidle⟩

theorem executeWord_nextIdle (w : Word32) : NextIdle (executeWord w s) := by
  rcases executeWord_cases w s with hill | hignored | ⟨i, -, hi⟩
  · exact ⟨_, hill, rfl⟩
  · exact ⟨_, hignored, hidle⟩
  · rw [hi]
    exact exec_nextIdle hidle i

theorem writeReg_nextIdle (r : Reg) (v : Word64) : NextIdle (writeReg r v s) := by
  cases r with
  | cmd => exact executeWord_nextIdle hidle _
  | crc => exact ⟨_, rfl, by split <;> exact hidle⟩
  | status | ptr | len | total | result | cap | k1lo | k1hi | k4lo | k4hi | mu | poly => exact ⟨_, rfl, hidle⟩

theorem hostWrite_nextIdle (off size : Nat) (v : Word64) : NextIdle (hostWrite off size v s) := by
  unfold hostWrite
  split
  · exact ⟨_, rfl, hidle⟩
  · obtain ⟨t, ht, hphase⟩ := writeReg_nextIdle hidle _ v
    exact ⟨t.setReply .ok, by rw [ht]; rfl, hphase⟩

theorem hostEvent_nextIdle (e : HostEvent) : NextIdle (hostEvent e s) := by
  cases e with
  | write off size v => exact hostWrite_nextIdle hidle off size v
  | read off size =>
    obtain ⟨r, hr⟩ := hostRead_eq off size s
    exact ⟨s.setReply r, congrArg Host.Outcome.next hr, hidle⟩
  | reset straps => exact ⟨_, rfl, rfl⟩
  | store addr b => exact ⟨_, rfl, hidle⟩

theorem takeEvent_nextIdle : NextIdle (takeEvent s) := by
  unfold takeEvent
  split
  · exact ⟨s, rfl, hidle⟩
  · rename_i e rest _
    exact hostEvent_nextIdle (s := s.setInbox rest) hidle e

end Idle

/-- Settles O33: commands by `exec_next`, which rests on the sequencer's invariant and measure; a step between commands takes an
event, and every event completes. -/
theorem commandsAlwaysComplete : Obligations.CommandsAlwaysComplete :=
  ⟨exec_next, fun _ hidle => (step_of_idle hidle).symm ▸ takeEvent_nextIdle hidle⟩

/-! ## Single rows -/

/-- A run of the sequencer is that many single steps of the machine, or fewer (log 10). -/
theorem exists_runSteps_eq_of_runSeq {n : Nat} {s t : State} (h : runSeq n s = .next t) :
    ∃ k ≤ n, runSteps k s = .next t := by
  induction n generalizing s with
  | zero =>
    unfold runSeq at h
    split at h
    · exact ⟨0, Nat.le_refl 0, h⟩
    · cases h
  | succ n ih =>
    by_cases hidle : s.phase = .idle
    · rw [runSeq_of_idle hidle] at h
      exact ⟨0, Nat.zero_le _, h⟩
    · simp only [runSeq, if_neg hidle] at h
      split at h
      case h_1 u hrow =>
        obtain ⟨k, hk, hsteps⟩ := ih h
        exact ⟨k + 1, Nat.succ_le_succ hk, (runSteps_succ k ((step_of_busy hidle).trans hrow)).trans hsteps⟩
      case h_2 => cases h
      case h_3 => cases h

/-- Settles O35: every update answers a next state, and its rows are steps. -/
theorem microStepsReachTheCommand : Obligations.MicroStepsReachTheCommand := by
  intro m s
  obtain ⟨t, hrun, -⟩ := runUpdate_frame m s
  obtain ⟨k, hk, hsteps⟩ := exists_runSteps_eq_of_runSeq hrun
  exact ⟨k, hk, hsteps.trans hrun.symm⟩

/-! ## The two engines -/

/-- Settles O54: each mode injects the whole range, or ends in `BUSERR` where it cannot be read. -/
theorem foldAgreesWithTable : Obligations.FoldAgreesWithTable := by
  intro s hfit
  cases hread : memRead s.mem s.ptr.toNat s.len.toNat with
  | none =>
    obtain ⟨t, -, -, ht, -⟩ := runUpdate_buserr (m := .fold) hfit hread
    obtain ⟨u, -, -, hu, -⟩ := runUpdate_buserr (m := .table) hfit hread
    exact ⟨_, _, ht, hu, nofun, fun _ => ⟨rfl, rfl, rfl, rfl⟩⟩
  | some bs =>
    obtain ⟨t, ht, hft, -, htlen, htcrc⟩ := runUpdate_done (m := .fold) hfit hread
    obtain ⟨u, hu, hfu, -, hulen, hucrc⟩ := runUpdate_done (m := .table) hfit hread
    refine ⟨t, u, ht, hu, fun cs hcs => ?_, nofun⟩
    cases hcs
    exact ⟨htcrc, hucrc, hft.ptr.trans hfu.ptr.symm, htlen.trans hulen.symm, hft.stream, hfu.stream⟩

end Sys2Proof.Machine
end

section
/-! The commands one by one: their words, their checks and their end states (spec/43_commands.md R204 to R210, R215). -/

namespace Sys2Proof.Machine

variable {s : State}

/-! ## Words -/

/-- `INJB` carries its immediate above its opcode (R101). -/
theorem encode_injb (b : Byte) : encode (.injb b) = (b.setWidth 32 <<< 8) ||| 0x02 := by
  have hword : encode (.injb b) = (((0 : BitVec 16) ++ b) ++ (2 : BitVec 8)).setWidth 32 := (BitVec.setWidth_eq _).symm
  have hhigh : (0 : BitVec 16).setWidth 32 <<< (8 + 8) = 0 := by decide
  rw [hword, BitVec.setWidth_append_append_eq_shiftLeft_setWidth_or, hhigh]
  exact congrArg (· ||| 0x02) BitVec.zero_or

/-! ## The dispatcher -/

/-- The first use looks at the capability flags (R203). -/
theorem resolvedMode_sel_of_unresolved (h : s.sel = .unresolved) :
    s.resolvedMode.sel = if s.cap.clmul = true ∧ s.cap.vec = true then Sel.fold else Sel.table := by
  have hcap : s.resolvedMode = if s.cap.clmul && s.cap.vec then Mode.fold else Mode.table := by
    rw [State.resolvedMode, h]
    rfl
  rw [hcap, apply_ite Mode.sel]
  exact if_congr (Bool.and_eq_true_iff) rfl rfl

/-- A later use keeps the memo (R203). -/
theorem resolvedMode_sel_of_resolved (h : s.sel ≠ .unresolved) : s.resolvedMode.sel = s.sel := by
  rw [State.resolvedMode]
  cases hsel : s.sel with
  | unresolved => exact absurd hsel h
  | fold | table => rfl

/-! ## Checks -/

/-- The commands that need a stream still open (R246). -/
theorem exec_of_finalized {i : Instr} (hi : raisesBadState i = true) (hs : s.stream = .finalized) :
    exec i s = .next (s.fail .badstate) := by
  have hopen : s.stream ≠ .failed := by rw [hs]; decide
  have hcheck : s.isFinalized = true := decide_eq_true hs
  cases i with
  | nop | init => cases hi
  | injb | update | updTable | updFold | finalize => exact (unlessFailed_of_ne hopen _).trans (if_pos hcheck)

/-- In a stream that takes bytes, `INJB` has one check left. -/
theorem exec_injb (ht : s.takesBytes = true) (b : Byte) : exec (.injb b) s =
    if s.overflows 1 then raise s .overflow else .next ((s.setCrc (updateOneByte s.crc b)).count 1) := by
  have hchecks : ¬ s.isFinalized = true := Bool.eq_false_iff.1 (isFinalized_of_takesBytes ht)
  exact (unlessFailed_of_ne (ne_failed_of_takesBytes ht) _).trans (if_neg hchecks)

theorem exec_injb_fits (ht : s.takesBytes = true) (hfits : s.total.toNat + 1 ≤ 2 ^ 64 - 1) (b : Byte) :
    exec (.injb b) s = .next ((s.setCrc (updateOneByte s.crc b)).count 1) := by
  rw [exec_injb ht, not_overflows.2 hfits]
  rfl

theorem exec_injb_overflow (ht : s.takesBytes = true) (hover : s.total.toNat + 1 > 2 ^ 64 - 1) (b : Byte) :
    exec (.injb b) s = .next (s.fail .overflow) := by
  have hcheck : s.overflows 1 = true := decide_eq_true hover
  rw [exec_injb ht, hcheck]
  rfl

/-! ## The byte count of `FINAL` -/

/-- Dropping the low byte drops eight bits. -/
theorem bitlength_div_256 (n : Nat) : bitlength (n / 256) = bitlength n - 8 := by
  refine eq_of_forall_ge_iff fun k => ?_
  rw [bitlength_le_iff, Nat.sub_le_iff_le_add, bitlength_le_iff, Nat.div_lt_iff_lt_mul (by decide), Nat.pow_add]

/-- The minimal byte string has `⌈bitlength / 8⌉` bytes (R210). -/
theorem length_lengthBytesLoop {k n : Nat} (h : n < 256 ^ k) :
    (lengthBytesLoop k n).length = (bitlength n + 7) / 8 := by
  induction k generalizing n with
  | zero =>
    obtain rfl : n = 0 := by simpa using h
    rfl
  | succ k ih =>
    by_cases hn : n = 0
    · subst hn
      rfl
    · have hpos : bitlength n ≠ 0 := mt bitlength_eq_zero.1 hn
      have hrest : n / 256 < 256 ^ k := Nat.div_lt_of_lt_mul (by rwa [Nat.pow_succ'] at h)
      rw [lengthBytesLoop, if_neg hn, List.length_cons, ih hrest, bitlength_div_256]
      omega

/-- Fewer bytes than bits are needed, so the fuel of `lengthBytes` is enough. -/
theorem lt_256_pow_bitlength (n : Nat) : n < 256 ^ bitlength n :=
  (lt_two_pow_bitlength n).trans_le (Nat.pow_le_pow_left (by decide) _)

/-! ## The statements of the commands -/

/-- Settles O21. -/
theorem nopChangesNothing : Obligations.NopChangesNothing := ⟨by decide, fun _ => rfl⟩

/-- Settles O22: `INIT` has no check before `State.startStream`. -/
theorem initStartsAStream : Obligations.InitStartsAStream := ⟨by decide, fun _ => rfl⟩

/-- Settles O23, a lemma per clause. -/
theorem injbInjectsOneByte : Obligations.InjbInjectsOneByte := fun _ b =>
  ⟨encode_injb b, exec_of_finalized rfl, fun ht hover => exec_injb_overflow ht hover b,
    fun ht hfits => exec_injb_fits ht hfits b⟩

/-- Settles O24: `exec_updateEnd`, with `SEL` as the dispatcher leaves it. -/
theorem updateInjectsTheBuffer : Obligations.UpdateInjectsTheBuffer := by
  intro s bs ht hfits hread
  obtain ⟨t, hexec, hend⟩ := exec_updateEnd (i := .update) rfl ht hfits nofun hread
  refine ⟨t, hexec, ?_⟩
  rw [selAfter] at hend
  cases hsel : s.sel with
  | unresolved => rwa [resolvedMode_sel_of_unresolved hsel] at hend
  | fold | table => rwa [resolvedMode_sel_of_resolved (by rw [hsel]; decide), hsel] at hend

/-- Settles O25, by `exec_updateEnd`. -/
theorem updTableInjectsTheBuffer : Obligations.UpdTableInjectsTheBuffer := fun _ _ ht hfits hread =>
  exec_updateEnd (i := .updTable) rfl ht hfits nofun hread

/-- Settles O26, by `exec_updateEnd` on a device that can fold. -/
theorem updFoldInjectsTheBuffer : Obligations.UpdFoldInjectsTheBuffer := fun _ _ ht hclmul hvec hfits hread =>
  exec_updateEnd (i := .updFold) rfl ht hfits (fun _ => ⟨hclmul, hvec⟩) hread

/-- Settles O27: the fold by `foldLength_eq`, the byte string by `le_lengthBytesLoop` and `length_lengthBytesLoop`. -/
theorem finalFoldsTheByteCount : Obligations.FinalFoldsTheByteCount := by
  refine ⟨by decide, fun _ => exec_of_finalized rfl, fun s ht => ?_, fun n => ?_⟩
  · rw [exec_finalize ht, foldLength_eq, ← foldl_updateOneByte]
    rfl
  · exact ⟨le_lengthBytesLoop _ n (lt_256_pow_bitlength n), length_lengthBytesLoop (lt_256_pow_bitlength n)⟩

/-- Settles O57: `FINAL` right after `INIT` folds no byte; after a zero byte, which leaves `CRC` 0, it folds the count 1. -/
theorem knownChecksums : Obligations.KnownChecksums := by
  refine fun s => ⟨⟨_, _, rfl, exec_finalize rfl, rfl, rfl, ?_⟩, ?_⟩
  · exact (by decide : (~~~ foldLength 0 0).toNat = 4294967295)
  · have hfits : s.startStream.total.toNat + 1 ≤ 2 ^ 64 - 1 := (by decide : (0 : Word64).toNat + 1 ≤ 2 ^ 64 - 1)
    refine ⟨_, _, _, rfl, exec_injb_fits rfl hfits 0x00, exec_finalize rfl, rfl, ?_⟩
    exact (by decide : (~~~ foldLength 1 (updateOneByte 0 0x00)).toNat = 4215202376)

end Sys2Proof.Machine
end

section
/-! What commands and host events do to `STREAM`, `SEL` and `CAP` (spec/43_commands.md R201, R203). -/

namespace Sys2Proof.Machine

variable {i : Instr} {s t : State}

/-! ## The stream's edges -/

/-- The edge of a `Fail`, from the states in which the command has a check. -/
theorem streamEdge_failed {a : Stream} (hnop : i ≠ .nop) (hinit : i ≠ .init) (hfinal : i = .finalize → a = .finalized) :
    streamEdge a i .failed = true := by
  cases i with
  | nop => exact absurd rfl hnop
  | init => exact absurd rfl hinit
  | finalize => rw [hfinal rfl]; rfl
  | injb | update | updTable | updFold => cases a <;> rfl

/-- In `Failed` a command other than `INIT` stays there. -/
theorem streamEdge_of_failed (hinit : i ≠ .init) : streamEdge .failed i .failed = true := by
  cases i with
  | init => exact absurd rfl hinit
  | nop | injb | update | updTable | updFold | finalize => rfl

/-- An accepted update ends in `Running` or, at a byte that cannot be read, in `Failed`. -/
theorem streamEdge_of_updateMode {m : Mode} {a b : Stream} (hmode : updateMode i s = some m)
    (ha : a = .start ∨ a = .running) (hb : b = .running ∨ b = .failed) : streamEdge a i b = true := by
  cases i with
  | nop | init | injb | finalize => cases hmode
  | update | updTable | updFold => rcases ha with rfl | rfl <;> rcases hb with rfl | rfl <;> rfl

theorem runUpdate_accepted_stream_sel {m : Mode} (hrun : runUpdate m (accepted i s) = .next t) :
    (t.stream = .running ∨ t.stream = .failed) ∧ t.sel = selAfter i s := by
  obtain ⟨u, hu, -, -, -, hsel, -, -, -, -, hend, -⟩ := runUpdate_frame m (accepted i s)
  obtain rfl : u = t := Host.Outcome.next.inj (hu.symm.trans hrun)
  exact ⟨hend.imp And.left And.left, hsel⟩

/-- Settles O28, an edge per way a command can end. -/
theorem streamFollowsItsEdges : Obligations.StreamFollowsItsEdges := by
  intro i s t hexec
  cases exec_cases hexec with
  | ignored hwhy hinit =>
    rcases hwhy with hs | rfl
    · rw [hs]; exact streamEdge_of_failed hinit
    · exact decide_eq_true rfl
  | started hi => subst hi; rfl
  | raised c _ hnop hinit hfinal => exact streamEdge_failed hnop hinit hfinal
  | injected b hi ht => subst hi; rcases takesBytes_cases ht with hs | hs <;> rw [hs] <;> rfl
  | finished hi ht => subst hi; rcases takesBytes_cases ht with hs | hs <;> rw [hs] <;> rfl
  | updated m _ hmode ht _ _ hrun =>
    exact streamEdge_of_updateMode hmode (takesBytes_cases ht) (runUpdate_accepted_stream_sel hrun).1

/-! ## The dispatcher -/

/-- From `s`, which accepts an `UPDATE`, to `t` the dispatcher is resolved to what the capability flags say (R203). -/
structure Resolves (s t : State) : Prop where
  unresolved : s.sel = .unresolved
  sel : t.sel = if s.cap.clmul = true ∧ s.cap.vec = true then .fold else .table
  takesBytes : s.takesBytes = true
  fits : s.fits

/-- `CAP` stays, and `SEL` stays or is resolved; `p` tells the event that may resolve it. -/
def ResolvesOnlyIf (p : Prop) (s t : State) : Prop := t.cap = s.cap ∧ (t.sel = s.sel ∨ Resolves s t ∧ p)

theorem ResolvesOnlyIf.mono {p q : Prop} (h : ResolvesOnlyIf p s t) (hpq : p → q) : ResolvesOnlyIf q s t :=
  h.imp_right (Or.imp_right (And.imp_right hpq))

theorem Mode.sel_ne_unresolved (m : Mode) : m.sel ≠ .unresolved := by cases m <;> decide

/-- Only an accepted `UPDATE` writes `SEL`, and a later one writes what it holds. -/
theorem exec_resolves (h : exec i s = .next t) : ResolvesOnlyIf (i = .update) s t := by
  refine ⟨(exec_frame h).cap, ?_⟩
  by_cases hi : i = .update
  · subst hi
    cases exec_cases h with
    | ignored | raised => exact .inl rfl
    | started hi => cases hi
    | injected b hi => cases hi
    | finished hi => cases hi
    | updated m _ _ ht hfits _ hrun =>
      have hsel : t.sel = s.resolvedMode.sel := (runUpdate_accepted_stream_sel hrun).2
      by_cases hu : s.sel = .unresolved
      · exact .inr ⟨⟨hu, hsel.trans (resolvedMode_sel_of_unresolved hu), ht, hfits⟩, rfl⟩
      · exact .inl (hsel.trans (resolvedMode_sel_of_resolved hu))
  · exact .inl ((exec_frame h).sel hi)

theorem executeWord_resolves {w : Word32} (h : executeWord w s = .next t) :
    ResolvesOnlyIf (decode w = .ok .update) s t := by
  rcases executeWord_cases w s with hill | hignored | ⟨i, hdecode, hi⟩
  · cases hill.symm.trans h; exact ⟨rfl, .inl rfl⟩
  · cases hignored.symm.trans h; exact ⟨rfl, .inl rfl⟩
  · exact (exec_resolves (hi.symm.trans h)).mono fun hupdate => hupdate ▸ hdecode

theorem writeReg_resolves {r : Reg} {v : Word64} (h : writeReg r v s = .next t) :
    ResolvesOnlyIf (r = .cmd ∧ decode (low32 v) = .ok .update) s t := by
  cases r with
  | cmd => exact (executeWord_resolves h).mono fun hdecode => ⟨rfl, hdecode⟩
  | crc => cases h; split <;> exact ⟨rfl, .inl rfl⟩
  | ptr | len | status | total | result | cap | k1lo | k1hi | k4lo | k4hi | mu | poly => cases h; exact ⟨rfl, .inl rfl⟩

theorem hostWrite_resolves {off size : Nat} {v : Word64} (h : hostWrite off size v s = .next t) :
    ResolvesOnlyIf (off = 0x00 ∧ size = 8 ∧ decode (low32 v) = .ok .update) s t := by
  unfold hostWrite at h
  split at h
  · cases h; exact ⟨rfl, .inl rfl⟩
  · rename_i r hselect
    obtain ⟨u, hu, rfl⟩ := thenReply_next h
    obtain ⟨rfl, rfl⟩ := selectReg_some hselect
    obtain ⟨hcap, hsel⟩ := writeReg_resolves hu
    refine ⟨hcap, hsel.imp id fun ⟨hr, hcmd, hdecode⟩ => ⟨{ hr with }, ?_⟩⟩
    exact ⟨congrArg Reg.offset hcmd, rfl, hdecode⟩

theorem hostEvent_resolves {e : HostEvent} (h : hostEvent e s = .next t) (hreset : ∀ straps, e ≠ .reset straps) :
    ResolvesOnlyIf (∃ v : Word64, e = .write 0x00 8 v ∧ decode (v.setWidth 32) = .ok .update) s t := by
  cases e with
  | write off size v =>
    refine (hostWrite_resolves h).mono ?_
    rintro ⟨rfl, rfl, hdecode⟩
    exact ⟨v, rfl, hdecode⟩
  | read off size =>
    obtain ⟨r, hr⟩ := hostRead_eq off size s
    cases h
    rw [hr]
    exact ⟨rfl, .inl rfl⟩
  | reset straps => exact absurd rfl (hreset straps)
  | store addr b => cases h; exact ⟨rfl, .inl rfl⟩

/-- Settles O30: every event by `hostEvent_resolves`; an accepted `UPDATE` leaves a mode in `SEL`. -/
theorem dispatcherResolvesOnce : Obligations.DispatcherResolvesOnce := by
  refine ⟨fun e s t hevent hreset => ?_, fun s t ht hfits hexec => ?_⟩
  · obtain ⟨hcap, hsel⟩ := hostEvent_resolves hevent hreset
    exact ⟨hcap, hsel.imp_right fun ⟨hr, hword⟩ => ⟨hr.unresolved, hr.sel, hr.takesBytes, hr.fits, hword⟩⟩
  · have hrun := (exec_accepted (i := .update) rfl ht hfits nofun).symm.trans hexec
    rw [(runUpdate_accepted_stream_sel hrun).2]
    exact Mode.sel_ne_unresolved _

end Sys2Proof.Machine
end

section
/-! Host events that inject a message, one after another, and the checksum of the stream they make (spec/43_commands.md R212,
R213). -/

namespace Sys2Proof.Machine

variable {s t u : State} {d : Cursor} {bs cs : List Byte}

/-! ## Bytes taken by the stream -/

/-- From `s` to `t`, a state between commands, the stream takes the bytes `bs`. -/
structure Injects (s : State) (bs : List Byte) (t : State) : Prop where
  crc : t.crc = updateBlock s.crc bs
  total : t.total.toNat = s.total.toNat + bs.length
  takesBytes : t.takesBytes = true
  idle : t.phase = .idle

theorem Injects.append (h : Injects s bs t) (k : Injects t cs u) : Injects s (bs ++ cs) u where
  crc := by rw [k.crc, h.crc, updateBlock_append]
  total := by rw [k.total, h.total, List.length_append, Nat.add_assoc]
  takesBytes := k.takesBytes
  idle := k.idle

/-- An event that injects `bs`, moves the cursor to `d` and leaves the rest of the queue. -/
def InjectsTo (s : State) (bs : List Byte) (d : Cursor) (o : Host.Outcome State Fault Refusal) : Prop :=
  ∃ t, o = .next t ∧ Injects s bs t ∧ t.cursor = d ∧ t.inbox = s.inbox

theorem InjectsTo.thenReply {o : Host.Outcome State Fault Refusal} (h : InjectsTo s bs d o) (r : Reply) :
    InjectsTo s bs d (thenReply r o) := by
  obtain ⟨t, rfl, ht, hcursor, hinbox⟩ := h
  exact ⟨t.setReply r, rfl, { ht with }, hcursor, hinbox⟩

/-! ## Events -/

section Event

variable (ht : s.takesBytes = true) (hidle : s.phase = .idle)
include ht hidle

theorem Injects.nil : Injects s [] s := ⟨(updateBlock_nil _).symm, rfl, ht, hidle⟩

/-- A response injects nothing. -/
theorem injectsTo_setReply (r : Reply) : InjectsTo s [] s.cursor (.next (s.setReply r)) :=
  InjectsTo.thenReply ⟨s, rfl, .nil ht hidle, rfl, rfl⟩ r

variable (hcount : s.total.toNat + bs.length ≤ 2 ^ 64 - 1)
include hcount

omit hidle in
theorem exec_update_injects {i : Instr} {m : Mode} (hmode : updateMode i s = some m) (hcap : hasCapability i s)
    (h : s.cursor.update = some (bs, d)) : InjectsTo s bs d (exec i s) := by
  obtain ⟨hrange, hbytes⟩ := Option.ite_none_right_eq_some.1 h
  obtain ⟨bs, hread, heq⟩ := Option.map_eq_some_iff.1 hbytes
  cases heq
  have hlen : bs.length = s.len.toNat := memRead_length hread
  obtain ⟨t, hexec, hend⟩ := exec_updateEnd hmode ht ⟨hlen ▸ hcount, hrange⟩ hcap hread
  have htotal : t.total.toNat = s.total.toNat + bs.length := by
    rw [hend.total, ← hlen, BitVec.toNat_ofNat, Nat.mod_eq_of_lt (by omega)]
  have hcursor : t.cursor = { s.cursor with ptr := s.ptr + s.len, len := 0 } := by
    rw [State.cursor, hend.cap, hend.ptr, hend.len, (exec_frame hexec).mem, BitVec.add_def]
    rfl
  exact ⟨t, hexec, ⟨hend.crc, htotal, by simp [State.takesBytes, hend.stream], hend.phase⟩, hcursor, hend.inbox⟩

theorem exec_injects {i : Instr} (h : s.cursor.command i = some (bs, d)) : InjectsTo s bs d (exec i s) := by
  cases i with
  | init | finalize => cases h
  | nop => cases h; exact ⟨s, rfl, .nil ht hidle, rfl, rfl⟩
  | injb b =>
    cases h
    have htotal : (s.total + 1).toNat = s.total.toNat + 1 := BitVec.toNat_add_of_lt (Nat.lt_succ_of_le hcount)
    exact ⟨_, exec_injb_fits ht hcount b, ⟨(updateBlock_one _ _).symm, htotal, rfl, hidle⟩, rfl, rfl⟩
  | update => exact exec_update_injects ht hcount rfl nofun h
  | updTable => exact exec_update_injects ht hcount rfl nofun h
  | updFold =>
    obtain ⟨hcap, hupdate⟩ := Option.ite_none_right_eq_some.1 h
    exact exec_update_injects ht hcount rfl (fun _ => Bool.and_eq_true_iff.1 hcap) hupdate

theorem executeWord_injects {w : Word32} (h : s.cursor.word w = some (bs, d)) : InjectsTo s bs d (executeWord w s) := by
  unfold Cursor.word at h
  split at h
  · rename_i i hdecode
    rw [executeWord_of_decode hdecode]
    exact exec_injects ht hidle hcount h
  · cases h

theorem writeReg_injects {r : Reg} {v : Word64} (h : s.cursor.write r v = some (bs, d)) :
    InjectsTo s bs d (writeReg r v s) := by
  cases r with
  | cmd => exact executeWord_injects ht hidle hcount h
  | crc => cases h
  | ptr | len | status | total | result | cap | k1lo | k1hi | k4lo | k4hi | mu | poly =>
    cases h
    exact ⟨_, rfl, { Injects.nil ht hidle with }, rfl, rfl⟩

/-- Every event the cursor has an answer for injects the bytes it says. -/
theorem hostEvent_injects {e : HostEvent} (h : s.cursor.event e = some (bs, d)) : InjectsTo s bs d (hostEvent e s) := by
  cases e with
  | reset => cases h
  | store addr b => cases h; exact ⟨_, rfl, { Injects.nil ht hidle with }, rfl, rfl⟩
  | read off size =>
    cases h
    obtain ⟨r, hr⟩ := hostRead_eq off size s
    rw [hostEvent, hr]
    exact injectsTo_setReply ht hidle r
  | write off size v =>
    rw [Cursor.event] at h
    rw [hostEvent, hostWrite]
    cases hselect : selectReg off size with
    | none =>
      rw [hselect] at h
      cases h
      exact injectsTo_setReply ht hidle .error
    | some r =>
      rw [hselect] at h
      exact (writeReg_injects ht hidle hcount h).thenReply .ok

end Event

/-! ## Queues of events -/

/-- The events at the head of the queue inject their bytes, a step each, and leave the rest of it. -/
theorem runSteps_injects {q rest : List HostEvent} (ht : s.takesBytes = true) (hidle : s.phase = .idle)
    (hbytes : injectedBytes q s.cursor = some bs) (hcount : s.total.toNat + bs.length ≤ 2 ^ 64 - 1)
    (hinbox : s.inbox = q ++ rest) :
    ∃ t, runSteps q.length s = .next t ∧ Injects s bs t ∧ t.inbox = rest := by
  induction q generalizing s bs with
  | nil =>
    cases hbytes
    exact ⟨s, rfl, .nil ht hidle, hinbox⟩
  | cons e q ih =>
    unfold injectedBytes at hbytes
    split at hbytes
    case h_2 => cases hbytes
    case h_1 bs d hevent =>
      obtain ⟨cs, hrest, rfl⟩ := Option.map_eq_some_iff.1 hbytes
      rw [List.length_append, ← Nat.add_assoc] at hcount
      have hfirst : s.total.toNat + bs.length ≤ 2 ^ 64 - 1 := Nat.le_of_add_right_le hcount
      obtain ⟨t, hstep, hinj, rfl, hq⟩ := hostEvent_injects (s := s.setInbox (q ++ rest)) ht hidle hfirst hevent
      have htotal : t.total.toNat = s.total.toNat + bs.length := hinj.total
      obtain ⟨u, hrun, hinj', hrest⟩ := ih hinj.takesBytes hinj.idle hrest (htotal ▸ hcount) hq
      have hall := hinj.append hinj'
      exact ⟨u, (runSteps_succ _ ((step_of_inbox hidle hinbox).trans hstep)).trans hrun, { hall with }, hrest⟩

/-! ## The stream -/

/-- `INIT` and the events of a message. -/
theorem runSteps_stream {q rest : List HostEvent} (hidle : s.phase = .idle)
    (hbytes : injectedBytes q s.cursor = some bs) (hcount : bs.length ≤ 2 ^ 64 - 1)
    (hinbox : s.inbox = commandEvent (encode .init) :: (q ++ rest)) :
    ∃ t, runSteps (q.length + 1) s = .next t ∧ Injects s.startStream bs t ∧ t.inbox = rest := by
  let s₁ := (s.setInbox (q ++ rest)).startStream.setReply .ok
  have hinit : step s = .next s₁ := step_command hidle hinbox rfl
  obtain ⟨t, hrun, hinj, hrest⟩ := runSteps_injects (s := s₁) (q := q) rfl hidle hbytes ((Nat.zero_add _).trans_le hcount) rfl
  exact ⟨t, (runSteps_succ _ hinit).trans hrun, { hinj with }, hrest⟩

/-- The checksum goes on from the message's own remainder with the bytes of its length. -/
theorem posixCksum_eq (m : List Byte) : posixCksum m = ~~~ updateBlock (rawRemainder m) (lengthBytes m.length) := by
  rw [posixCksum, ← updateBlock_zero, updateBlock_append, updateBlock_zero]

/-- Settles O55: `INIT` and the message by `runSteps_stream`, then `FINAL` on the register it leaves. -/
theorem streamsComputeThePosixChecksum : Obligations.StreamsComputeThePosixChecksum := by
  intro s q rest bs hidle hbytes hcount hinbox
  obtain ⟨t, hrun, hinj, hrest⟩ := runSteps_stream hidle hbytes hcount hinbox
  have hcrc : t.crc = updateBlock 0 bs := hinj.crc
  have htotal : t.total.toNat = bs.length := hinj.total.trans (Nat.zero_add _)
  have hlast := runSteps_finalize_read hinj.idle hinj.takesBytes hrest rfl
  rw [hcrc, not_foldLength_updateBlock htotal.symm] at hlast
  refine ⟨⟨t, hrun, hcrc.trans (updateBlock_zero bs), htotal⟩, ?_⟩
  exact ⟨_, (runSteps_add _ 2 hrun).trans hlast, rfl, posixCksum_eq bs, htotal, rfl, rfl, rfl⟩

end Sys2Proof.Machine
end

section
/-! Fail entry, the checks of commands, the ignored words of `Failed`, and what an update leaves when a byte of its range cannot
be read (spec/60_exceptions.md R243 to R257). -/

namespace Sys2Proof.Machine

variable {s : State}

/-! ## Fail entry -/

/-- A micro-operation has one cause of failure (R249). -/
theorem code_of_runMicro_fail {u : MicroOp} {code : FailCode} (h : runMicro u s = .fail code) : code = .buserr := by
  rcases runMicro_cases u s with ⟨bs, -, -, hdone⟩ | ⟨-, -, hfail⟩ | ⟨-, f, hfault⟩
  · cases h.symm.trans hdone
  · exact Micro.fail.inj (h.symm.trans hfail)
  · cases h.symm.trans hfault

/-- A row whose micro-operation fails discards it (R243). -/
theorem seqStep_of_fail {u : MicroOp} {code : FailCode} (hrow : (seqRow s).micro = some u) (h : runMicro u s = .fail code) :
    seqStep s = .next (s.fail code) := by
  simp only [seqStep, hrow, h, raise]

/-- Settles O41: a failing row by `seqStep_of_fail`, its one code by `code_of_runMicro_fail`. -/
theorem failEntryDiscardsTheFailingStep : Obligations.FailEntryDiscardsTheFailingStep := by
  refine ⟨fun _ _ => rfl, fun s u code hrow hfail => ?_⟩
  obtain rfl := code_of_runMicro_fail hfail
  exact ⟨rfl, seqStep_of_fail hrow hfail⟩

/-! ## Command words in `Failed` and illegal words outside it -/

/-- The exact word of `INIT` starts a stream in every state, `Failed` included (R200 step 1). -/
theorem executeWord_of_eq_initWord {w : Word32} (hw : w = initWord) : executeWord w s = .next s.startStream :=
  executeWord_of_decode (i := .init) (by rw [hw]; decide) s

/-- Every other word is ignored in `Failed`, legal or not (R244). -/
theorem executeWord_of_failed {w : Word32} (hs : s.stream = .failed) (hw : w ≠ initWord) : executeWord w s = .next s := by
  simp only [executeWord, hs, if_neg hw]

/-- Outside `Failed` an illegal word is the cause `ILLCMD` (R245). -/
theorem executeWord_of_illegal {w : Word32} (hs : s.stream ≠ .failed) (hw : (CommandWord.ofWord w).legal = false) :
    executeWord w s = .next (s.fail .illcmd) := by
  cases hdecode : decode w with
  | ok i => exact absurd (exists_decode_eq_ok_iff.1 ⟨i, hdecode⟩) (Bool.eq_false_iff.1 hw)
  | error e =>
    cases hstream : s.stream with
    | failed => exact absurd hstream hs
    | start | running | finalized => simp only [executeWord, hstream, hdecode, raise]

/-- A write to `CMD` whose word has the effect `t`. -/
theorem hostWrite_cmd {v : Word64} {t : State} (h : executeWord (v.setWidth 32) s = .next t) :
    hostWrite 0x00 8 v s = .next (t.setReply .ok) :=
  hostWrite_of_next (r := .cmd) h

/-- Settles O9: the words by the lemmas above, the commands by `exec_of_failed`, and the three registers as everywhere (R21). -/
theorem commandWordsInAndOutOfFailed : Obligations.CommandWordsInAndOutOfFailed := by
  refine fun s => ⟨fun hs => ⟨fun v hv => ?_, fun v hv => ?_, fun i hi => ?_, fun v => ?_, fun v => ?_, fun v => ?_⟩,
    fun hs v hv => ?_⟩
  · exact hostWrite_cmd (executeWord_of_failed hs hv)
  · exact hostWrite_cmd (executeWord_of_eq_initWord hv)
  · exact exec_of_failed hs hi
  · exact hostWrite_of_next (r := .ptr) rfl
  · exact hostWrite_of_next (r := .len) rfl
  · obtain ⟨-, -, -, hclosed⟩ := crcHostAccess s v
    exact hclosed (by simp [State.takesBytes, hs])
  · exact hostWrite_cmd (executeWord_of_illegal hs hv)

/-! ## No checksum from a failed stream -/

/-- `RESULT` is read in `Finalized` alone (R25). -/
theorem finalized_of_hostRead_result {d : Word64} (h : (hostRead Reg.result.offset 8 s).reply = some (.data d)) :
    s.stream = .finalized ∧ d = s.result.setWidth 64 := by
  by_cases hs : s.stream = .finalized
  · rw [hostRead_of_some (r := .result) (if_pos hs)] at h
    cases h
    exact ⟨hs, rfl⟩
  · rw [hostRead_of_none (r := .result) (if_neg hs)] at h
    cases h

/-- Settles O20: the two `ERROR`s by `readReg_eq_none_iff`, the value read by the invariant in `Finalized`. -/
theorem failedStreamEmitsNoChecksum : Obligations.FailedStreamEmitsNoChecksum := by
  refine fun s => ⟨fun hs => ⟨?_, ?_, exec_of_failed hs nofun⟩, fun hcoherent d hd => ?_⟩
  · exact hostRead_of_none (r := .result) (readReg_eq_none_iff.2 (.inr ⟨rfl, by rw [hs]; decide⟩))
  · exact hostRead_of_none (r := .crc) (readReg_eq_none_iff.2 (.inl ⟨rfl, hs⟩))
  · obtain ⟨hs, rfl⟩ := finalized_of_hostRead_result hd
    refine ⟨hs, hcoherent.err_iff.2 (by rw [hs]; decide), ?_⟩
    rw [hcoherent.finalized hs]

/-! ## The order of the checks -/

/-- In a stream that takes bytes, an update the device can run has the checks of `acceptUpdate` left (R251). -/
theorem exec_eq_acceptUpdate {i : Instr} {m : Mode} (hmode : updateMode i s = some m) (ht : s.takesBytes = true)
    (hcap : hasCapability i s) : exec i s = acceptUpdate m s (s.setSel (selAfter i s)) := by
  have hopen (o : Host.Outcome State Fault Refusal) : unlessFailed s o = o := unlessFailed_of_ne (ne_failed_of_takesBytes ht) o
  have hchecks : ¬ s.isFinalized = true := Bool.eq_false_iff.1 (isFinalized_of_takesBytes ht)
  cases i with
  | nop | init | injb | finalize => cases hmode
  | update | updTable => cases hmode; exact (hopen _).trans (if_neg hchecks)
  | updFold =>
    cases hmode
    have hfold : s.foldCapable = true := Bool.and_eq_true_iff.2 (hcap rfl)
    exact (hopen _).trans ((if_neg hchecks).trans (if_neg (not_not_intro hfold)))

theorem exec_updFold_nocap (ht : s.takesBytes = true) (hcap : s.cap.clmul = false ∨ s.cap.vec = false) :
    exec .updFold s = .next (s.fail .nocap) := by
  have hchecks : ¬ s.isFinalized = true := Bool.eq_false_iff.1 (isFinalized_of_takesBytes ht)
  have hfold : ¬ s.foldCapable = true := Bool.eq_false_iff.1 (Bool.and_eq_false_iff.2 hcap)
  exact (unlessFailed_of_ne (ne_failed_of_takesBytes ht) _).trans ((if_neg hchecks).trans (if_pos hfold))

theorem acceptUpdate_overflow {m : Mode} {a : State} (hover : s.total.toNat + s.len.toNat > 2 ^ 64 - 1) :
    acceptUpdate m s a = .next (s.fail .overflow) :=
  if_pos (decide_eq_true hover)

theorem acceptUpdate_range {m : Mode} {a : State} (hcount : s.total.toNat + s.len.toNat ≤ 2 ^ 64 - 1)
    (hrange : s.ptr.toNat + s.len.toNat > 2 ^ 64) : acceptUpdate m s a = .next (s.fail .range) :=
  (if_neg (Bool.eq_false_iff.1 (not_overflows.2 hcount))).trans (if_pos (decide_eq_true hrange))

/-- Settles O18, a lemma per check; the two an update ends with are those of `acceptUpdate`. -/
theorem checksFailInOrder : Obligations.ChecksFailInOrder := by
  refine fun s => ⟨fun hs i hi => exec_of_finalized hi hs, fun ht => ⟨exec_updFold_nocap ht,
    fun b hover => exec_injb_overflow ht hover b, fun i m hmode hcap => ?_⟩⟩
  rw [exec_eq_acceptUpdate hmode ht hcap]
  exact ⟨acceptUpdate_overflow, acceptUpdate_range⟩

/-! ## A byte that cannot be read -/

/-- The state in which an accepted update fails, `bs` consumed and one of the next `k` bytes unreadable, with Fail entry on it
(R243, R252). -/
theorem SeqFrame.busErrorEnd {i : Instr} {m : Mode} {u : State} {bs : List Byte} {k : Nat}
    (hf : SeqFrame (seqStart m (accepted i s)) u bs) (hfit : s.ptr.toNat + s.len.toNat ≤ 2 ^ 64) (hk : k ≤ 64)
    (hklen : k ≤ u.len.toNat) (hnone : memRead s.mem u.ptr.toNat k = none) :
    BusErrorEnd s (selAfter i s) bs.length (u.fail .buserr) := by
  obtain ⟨j, hj, hget⟩ := memRead_eq_none.1 hnone
  have hlen : u.len.toNat + bs.length = s.len.toNat := hf.len
  have hptr : u.ptr = s.ptr + BitVec.ofNat 64 bs.length := hf.ptr
  exact
    { within := by omega
      consumed := ⟨bs, hf.read hfit⟩
      failing := ⟨u.ptr.toNat + j, Nat.le_add_right ..,
        Nat.add_lt_add_left (Nat.lt_min.2 ⟨hj.trans_le hklen, hj.trans_le hk⟩) _, hget⟩
      ptr := by rw [State.fail_ptr, hptr, ptr_toNat_add (by omega)]
      len := Nat.eq_sub_of_add_eq hlen
      total := hf.total.trans (BitVec.add_def ..)
      stream := rfl
      err := rfl
      sel_eq := hf.sel
      result := hf.result
      cap := hf.cap
      phase := rfl
      memory := fun a => congrArg (Memory.get · a) hf.mem
      inbox := hf.inbox
      reply := hf.reply }

/-- A range has one first byte that cannot be read. -/
theorem eq_of_first_unreadable {mem : Memory} {a j k : Nat} (hj : ∀ l, l < j → mem.get (a + l) ≠ none)
    (hjnone : mem.get (a + j) = none) (hk : ∀ l, l < k → mem.get (a + l) ≠ none) (hknone : mem.get (a + k) = none) :
    j = k :=
  Nat.le_antisymm (Nat.le_of_not_lt fun h => hj k h hknone) (Nat.le_of_not_lt fun h => hk j h hjnone)

/-- Settles O19: the failing row by `runUpdate_buserr`, the bytes consumed and `CRC` by `runUpdate_stops` at the first byte that
cannot be read; they speak of one run. -/
theorem busErrorLeavesTheListedState : Obligations.BusErrorLeavesTheListedState := by
  intro s i m hmode ht hfits hcap hread
  obtain ⟨k, hk, hbefore, hnone⟩ := exists_first_of_memRead_eq_none hread
  obtain ⟨u, bs, hrun, hf, hcount, hinside, houtside⟩ :=
    runUpdate_stops (m := m) (s := accepted i s) hfits.2 hk hbefore hnone
  obtain ⟨u', -, l, hrun', -, hl, hllen, -, -, hlnone⟩ := runUpdate_buserr (m := m) (s := accepted i s) hfits.2 hread
  have hsame : u'.fail .buserr = u.fail .buserr := Host.Outcome.next.inj (hrun'.symm.trans hrun)
  have hptr : u'.ptr = u.ptr := by simpa using congrArg State.ptr hsame
  have hlen : u'.len = u.len := by simpa using congrArg State.len hsame
  rw [hlen] at hllen
  rw [hptr] at hlnone
  refine ⟨u.fail .buserr, bs.length, (exec_accepted hmode ht hfits hcap).trans hrun,
    hf.busErrorEnd hfits.2 hl hllen hlnone, fun k' _ hbefore' hnone' => ?_, hinside, fun hout cs hcs => ?_⟩
  · rw [eq_of_first_unreadable hbefore' hnone' hbefore hnone]
    exact hcount
  · have hbs : memRead s.mem s.ptr.toNat bs.length = some bs := hf.read hfits.2
    obtain rfl : bs = cs := Option.some.inj (hbs.symm.trans hcs)
    exact houtside hout

end Sys2Proof.Machine
end

section
/-! The state after a reset: its values, a stream not yet begun, and its place in the invariant (spec/70_reset_and_hazards.md R280
to R282). -/

namespace Sys2Proof.Machine

variable (straps : Straps) (m : Memory) (q : List HostEvent)

/-- A reset keeps the memory and the pending events, which are outside CFE, and samples the straps (R280). -/
theorem hostEvent_reset (s : State) : hostEvent (.reset straps) s = .next (State.resetWith straps s.mem s.inbox) := rfl

/-- `ERR`, `SEL` and `STREAM` at their reset values encode as 0 (R38). -/
theorem resetWith_status : (State.resetWith straps m q).status = 0 :=
  (by decide : errCode none ++ Sel.unresolved.code ++ Stream.start.code = 0)

/-- What the start of a stream clears, a reset has cleared. -/
theorem resetWith_startStream : (State.resetWith straps m q).startStream = State.resetWith straps m q := rfl

theorem resetWith_takesBytes : (State.resetWith straps m q).takesBytes = true := rfl

/-- A count of zero has no bytes to fold in (R210). -/
theorem foldLength_zero (crc : Word32) : foldLength 0 crc = crc := by
  rw [foldLength, lengthLoop, if_pos rfl]

/-- Settles O16: the state after a reset is `State.resetWith`. -/
theorem resetLeavesTheListedValues : Obligations.ResetLeavesTheListedValues := by
  refine ⟨fun s straps => ⟨_, hostEvent_reset straps s, ?_⟩, hostEvent_reset _ State.reset, fun _ => rfl⟩
  exact ⟨rfl, rfl, rfl, rfl, rfl, rfl, rfl, rfl, rfl, rfl, resetWith_status .., fun _ => rfl, rfl⟩

/-- Settles O17: `INIT` starts a stream that is at its start already, and `FINAL` folds no byte into a register of zeros. -/
theorem resetIsAFreshStream : Obligations.ResetIsAFreshStream := by
  obtain ⟨-, hinit⟩ := initStartsAStream
  intro straps m q
  refine ⟨(hinit _).trans (congrArg _ (resetWith_startStream straps m q)),
    _, exec_finalize (resetWith_takesBytes straps m q), ?_, rfl⟩
  calc ~~~ foldLength 0 0
    _ = ~~~ (0 : Word32) := congrArg _ (foldLength_zero 0)
    _ = 0xFFFFFFFF := by decide

/-- Settles O60: the general case at `State.reset`, whose memory lists no byte, and in full. -/
theorem resetIsCoherent : Obligations.ResetIsCoherent :=
  ⟨resetWith_coherent _ rfl _, fun straps _ q hm => resetWith_coherent straps hm q⟩

end Sys2Proof.Machine
end
